-- ==== Sys2Proof/Word.lean ====
section
/-! DEFINITION. The word types of the engine. Every value the spec gives is unsigned (R11). -/

namespace Sys2Proof

/-- One channel value, the unit of the record memory (R62; `CH_W` = 8, R9). -/
abbrev Byte := BitVec 8

/-- The operand of CONFIG, bits 15:0 of its word (R83). The register `TOTAL` is `TOTAL_W` bits, a parameter. -/
abbrev Total := BitVec 16

/-- The command word (`CMD_W` = 48, R10, R80). -/
abbrev CmdWord := BitVec 48

/-- An address of the record memory (R60). -/
abbrev RecAddr := BitVec 3

end Sys2Proof
end

