-- ==== Sys2Proof/Syntax.lean ====
section
/-! DEFINITION. The commands of the engine: one constructor for each row of spec/opcode_table.json (R81), and the
textual form a user writes (R89). -/

namespace Sys2Proof

/-- The three commands (R81). The fields have the widths of the word's fields (R80), so a value of this type has no
operand out of range (R85). -/
inductive Instr where
  /-- INIT (R82, R171). -/
  | init
  /-- CONFIG total (R83, R173). -/
  | config (total : Total)
  /-- RENDER lead, count, red, green, blue (R84, R175), in the field order of R84. -/
  | render (lead count red green blue : Byte)
deriving DecidableEq, Repr

/-- A command as written in text (R89): the operands are numerals of any size, to be checked. -/
inductive TextCommand where
  /-- `init` -/
  | init
  /-- `config <total>` -/
  | config (total : Nat)
  /-- `render <lead>, <count>, <r>, <g>, <b>` -/
  | render (lead count red green blue : Nat)
deriving DecidableEq, Repr

end Sys2Proof
end

