-- ==== Sys2Proof/WellFormed.lean ====
section
/-! DEFINITION. When a textual command is well formed (R85, R89): each operand in its range. A value of `Instr` is
well formed by its type. -/

namespace Sys2Proof

/-- Which operand of a textual command is out of range (R89: an assembly error, not a truncation). -/
inductive OperandError where
  | total | lead | count | red | green | blue
deriving DecidableEq, Repr

/-- R85, V11: an 8-bit operand is 0 to 255. -/
def byteOperandOk (n : Nat) : Bool := decide (n ≤ 255)

/-- R85: `total` is 0 to 65535. -/
def totalOperandOk (n : Nat) : Bool := decide (n ≤ 65535)

/-- The first operand out of range, if any. -/
def TextCommand.check : TextCommand → Option OperandError
  | .init => none
  | .config total => if totalOperandOk total then none else some .total
  | .render lead count red green blue =>
    if !byteOperandOk lead then some .lead
    else if !byteOperandOk count then some .count
    else if !byteOperandOk red then some .red
    else if !byteOperandOk green then some .green
    else if !byteOperandOk blue then some .blue
    else none

/-- Every operand is in its range. -/
def TextCommand.wellFormed (c : TextCommand) : Bool := c.check.isNone

end Sys2Proof
end

