-- ==== Sys2Proof/Decode.lean ====
section
/-! DEFINITION. Decoding and encoding of the command word (R80 to R88), and the assembler of the textual form (R89). -/

namespace Sys2Proof

/-- Why a word is reserved (R86): the three kinds of reserved word. Raised by `decode`; safe (no command is read). -/
inductive Reserved where
  /-- `op` = 0x00 or 0x04 to 0xFF. -/
  | opcode
  /-- `op` = 0x01 with a bit of 39:0 set. -/
  | initOperand
  /-- `op` = 0x02 with a bit of 39:16 set. -/
  | configHighBits
deriving DecidableEq, Repr

/-- The slice `w[hi:lo]` of the command word (R11), given as its low bit and its width. -/
def field (w : CmdWord) (lo width : Nat) : BitVec width := w.extractLsb' lo width

/-- `op = w[47:40]` (R80). -/
def opField (w : CmdWord) : Byte := field w 40 8

/-- Operation code of INIT (R81). -/
def opInit : Byte := 0x01
/-- Operation code of CONFIG (R81). -/
def opConfig : Byte := 0x02
/-- Operation code of RENDER (R81). -/
def opRender : Byte := 0x03

/-- Decoding, total on any word (R88); a reserved word is refused by name (R86, R236). -/
def decode (w : CmdWord) : Except Reserved Instr :=
  if opField w = opInit then
    if field w 0 40 = 0 then .ok .init else .error .initOperand
  else if opField w = opConfig then
    if field w 16 24 = 0 then .ok (.config (field w 0 16)) else .error .configHighBits
  else if opField w = opRender then
    .ok (.render (field w 32 8) (field w 24 8) (field w 16 8) (field w 8 8) (field w 0 8))
  else .error .opcode

/-- The word of a command, from the field tables of R80 to R84. -/
def encode : Instr → CmdWord
  | .init => opInit ++ (0 : BitVec 40)
  | .config total => opConfig ++ (0 : BitVec 24) ++ total
  | .render lead count red green blue => opRender ++ lead ++ count ++ red ++ green ++ blue

/-- The instruction read from the word whose bits are `w`, numbered as spec/opcode_table.json numbers them: one
48-bit word, bit 0 least significant (R80); bits above `nbits` are zero. A word longer than 48 bits is no command. -/
def decodeTableWord (nbits w : Nat) : Option Instr :=
  if 48 < nbits then none else (decode (BitVec.ofNat 48 (w % 2 ^ nbits))).toOption

/-- R89: a command is assembled only if every operand is in range. -/
def TextCommand.assemble (c : TextCommand) : Except OperandError Instr :=
  match c.check with
  | some e => .error e
  | none =>
    match c with
    | .init => .ok .init
    | .config total => .ok (.config (BitVec.ofNat 16 total))
    | .render lead count red green blue =>
      .ok (.render (BitVec.ofNat 8 lead) (BitVec.ofNat 8 count) (BitVec.ofNat 8 red) (BitVec.ofNat 8 green)
        (BitVec.ofNat 8 blue))

/-! ### The textual form (R89)

A line is a list of characters: `;` starts a comment that runs to its end; mnemonics are lower case; numerals are
decimal, or hexadecimal after `0x`; operands are separated by commas. How blanks are treated is log 18. -/

/-- Why a line of text is no command (R89); raised by the assembler only; safe. -/
inductive TextError where
  /-- The first word is none of `init`, `config`, `render`. -/
  | unknownMnemonic
  /-- The operands are not the numerals the mnemonic asks for. -/
  | badOperands
  /-- A numeral is out of its operand's range. -/
  | outOfRange (operand : OperandError)
deriving DecidableEq, Repr

/-- A blank of the textual form: space or tab. -/
def isBlank (c : Char) : Bool := c == ' ' || c == '\t'

/-- The line without its comment. -/
def stripComment (line : List Char) : List Char := line.takeWhile (· != ';')

/-- The text without blanks at either end. -/
def trimBlanks (cs : List Char) : List Char :=
  ((cs.dropWhile isBlank).reverse.dropWhile isBlank).reverse

/-- The value of a digit in the given base (10 or 16). -/
def digitValue (base : Nat) (c : Char) : Option Nat :=
  let n := c.toNat
  let v :=
    if 48 ≤ n ∧ n ≤ 57 then n - 48
    else if 97 ≤ n ∧ n ≤ 102 then n - 87
    else if 65 ≤ n ∧ n ≤ 70 then n - 55
    else 16
  if v < base then some v else none

/-- The value of a list of digits, most significant first; `none` if one is no digit. -/
def digitsValue (base : Nat) : List Char → Nat → Option Nat
  | [], acc => some acc
  | c :: cs, acc =>
    match digitValue base c with
    | none => none
    | some v => digitsValue base cs (base * acc + v)

/-- A numeral: decimal, or hexadecimal with the prefix `0x` (R89). -/
def parseNumeral (cs : List Char) : Option Nat :=
  match trimBlanks cs with
  | [] => none
  | ['0', 'x'] => none
  | '0' :: 'x' :: ds => digitsValue 16 ds 0
  | ds => digitsValue 10 ds 0

/-- The parts of a text between commas. -/
def splitCommas : List Char → List (List Char)
  | [] => [[]]
  | c :: cs =>
    if c == ',' then [] :: splitCommas cs
    else
      match splitCommas cs with
      | [] => [[c]]
      | p :: ps => (c :: p) :: ps

/-- The numerals of an operand list; an empty text is no operand. -/
def parseOperands (cs : List Char) : Option (List Nat) :=
  if trimBlanks cs = [] then some [] else (splitCommas cs).mapM parseNumeral

/-- One line (R89): `none` for a line that holds no command. -/
def parseLine (line : List Char) : Except TextError (Option TextCommand) :=
  let body := trimBlanks (stripComment line)
  let word := body.takeWhile (fun c => !isBlank c)
  let operands := parseOperands (body.drop word.length)
  if body = [] then .ok none
  else if word = ['i', 'n', 'i', 't'] then
    match operands with
    | some [] => .ok (some .init)
    | _ => .error .badOperands
  else if word = ['c', 'o', 'n', 'f', 'i', 'g'] then
    match operands with
    | some [total] => .ok (some (.config total))
    | _ => .error .badOperands
  else if word = ['r', 'e', 'n', 'd', 'e', 'r'] then
    match operands with
    | some [lead, count, red, green, blue] => .ok (some (.render lead count red green blue))
    | _ => .error .badOperands
  else .error .unknownMnemonic

/-- One line of text to its command word (R89, R80 to R84). -/
def assembleLine (line : List Char) : Except TextError (Option CmdWord) :=
  match parseLine line with
  | .error e => .error e
  | .ok none => .ok none
  | .ok (some c) =>
    match c.assemble with
    | .error operand => .error (.outOfRange operand)
    | .ok i => .ok (some (encode i))

/-- A program (R89): the words of its lines, in order, or the first error. -/
def assembleProgram : List (List Char) → Except TextError (List CmdWord)
  | [] => .ok []
  | line :: rest =>
    match assembleLine line, assembleProgram rest with
    | .error e, _ => .error e
    | .ok _, .error e => .error e
    | .ok none, .ok ws => .ok ws
    | .ok (some w), .ok ws => .ok (w :: ws)

end Sys2Proof
end

