-- ==== Sys2Proof/Config.lean ====
section
/-! DEFINITION. The build-time parameters of the engine (R7 to R10), when a set of them is admitted (R110, R231, R236),
and the free values: what the spec leaves to the environment or to the board. -/

namespace Sys2Proof

/-- The five numbers of a cycle schedule (R108, R109). -/
structure Schedule where
  /-- `TBIT`: cycles per transmitted bit. -/
  tbit : Nat
  /-- `T0H`: HIGH cycles of a 0 bit. -/
  t0h : Nat
  /-- `T0L`: LOW cycles of a 0 bit. -/
  t0l : Nat
  /-- `T1H`: HIGH cycles of a 1 bit. -/
  t1h : Nat
  /-- `T1L`: LOW cycles of a 1 bit. -/
  t1l : Nat
deriving DecidableEq, Repr

/-- The conditions of R110 that do not mention the clock: R104 to R106 and the width of `CYC`. -/
def Schedule.shapeOk (s : Schedule) : Bool :=
  decide (1 ≤ s.t0h ∧ s.t0h < s.t0l ∧ s.t1l < s.t1h ∧ 1 ≤ s.t1l ∧
    s.t0h + s.t0l = s.tbit ∧ s.t1h + s.t1l = s.tbit ∧ s.tbit ≤ 32)

/-- A set of build-time parameters as a user writes it down, admitted or not: a field for every parameter of R7 to
R10 (U6, U9 to U13: "a named field of the configuration"). -/
structure RawConfig where
  /-- `F_CLK`, the declared clock frequency in hertz (R7). -/
  fClk : Nat
  /-- The schedule (R109); overridable, subject to R110. -/
  sched : Schedule
  /-- `GAP_CYC`, extra LOW cycles between two LEDs (R113). -/
  gapCyc : Nat
  /-- `LATCH_US`, the minimum latch wait in microsecond-clock units (R9). -/
  latchUs : Nat
  /-- `TOTAL_INIT`, the value of `TOTAL` after reset (R10, R43). -/
  totalInit : Nat
  /-- `PERIOD_NS`, the nominal bit period in nanoseconds (R9). -/
  periodNs : Nat
  /-- `TOL_NS`, the tolerance on the bit period in nanoseconds (R9). -/
  tolNs : Nat
  /-- `F_ACTUAL`, the frequency the clock really runs at (R10, R117); no step reads it. -/
  fActual : Nat
  /-- `PIN`, the target pin: an uninterpreted label (R8); no step reads it. `none` is an engine whose pin has not been
  named. -/
  pin : Option Nat
  /-- `CH_W`, bits of a channel value (R9). -/
  chW : Nat
  /-- `BYTES_PER_LED`, bytes in one Color Record (R9). -/
  bytesPerLed : Nat
  /-- `BITS_PER_LED`, bits transmitted per LED (R9). -/
  bitsPerLed : Nat
  /-- `LEAD_W`, bits of the leading-dark-count operand (R9). -/
  leadW : Nat
  /-- `COUNT_W`, bits of the colored-count operand (R9). -/
  countW : Nat
  /-- `TOTAL_W`, width of `TOTAL` and of `NTRAIL` (R10, D6, U12). -/
  totalW : Nat
  /-- `US_W`, width of the microsecond clock and of `T0` (R10, D12, U13). -/
  usW : Nat
  /-- `CMD_W`, width of the command word (R10, R80). -/
  cmdW : Nat
deriving DecidableEq, Repr

/-- R7, R231: `F_CLK` is one of the two supported values. -/
def RawConfig.clockSupported (c : RawConfig) : Bool :=
  decide (c.fClk = 8000000 ∨ c.fClk = 16000000)

/-- R107: the bit period is within tolerance, `| TBIT * 10^9 / F_CLK - PERIOD_NS | <= TOL_NS`, multiplied out
by `F_CLK` so that no division is needed. -/
def RawConfig.periodOk (c : RawConfig) : Bool :=
  decide (c.sched.tbit * 1000000000 ≤ (c.periodNs + c.tolNs) * c.fClk ∧
    c.periodNs * c.fClk ≤ c.sched.tbit * 1000000000 + c.tolNs * c.fClk)

/-- R110 and the bound on `GAP_CYC` (R34, R236). -/
def RawConfig.scheduleAdmitted (c : RawConfig) : Bool :=
  c.sched.shapeOk && c.periodOk && decide (c.gapCyc ≤ 255)

/-- The constants of R9 and `CMD_W` have the values that the encodings, the record memory and the position registers of
the spec are written for (R61, R80 to R84, R29 to R31): no rule gives an engine with another value (log 19). -/
def RawConfig.constantsOk (c : RawConfig) : Bool :=
  decide (c.chW = 8 ∧ c.bytesPerLed = 3 ∧ c.bitsPerLed = c.chW * c.bytesPerLed ∧ c.leadW = 8 ∧ c.countW = 8 ∧
    c.cmdW = 48)

/-- The open widths: the rules hold for any `TOTAL_W` >= 9 (D6), and `TOTAL_INIT` fits it; the clock has at least one
bit (log 15). -/
def RawConfig.widthsOk (c : RawConfig) : Bool :=
  decide (9 ≤ c.totalW ∧ c.totalInit < 2 ^ c.totalW ∧ 1 ≤ c.usW)

/-- The constants and the widths are admitted. -/
def RawConfig.parametersAdmitted (c : RawConfig) : Bool := c.constantsOk && c.widthsOk

/-- An admitted configuration. An engine with any other parameters does not exist (R7, R231), so the checks are
part of the type. -/
structure Config extends RawConfig where
  clockOk : toRawConfig.clockSupported = true
  scheduleOk : toRawConfig.scheduleAdmitted = true
  parametersOk : toRawConfig.parametersAdmitted = true
deriving DecidableEq, Repr

/-- Why no configuration exists (R236). Raised by `Config.build` only, at build time, never by a step; safe. -/
inductive ConfigError where
  /-- `F_CLK` is neither 8 MHz nor 16 MHz (R231). -/
  | unsupportedClock
  /-- The schedule fails R110, or `GAP_CYC` > 255. -/
  | badSchedule
  /-- A constant of R9 or a width of R10 for which the spec gives no engine (logs 15, 19). -/
  | badParameter
deriving DecidableEq, Repr

/-- Building an engine (R231, R236): refused by name, never a silent fallback. -/
def Config.build (c : RawConfig) : Except ConfigError Config :=
  if hc : c.clockSupported = true then
    if hs : c.scheduleAdmitted = true then
      if hp : c.parametersAdmitted = true then
        .ok { toRawConfig := c, clockOk := hc, scheduleOk := hs, parametersOk := hp }
      else .error .badParameter
    else .error .badSchedule
  else .error .unsupportedClock

/-- `CYC_PER_US = F_CLK / 1 000 000`, used only by the reference clock (R10, R161). -/
def Config.cycPerUs (c : Config) : Nat := c.fClk / 1000000

/-- The duration of `cycles` clock cycles in nanoseconds (R13, R117): `cycles / F_ACTUAL` seconds. -/
def Config.nanoseconds (c : Config) (cycles : Nat) : Rat :=
  (cycles * 1000000000 : Nat) / (c.fActual : Rat)

/-! ### Free values

Constants with no body: nothing can be proved of their values, so what is proved holds whatever they are. The argument
is `State.tick`, the number of the cycle, or the operand whose effect is open. Logs 1, 14 and 21. -/

/-- `rst` in cycle n, where no script says it (R6, R40). Log 1. -/
opaque Config.freeRst : Nat → Bool
/-- `cmd_valid` in cycle n, where no script says it (R6, R40). Log 1. -/
opaque Config.freeCmdValid : Nat → Bool
/-- `cmd` in cycle n, where no script says it (R40). Log 1. -/
opaque Config.freeCmd : Nat → CmdWord
/-- `us_now` in cycle n, where no script says it (R161, U13). Log 1. -/
opaque Config.freeUsNow : Nat → Nat
/-- What `TOTAL` holds after a CONFIG whose operand does not fit `TOTAL_W` bits, before it is cut to that width: the
spec gives no value (D6, log 21). -/
opaque Config.freeTotal : Total → Nat
/-- Whether the physical line is HIGH in cycle n while the engine does not drive it (R41, U14). Log 14. -/
opaque Config.freeLineHigh : Nat → Bool

end Sys2Proof
end

