-- ==== Sys2Proof/Machine/Schedule.lean ====
section
/-! DEFINITION. The two schedules, the default configurations, the HIGH length of a bit and the reference microsecond
clock (R108, R109, R10, R161). -/

namespace Sys2Proof.Machine

/-- Schedule S8 (R109). -/
def schedule8 : Schedule := { tbit := 10, t0h := 3, t0l := 7, t1h := 7, t1l := 3 }

/-- Schedule S16 (R109). -/
def schedule16 : Schedule := { tbit := 20, t0h := 6, t0l := 14, t1h := 14, t1l := 6 }

/-- The parameters at their defaults (R9, R10) for a declared frequency and its schedule. The spec gives `PIN` no value
(R8, N16) and none is assumed: that a default engine carries no label is the model's choice (DESIGN CHOICE, log 22). -/
def defaultRaw (fClk : Nat) (sched : Schedule) : RawConfig :=
  { fClk := fClk, sched := sched, gapCyc := 0, latchUs := 50, totalInit := 0, periodNs := 1250, tolNs := 150,
    fActual := fClk, pin := none, chW := 8, bytesPerLed := 3, bitsPerLed := 24, leadW := 8, countW := 8, totalW := 16,
    usW := 32, cmdW := 48 }

/-- The default engine at 8 MHz (R108, R109, R10). -/
def config8 : Config :=
  { toRawConfig := defaultRaw 8000000 schedule8, clockOk := by decide, scheduleOk := by decide,
    parametersOk := by decide }

/-- The default engine at 16 MHz (R108, R109, R10). -/
def config16 : Config :=
  { toRawConfig := defaultRaw 16000000 schedule16, clockOk := by decide, scheduleOk := by decide,
    parametersOk := by decide }

/-- The default configuration of a declared frequency (R108: the schedule is a function of `F_CLK` alone); an
unsupported frequency is refused (R231). -/
def defaultConfig (fClk : Nat) : Except ConfigError Config :=
  Config.build (defaultRaw fClk (if fClk = 8000000 then schedule8 else schedule16))

/-- HIGH cycles of a bit (R104, R105): `T1H` for a 1, `T0H` for a 0. -/
def highCycles (c : Config) (bit : Bool) : Nat := if bit then c.sched.t1h else c.sched.t0h

/-- LOW cycles of a bit (R104, R105): `T1L` for a 1, `T0L` for a 0. -/
def lowCycles (c : Config) (bit : Bool) : Nat := if bit then c.sched.t1l else c.sched.t0l

/-- The reference clock (R161): `(U0 + floor(t / CYC_PER_US)) mod 2^US_W` in cycle `t`. Tests and R168 only. -/
def refClock (c : Config) (u0 t : Nat) : Nat := (u0 + t / c.cycPerUs) % 2 ^ c.usW

end Sys2Proof.Machine
end

