-- ==== Sys2Proof/Machine/State.lean ====
section
/-! DEFINITION. The state of the engine: the sixteen registers of R20, and beside them the model's own fields, the
build-time configuration and the inputs of the cycles (R37, R40). -/

namespace Sys2Proof.Machine

/-- What the engine is doing: the five legal values of the register `PHASE` (R24). The reserved values 5, 6 and 7 are
not states (U18), so the type has none. -/
inductive Phase where
  /-- 0: no render call in progress; commands can be accepted. -/
  | idle
  /-- 1: the Timing Engine is emitting bits. -/
  | tx
  /-- 2: between two LEDs, line LOW. -/
  | gap
  /-- 3: the Latch Timer records its timestamp. -/
  | arm
  /-- 4: the Latch Timer busy-waits. -/
  | wait
deriving DecidableEq, Repr

/-- A pin level (R15, R23): LOW is the value 0, HIGH the value 1. -/
inductive Level where
  | low | high
deriving DecidableEq, Repr

/-- A pin direction (R22): input is the value 0, output the value 1. -/
inductive PinDir where
  | input | output
deriving DecidableEq, Repr

/-- The record memory (R60, R61): the bytes at addresses 3 to 5 that are not zero, in rising order of address. Bytes
3, 4 and 5 are `COLOR[0]`, `COLOR[1]`, `COLOR[2]`, the same storage under two names (R25); bytes 0 to 2 are hard-wired
to zero and never listed; 6 and 7 do not exist. -/
abbrev Memory := List Host.Cell

/-- What a mapped address that is not listed reads as: 0x00, the reset content of `COLOR` (R43) and the content of
the zero record (R61). -/
def Memory.unlisted : Byte := 0x00

/-- The canonical form: addresses strictly rising, only bytes of the colour record, none equal to the unlisted value. -/
def Memory.wf : Memory → Bool
  | [] => true
  | [c] => decide (3 ≤ c.1 ∧ c.1 ≤ 5 ∧ c.2 ≠ Memory.unlisted)
  | c :: d :: m => decide (3 ≤ c.1 ∧ c.1 < d.1 ∧ c.2 ≠ Memory.unlisted) && Memory.wf (d :: m)

/-- The sixteen registers of the engine (R20); "Nothing else is state". -/
structure Engine where
  /-- `TOTAL`: the total LED count of the strip (R21), a number below 2^`TOTAL_W`. -/
  total : Nat
  /-- `PIN_DIR`: the direction the engine has commanded (R22). -/
  pinDir : PinDir
  /-- `PIN_LEVEL`: the level the engine has commanded (R23). -/
  pinLevel : Level
  /-- `PHASE` (R24). -/
  phase : Phase
  /-- `COLOR[0]`, `COLOR[1]`, `COLOR[2]`, as bytes 3, 4 and 5 of the record memory (R25, R61). -/
  mem : Memory
  /-- `NLEAD`: leading dark LEDs not yet started (R26). -/
  nlead : Byte
  /-- `NCOL`: colored LEDs not yet started (R27). -/
  ncol : Byte
  /-- `NTRAIL`: trailing dark LEDs not yet started (R28), a number below 2^`TOTAL_W`. -/
  ntrail : Nat
  /-- `PTR`: the byte cursor (R29). -/
  ptr : RecAddr
  /-- `CNT`: the byte counter (R30). -/
  cnt : BitVec 2
  /-- `BITIDX`: the bit counter (R31). -/
  bitIdx : BitVec 3
  /-- `CYC`: the cycle index within the current bit (R32). -/
  cyc : BitVec 5
  /-- `GAPCNT`: gap cycles still to spend (R34). -/
  gapCnt : BitVec 8
  /-- `T0`: the first post-transmission timestamp (R35), a number below 2^`US_W`. -/
  t0 : Nat
deriving DecidableEq, Repr

/-- The input ports in one cycle (R40). -/
structure CycleInput where
  /-- `rst`: synchronous reset, active at 1 (R260). -/
  rst : Bool
  /-- `cmd_valid`: the host presents a command in this cycle. -/
  cmdValid : Bool
  /-- `cmd`: the command word; ignored when `cmd_valid` is 0. -/
  cmd : CmdWord
  /-- `us_now`: the microsecond clock (R161); the engine reads it modulo 2^`US_W`, the width of the port. -/
  usNow : Nat
deriving DecidableEq, Repr

/-- The machine: the engine's registers, its fixed configuration, and the environment's inputs as plain data. `cfg`,
`port`, `script` and `tick` are the model's own fields (R37: not state of the engine). Logs 1, 2 and 4. -/
structure State where
  /-- The build-time parameters; no step changes them. -/
  cfg : Config
  /-- The sixteen registers. -/
  eng : Engine
  /-- The input ports in this cycle. -/
  port : CycleInput
  /-- The input ports in the cycles to come, the next one first; past its end the inputs are free values. -/
  script : List CycleInput
  /-- The number of cycles run so far: the argument of the free values. -/
  tick : Nat
deriving DecidableEq, Repr

/-- Why the machine stops with a fault. The hardware raises none (R230); each name is a model outcome of R236. -/
inductive Fault where
  /-- A read of record-memory address 6 or 7 (R62, R236). Raised by a step in phase TX whose `PTR` is unmapped; no
  state reached from reset has one (R68). Safe. -/
  | unmappedRecordRead (addr : RecAddr)
  /-- RENDER accepted while `PIN_DIR` = 0 (R178, R236). Raised by `Safety.guardedStep` only; the machine's own step
  does what the hardware does and goes on. Safe. -/
  | renderBeforeInit
deriving DecidableEq, Repr

/-- Why the machine gives no meaning. -/
inductive Refusal where
  /-- An instruction with no meaning yet, by its mnemonic. Raised by an arm of `exec` only; no arm does. Safe. -/
  | notModelled (mnemonic : String)
  /-- A reserved word accepted (R86, R236). Raised by `Safety.guardedStep` only; the machine's own step changes no
  register, as the hardware does (R193). Safe. -/
  | reservedCommand (cmd : CmdWord)
  /-- A command presented while `busy` and then withdrawn or changed (R236, R268). Raised by `Safety.guardedStep`
  only; the machine's own step ignores it, as the hardware does (R192). Safe. -/
  | commandWhileBusy
deriving DecidableEq, Repr

/-- The registers right after reset (R43). -/
def Engine.reset (c : Config) : Engine :=
  { total := c.totalInit, pinDir := .input, pinLevel := .low, phase := .idle, mem := [], nlead := 0, ncol := 0,
    ntrail := 0, ptr := 0, cnt := 0, bitIdx := 0, cyc := 0, gapCnt := 0, t0 := 0 }

/-- No reset, no command, and the clock at 0: the ports of the first cycle (DESIGN CHOICE, log 2). -/
def CycleInput.quiet : CycleInput := { rst := false, cmdValid := false, cmd := 0, usNow := 0 }

/-- An engine of any configuration right after reset, in cycle 0 (R43, R261). -/
def State.resetOf (c : Config) : State :=
  { cfg := c, eng := Engine.reset c, port := CycleInput.quiet, script := [], tick := 0 }

/-- The machine right after reset (R43), for the default engine at 8 MHz (DESIGN CHOICE, log 4). -/
def State.reset : State := State.resetOf config8

end Sys2Proof.Machine
end

