-- ==== Sys2Proof/Machine/Ops.lean ====
section
/-! DEFINITION. The named operations: the record memory (R60 to R63), the passage from one cycle to the next, reset
(R191, R260), and the command handshake (R192). The engine takes no exception (R230, R241); reset is the nearest
event, and is the one shared operation here. -/

namespace Sys2Proof.Machine.Ops

/-! ### The record memory -/

/-- The byte listed at an address, or the unlisted value. -/
def lookup : Memory → Nat → Byte
  | [], _ => Memory.unlisted
  | c :: m, a => if c.1 = a then c.2 else lookup m a

/-- The memory without any entry at `a`. -/
def erase : Memory → Nat → Memory
  | [], _ => []
  | c :: m, a => if c.1 = a then erase m a else c :: erase m a

/-- A new entry at its place in the order. -/
def insert : Memory → Nat → Byte → Memory
  | [], a, v => [(a, v)]
  | c :: m, a, v => if a < c.1 then (a, v) :: c :: m else c :: insert m a v

/-- The memory with byte `v` at `a`, in canonical form: the unlisted value is not listed. -/
def put (m : Memory) (a : Nat) (v : Byte) : Memory :=
  if v = Memory.unlisted then erase m a else insert (erase m a) a v

/-- The record-memory address of `COLOR[i]` (R61). -/
def colorAddr (i : Fin 3) : Nat := 3 + i.val

/-- `COLOR[i]` (R25): green, red, blue. -/
def color (m : Memory) (i : Fin 3) : Byte := lookup m (colorAddr i)

/-- `MemRead(addr, 1)` (R62): the hard-wired zero record at 0 to 2, the colour record at 3 to 5, and a fault at the
addresses that do not exist. -/
def memRead (m : Memory) (addr : RecAddr) : Except Fault Byte :=
  if addr.toNat < 3 then .ok 0x00
  else if addr.toNat ≤ 5 then .ok (lookup m addr.toNat)
  else .error (.unmappedRecordRead addr)

/-- `MemWrite(3 + i, 1, v)` (R63): it exists for the three bytes of the colour record only. -/
def memWrite (m : Memory) (i : Fin 3) (v : Byte) : Memory := put m (colorAddr i) v

/-! ### From one cycle to the next -/

/-- The inputs of cycle `n` where no script gives them: free values (log 1). -/
def freeInput (n : Nat) : CycleInput :=
  { rst := Config.freeRst n, cmdValid := Config.freeCmdValid n, cmd := Config.freeCmd n,
    usNow := Config.freeUsNow n }

/-- The inputs `k` cycles from now; `k` = 0 is this cycle. -/
def inputAt (s : State) : Nat → CycleInput
  | 0 => s.port
  | k + 1 => (s.script[k]?).getD (freeInput (s.tick + k + 1))

/-- The next cycle, with the registers `e`: the ports take their next values (R12: all writes of a step take effect
together at its end). -/
def advance (s : State) (e : Engine) : State :=
  { cfg := s.cfg, eng := e, port := inputAt s 1, script := s.script.tail, tick := s.tick + 1 }

/-- A cycle that ends with the registers `e`, or in a fault. -/
def finish (s : State) : Except Fault Engine → Host.Outcome State Fault Refusal
  | .ok e => .next (advance s e)
  | .error f => .fault f

/-- The reset arm (R191, R260): every register at its reset value, whatever the state and the other inputs are. The
environment is not reset (R244). -/
def resetCycle (s : State) : Host.Outcome State Fault Refusal := .next (advance s (Engine.reset s.cfg))

/-! ### The handshake -/

/-- `accept(cmd)` (R192): exactly when `rst` = 0, `cmd_valid` = 1 and `PHASE` = IDLE. -/
def accept (s : State) : Bool := !s.port.rst && s.port.cmdValid && decide (s.eng.phase = .idle)

/-- The command word accepted in this cycle, if one is. -/
def accepted (s : State) : Option CmdWord := if accept s then some s.port.cmd else none

end Sys2Proof.Machine.Ops
end

