-- ==== Sys2Proof/Machine/LatchTimer.lean ====
section
/-! DEFINITION. The Latch Timer (R160 to R169): the arms of phases ARM and WAIT (R201, R202). -/

namespace Sys2Proof.Machine

/-- The value the port `us_now` shows: `US_W` bits of the clock (R161). -/
def clockValue (c : Config) (usNow : Nat) : Nat := usNow % 2 ^ c.usW

/-- `LATCH.ARM` (R162, R201): one cycle. -/
def armArm (c : Config) (usNow : Nat) (e : Engine) : Engine := { e with t0 := clockValue c usNow, phase := .wait }

/-- The elapsed time `(us_now - T0) mod 2^US_W` (R164; 2^32 at the spec's width). -/
def elapsed (c : Config) (usNow t0 : Nat) : Nat :=
  (clockValue c usNow + (2 ^ c.usW - clockValue c t0)) % 2 ^ c.usW

/-- The condition of the wait (R163): `(us_now - T0) mod 2^US_W >= LATCH_US`. -/
def latchDone (c : Config) (usNow t0 : Nat) : Bool := decide (c.latchUs ≤ elapsed c usNow t0)

/-- `LATCH.WAIT` (R163, R202). -/
def waitArm (c : Config) (usNow : Nat) (e : Engine) : Engine :=
  if latchDone c usNow e.t0 then { e with phase := .idle } else e

end Sys2Proof.Machine
end

