-- ==== Sys2Proof/Machine/Operands.lean ====
section
/-! DEFINITION. The operands of RENDER in wider computations (R85) and the one arithmetic law of the engine, the
saturating subtraction (R143, R151). -/

namespace Sys2Proof.Machine

/-- `sat_sub(a, b)` (R11): `a - b` when `a >= b`, and 0 otherwise. -/
def satSub (a b : Nat) : Nat := if b ≤ a then a - b else 0

/-- `sum = zext_17(lead) + zext_17(count)` (R143): 0 to 510, never truncated to 8 bits. -/
def runSum (lead count : Byte) : BitVec 17 := lead.setWidth 17 + count.setWidth 17

/-- `trail = sat_sub(TOTAL, lead + count)` on integers (R143, D6: at every `TOTAL_W`). -/
def trailCount (total : Nat) (lead count : Byte) : Nat := satSub total (lead.toNat + count.toNat)

/-- `trail = (zext_17(TOTAL) >= sum) ? (zext_17(TOTAL) - sum)[15:0] : 0` (R143), the trailing count in registers at
`TOTAL_W` = 16; the machine computes it on integers, and no step uses this form. -/
def trailRegister (total : BitVec 16) (lead count : Byte) : BitVec 16 :=
  if runSum lead count ≤ total.setWidth 17 then (total.setWidth 17 - runSum lead count).setWidth 16 else 0

/-- What CONFIG stores in `TOTAL` (R173): the operand; a free value of `TOTAL_W` bits for an operand that does not
fit, which exists only where `TOTAL_W` < 16 (log 21). -/
def storedTotal (c : Config) (total : Total) : Nat :=
  if total.toNat < 2 ^ c.totalW then total.toNat else Config.freeTotal total % 2 ^ c.totalW

/-- `L = lead + count + trail` (R147): the LEDs a render call transmits. -/
def frameLeds (total : Nat) (lead count : Byte) : Nat :=
  lead.toNat + count.toNat + trailCount total lead count

/-- `W = L * BITS_PER_LED * TBIT + max(L - 1, 0) * GAP_CYC` (R135, R179): the cycles of phases TX and GAP. -/
def windowCycles (c : Config) (leds : Nat) : Nat := leds * c.bitsPerLed * c.sched.tbit + (leds - 1) * c.gapCyc

end Sys2Proof.Machine
end

