-- ==== Sys2Proof/Machine/FrameSequencer.lean ====
section
/-! DEFINITION. The Frame Sequencer (R140 to R151): `SEQ.LOAD`, `SEQ.NEXT`, and `StartLed` with which they start an
invocation of the Timing Engine (R195). -/

namespace Sys2Proof.Machine

/-- The record-memory address of the all-zero record (R61). -/
def zeroBase : RecAddr := 0

/-- The record-memory address of the colour record (R61). -/
def colorBase : RecAddr := 3

/-- The Color Record of the colored run in wire order (R142): `COLOR[0] <- g`, `COLOR[1] <- r`, `COLOR[2] <- b`, one
atomic update (R63). -/
def loadColor (m : Memory) (red green blue : Byte) : Memory :=
  Ops.memWrite (Ops.memWrite (Ops.memWrite m 0 green) 1 red) 2 blue

/-- `SEQ.LOAD(lead, count, r, g, b)` (R145). -/
def seqLoad (lead count red green blue : Byte) (e : Engine) : Engine :=
  { e with
    mem := loadColor e.mem red green blue
    nlead := lead
    ncol := count
    ntrail := trailCount e.total lead count }

/-- `SEQ.NEXT` (R146): the counters after it, and the base of the next LED, or `none` for END. -/
def seqNext (e : Engine) : Engine × Option RecAddr :=
  if 0 < e.nlead then ({ e with nlead := e.nlead - 1 }, some zeroBase)
  else if 0 < e.ncol then ({ e with ncol := e.ncol - 1 }, some colorBase)
  else if 0 < e.ntrail then ({ e with ntrail := e.ntrail - 1 }, some zeroBase)
  else (e, none)

/-- `StartLed(base)` (R195): the start of `TX(base, 3)`, that is `BYTES_PER_LED` bytes of `CH_W` bits (R9). -/
def startLed (c : Config) (base : RecAddr) (e : Engine) : Engine :=
  { e with
    ptr := base, cnt := BitVec.ofNat 2 c.bytesPerLed, bitIdx := BitVec.ofNat 3 (c.chW - 1), cyc := 0, phase := .tx,
    pinLevel := .high }

/-- The end of the frame seen inside the guard window (R199): `PHASE <- ARM ; PIN_LEVEL <- LOW`. -/
def frameOver (e : Engine) : Engine := { e with phase := .arm, pinLevel := .low }

/-- `SEQ.NEXT`, then `StartLed` of its base (R199, R200). END is the end of the frame; in R200 it cannot happen in a
state a run reaches (log 11). -/
def nextLed (c : Config) (e : Engine) : Engine :=
  match seqNext e with
  | (e', some base) => startLed c base e'
  | (e', none) => frameOver e'

/-- The first `SEQ.NEXT` of a render call (R194): END is the empty frame, which goes to ARM and does not write
`PIN_LEVEL`. -/
def firstLed (c : Config) (e : Engine) : Engine :=
  match seqNext e with
  | (e', some base) => startLed c base e'
  | (e', none) => { e' with phase := .arm }

end Sys2Proof.Machine
end

