-- ==== Sys2Proof/Machine/TimingEngine.lean ====
section
/-! DEFINITION. The Timing Engine on the machine: the arms of phases TX and GAP (R196 to R200). -/

namespace Sys2Proof.Machine

/-- The bit on the line, `MemRead(PTR, 1)[BITIDX]` (R196). -/
def bitOf (byte : Byte) (bitIdx : BitVec 3) : Bool := byte.getLsbD bitIdx.toNat

/-- Inside a bit (R196). -/
def txWithinBit (c : Config) (bit : Bool) (e : Engine) : Engine :=
  { e with
    cyc := e.cyc + 1
    pinLevel := if e.cyc.toNat + 1 < highCycles c bit then .high else .low }

/-- Last cycle of a bit that is not the last of its byte (R197). -/
def txNextBit (e : Engine) : Engine := { e with cyc := 0, bitIdx := e.bitIdx - 1, pinLevel := .high }

/-- Last cycle of a byte that is not the last of its LED (R198). -/
def txNextByte (c : Config) (e : Engine) : Engine :=
  { e with cyc := 0, bitIdx := BitVec.ofNat 3 (c.chW - 1), ptr := e.ptr + 1, cnt := e.cnt - 1, pinLevel := .high }

/-- Last cycle of an LED (R199): the frame is over, or the next LED starts at once, or the gap comes first. -/
def txEndLed (c : Config) (e : Engine) : Engine :=
  let e2 := { e with cnt := 0, cyc := 0 }
  if e.nlead = 0 ∧ e.ncol = 0 ∧ e.ntrail = 0 then frameOver e2
  else if c.gapCyc = 0 then nextLed c e2
  else { e2 with phase := .gap, gapCnt := BitVec.ofNat 8 c.gapCyc, pinLevel := .low }

/-- The step of phase TX for the bit on the line (R196 to R199). A `CYC` at or past the end of the bit counts as its
last cycle and a `CNT` of 0 as the last byte, as in the listing of 45_cycle_machine.md section 3 (logs 9, 10). -/
def txBit (c : Config) (bit : Bool) (e : Engine) : Engine :=
  if e.cyc.toNat + 1 < c.sched.tbit then txWithinBit c bit e
  else if 0 < e.bitIdx then txNextBit e
  else if 1 < e.cnt then txNextByte c e
  else txEndLed c e

/-- The TX arm: the Timing Engine reads the byte at `PTR` in every cycle of phase TX (R62) and uses one bit of it. -/
def txArm (c : Config) (e : Engine) : Except Fault Engine :=
  match Ops.memRead e.mem e.ptr with
  | .ok byte => .ok (txBit c (bitOf byte e.bitIdx) e)
  | .error f => .error f

/-- The GAP arm (R200). -/
def gapArm (c : Config) (e : Engine) : Engine :=
  if 1 < e.gapCnt then { e with gapCnt := e.gapCnt - 1 } else nextLed c { e with gapCnt := 0 }

end Sys2Proof.Machine
end

