-- ==== Sys2Proof/Machine/Cycle.lean ====
section
/-! DEFINITION. The cycle in which no command is accepted: the dispatch of R190 on `PHASE`. -/

namespace Sys2Proof.Machine

/-- The arms of R193 (no command accepted), R196 to R199, R200, R201 and R202. -/
def phaseArm (c : Config) (usNow : Nat) (e : Engine) : Except Fault Engine :=
  match e.phase with
  | .idle => .ok e
  | .tx => txArm c e
  | .gap => .ok (gapArm c e)
  | .arm => .ok (armArm c usNow e)
  | .wait => .ok (waitArm c usNow e)

/-- A cycle without reset in which no command is accepted (R190). -/
def quietCycle (s : State) : Host.Outcome State Fault Refusal :=
  Ops.finish s (phaseArm s.cfg s.port.usNow s.eng)

/-- A cycle in which a reserved word is accepted (R86, R193): the handshake fires and no register changes. -/
def reservedCycle (s : State) : Host.Outcome State Fault Refusal := .next (Ops.advance s s.eng)

/-- A cycle in which the host presents a command whose effect at acceptance is `effect`: reset wins (R191); in phase
IDLE the command is accepted (R193); in any other phase it is held off and has no effect (R192). -/
def presentCommand (effect : Engine → Engine) (s : State) : Host.Outcome State Fault Refusal :=
  if s.port.rst then Ops.resetCycle s
  else if s.eng.phase = .idle then .next (Ops.advance s (effect s.eng))
  else quietCycle s

end Sys2Proof.Machine
end

