-- ==== Sys2Proof/Machine/HostOps.lean ====
section
/-! DEFINITION. The meanings of the three commands (R170 to R181): each is one cycle in which the host presents the
command; a RENDER goes on in the phases of `Cycle.lean` after it. -/

namespace Sys2Proof.Machine

/-- INIT at acceptance (R171): the pin is an output at the idle level. -/
def initEffect (e : Engine) : Engine := { e with pinDir := .output, pinLevel := .low }

/-- CONFIG at acceptance (R173). -/
def configEffect (c : Config) (total : Total) (e : Engine) : Engine := { e with total := storedTotal c total }

/-- RENDER at acceptance (R175, R194): `SEQ.LOAD` and the first `SEQ.NEXT` in one step. The engine does not check that
INIT came before (R178). -/
def renderEffect (c : Config) (lead count red green blue : Byte) (e : Engine) : Engine :=
  firstLed c (seqLoad lead count red green blue e)

/-- INIT (R171). -/
def execInit (s : State) : Host.Outcome State Fault Refusal := presentCommand initEffect s

/-- CONFIG total (R173). -/
def execConfig (total : Total) (s : State) : Host.Outcome State Fault Refusal :=
  presentCommand (configEffect s.cfg total) s

/-- RENDER lead, count, red, green, blue (R175). -/
def execRender (lead count red green blue : Byte) (s : State) : Host.Outcome State Fault Refusal :=
  presentCommand (renderEffect s.cfg lead count red green blue) s

end Sys2Proof.Machine
end

