-- ==== Sys2Proof/Machine/Dispatch.lean ====
section
/-! DEFINITION. One arm for each command (R193). -/

namespace Sys2Proof.Machine

def exec (i : Instr) (s : State) : Host.Outcome State Fault Refusal :=
  match i with
  | .init => Sys2Proof.Machine.execInit s
  | .config total => Sys2Proof.Machine.execConfig total s
  | .render lead count red green blue => Sys2Proof.Machine.execRender lead count red green blue s

end Sys2Proof.Machine
end

