-- ==== Sys2Proof/Machine/Step.lean ====
section
/-! DEFINITION. The step of the engine: one clock cycle (R190). -/

namespace Sys2Proof.Machine

/-- One step per clock cycle (R190), in the order of R239: reset; otherwise the command, if one is accepted (R193);
otherwise the arm of the phase. -/
def step (s : State) : Host.Outcome State Fault Refusal :=
  if s.port.rst then Ops.resetCycle s
  else
    match Ops.accepted s with
    | none => quietCycle s
    | some w =>
      match decode w with
      | .ok i => exec i s
      | .error _ => reservedCycle s

/-- The state with the command word `w` on the port of this cycle, so that the very next step accepts it: `cmd_valid`
is 1, `rst` is 0, and the engine is in phase IDLE, which acceptance needs (R192, log 3). -/
def State.withFetchWord (s : State) (nbits w : Nat) : State :=
  { s with
    eng := { s.eng with phase := .idle }
    port := { s.port with rst := false, cmdValid := true, cmd := BitVec.ofNat 48 (w % 2 ^ nbits) } }

end Sys2Proof.Machine
end

