-- ==== Sys2Proof/Machine/EagerHost.lean ====
section
/-! DEFINITION. The eager host (R91) and the end of a run of a program (R207): a driver of `step` for a list of
command words, with a microsecond clock given as a function of the cycle. No step uses it. -/

namespace Sys2Proof.Machine

/-- The ports an eager host gives in one cycle (R91): the first command not yet accepted, if any. -/
def eagerPort (left : List CmdWord) (usNow : Nat) : CycleInput :=
  match left with
  | [] => { rst := false, cmdValid := false, cmd := 0, usNow := usNow }
  | w :: _ => { rst := false, cmdValid := true, cmd := w, usNow := usNow }

/-- One cycle under an eager host: the step, and the commands still to be accepted after it. -/
def eagerCycle (usNow : Nat) (left : List CmdWord) (s : State) :
    Host.Outcome State Fault Refusal × List CmdWord :=
  let s1 := { s with port := eagerPort left usNow }
  (step s1, if Ops.accept s1 then left.tail else left)

/-- The run is over (R207): `PHASE` = IDLE and every command has been accepted. -/
def runOver (left : List CmdWord) (s : State) : Bool := decide (s.eng.phase = .idle) && left.isEmpty

/-- The run of a program from cycle `t` (R207): the cycle in which it is over and the state in that cycle, within
`fuel` cycles; `none` if it is not over by then or a step stops. -/
def runProgram (clock : Nat → Nat) : Nat → Nat → List CmdWord → State → Option (Nat × State)
  | 0, _, _, _ => none
  | fuel + 1, t, left, s =>
    if runOver left s then some (t, s)
    else
      match eagerCycle (clock t) left s with
      | (.next s', left') => runProgram clock fuel (t + 1) left' s'
      | (.fault _, _) => none
      | (.refused _, _) => none

end Sys2Proof.Machine
end

