-- ==== Sys2Proof/Machine/Guard.lean ====
section
/-! DEFINITION. The Critical Section Guard (R130 to R138): the output `irq_inhibit` and what it does to the host. -/

namespace Sys2Proof.Machine

/-- `irq_inhibit` (R41, R131): 1 in exactly the phases TX and GAP. -/
def irqInhibit (e : Engine) : Bool := decide (e.phase = .tx ∨ e.phase = .gap)

/-- The host's effective interrupt enable (R131): its own enable and-ed with the complement of `irq_inhibit`. The
host's enable is the host's (R42): an argument here, read and never written. -/
def effectiveEnable (hostEnable : Bool) (e : Engine) : Bool := hostEnable && !irqInhibit e

/-- `GUARD.ACQ` (R132): the step from `e` to `e'` opens the guard window. -/
def guardAcquired (e e' : Engine) : Bool := !irqInhibit e && irqInhibit e'

/-- `GUARD.REL` (R133): the step from `e` to `e'` closes the guard window. -/
def guardReleased (e e' : Engine) : Bool := irqInhibit e && !irqInhibit e'

end Sys2Proof.Machine
end

