-- ==== Sys2Proof/Machine/Flags.lean ====
section
/-! DEFINITION. The output ports (R41). The engine has no condition codes and no flags (R38): the outputs are its only
status, each a function of the registers alone. -/

namespace Sys2Proof.Machine

/-- The number of a phase in the register `PHASE` (R24). -/
def Phase.code : Phase → BitVec 3
  | .idle => 0
  | .tx => 1
  | .gap => 2
  | .arm => 3
  | .wait => 4

/-- The value of a level (R15). -/
def Level.bit : Level → BitVec 1
  | .low => 0
  | .high => 1

/-- The value of `PIN_DIR` (R22). -/
def PinDir.bit : PinDir → BitVec 1
  | .input => 0
  | .output => 1

/-- The five output ports in one cycle (R41). -/
structure Outputs where
  cmdReady : Bool
  busy : Bool
  pinOe : BitVec 1
  pinOut : BitVec 1
  irqInhibit : Bool
deriving DecidableEq, Repr

/-- `cmd_ready` (R41). -/
def cmdReady (e : Engine) : Bool := decide (e.phase = .idle)

/-- `busy` (R41). -/
def busy (e : Engine) : Bool := decide (e.phase ≠ .idle)

/-- The outputs of a cycle, from the registers at its start and nothing else (R41). -/
def outputs (e : Engine) : Outputs :=
  { cmdReady := cmdReady e, busy := busy e, pinOe := e.pinDir.bit, pinOut := e.pinLevel.bit,
    irqInhibit := irqInhibit e }

/-- The observation of a cycle (R14): `pin_oe`, `pin_out`, `irq_inhibit`, `busy`. -/
def observation (e : Engine) : BitVec 1 × BitVec 1 × Bool × Bool :=
  (e.pinDir.bit, e.pinLevel.bit, irqInhibit e, busy e)

/-- The level on the physical line (R41): `pin_out` while `pin_oe` is 1; while it is 0 the spec gives no level, and it
is a free value (U14, log 14). -/
def lineLevel (s : State) : Level :=
  match s.eng.pinDir with
  | .output => s.eng.pinLevel
  | .input => if Config.freeLineHigh s.tick then .high else .low

end Sys2Proof.Machine
end

