-- ==== Sys2Proof/Machine/Waveform.lean ====
section
/-! DEFINITION. The big-step forms: the waveform of a byte list (R100 to R106, R118) and of a frame (R149). The cycle
machine is measured against them (R204); no step uses them. -/

namespace Sys2Proof.Machine

/-- One run of a waveform: a level and the cycles it lasts (R118). -/
abbrev Run := Level × Nat

/-- `Sym(b)` (R118): `SYM1` (R104) or `SYM0` (R105), the HIGH segment first (R103). -/
def sym (c : Config) (bit : Bool) : List Run := [(.high, highCycles c bit), (.low, lowCycles c bit)]

/-- `WaveByte(v)` (R118): most significant bit first. -/
def waveByte (c : Config) (v : Byte) : List Run :=
  sym c (v.getLsbD 7) ++ sym c (v.getLsbD 6) ++ sym c (v.getLsbD 5) ++ sym c (v.getLsbD 4) ++
    sym c (v.getLsbD 3) ++ sym c (v.getLsbD 2) ++ sym c (v.getLsbD 1) ++ sym c (v.getLsbD 0)

/-- `Wave` (R118). -/
def wave (c : Config) : List Byte → List Run
  | [] => []
  | v :: rest => waveByte c v ++ wave c rest

/-- The bytes `TX(base, n)` reads, in ascending address order (R100); none for `n` = 0 (R102). -/
def txBytes (m : Memory) (base : RecAddr) : Nat → Except Fault (List Byte)
  | 0 => .ok []
  | n + 1 =>
    match Ops.memRead m base, txBytes m (base + 1) n with
    | .ok v, .ok vs => .ok (v :: vs)
    | .error f, _ => .error f
    | .ok _, .error f => .error f

/-- The runs `TX(base, n)` emits (R100). -/
def txWave (c : Config) (m : Memory) (base : RecAddr) (n : Nat) : Except Fault (List Run) :=
  match txBytes m base n with
  | .ok vs => .ok (wave c vs)
  | .error f => .error f

/-- The records of a frame, one for each LED, in order of transmission (R140, R149). -/
def frameRecords (total : Nat) (lead count red green blue : Byte) : List (List Byte) :=
  List.replicate lead.toNat [0x00, 0x00, 0x00] ++ List.replicate count.toNat [green, red, blue] ++
    List.replicate (trailCount total lead count) [0x00, 0x00, 0x00]

/-- `FrameBytes` (R149). -/
def frameBytes (total : Nat) (lead count red green blue : Byte) : List Byte :=
  (frameRecords total lead count red green blue).flatten

/-- The run between two LEDs (R113, R149): `GAP_CYC` LOW cycles, no run when it is 0. -/
def gapRun (c : Config) : List Run := if c.gapCyc = 0 then [] else [(.low, c.gapCyc)]

/-- The waveform of a list of LED records (R149): the gap after every LED but the last. -/
def frameWave (c : Config) : List (List Byte) → List Run
  | [] => []
  | [r] => wave c r
  | r :: s :: rest => wave c r ++ gapRun c ++ frameWave c (s :: rest)

/-- The cycles of a list of runs. -/
def runCycles : List Run → Nat
  | [] => 0
  | r :: rest => r.2 + runCycles rest

/-- The rising edges of a list of levels, from the level before it (R205). -/
def risingEdges : Level → List Level → Nat
  | _, [] => 0
  | before, now :: rest => (if before = .low ∧ now = .high then 1 else 0) + risingEdges now rest

/-- The level in each cycle of a list of runs. -/
def levels : List Run → List Level
  | [] => []
  | r :: rest => List.replicate r.2 r.1 ++ levels rest

/-- Every run length doubled (R111). -/
def doubled : List Run → List Run
  | [] => []
  | r :: rest => (r.1, 2 * r.2) :: doubled rest

/-- A run list that is a sequence of pulse pairs, HIGH then LOW (R103). -/
def isPulsePairs : List Run → Bool
  | [] => true
  | [_] => false
  | p :: q :: rest => decide (p.1 = .high ∧ q.1 = .low) && isPulsePairs rest

end Sys2Proof.Machine
end

