-- ==== Sys2Proof/Safety.lean ====
section
/-! DEFINITION. What counts as a safe run, in the terms claims use: the host's duties and the model outcomes of R236,
the obligations on the microsecond clock (R161), and the invariant of the reachable states (R44). -/

namespace Sys2Proof.Safety

open Sys2Proof.Machine

/-! ### The host's duties (R177, R236, R265 to R275) -/

/-- A breach of a duty of the host that R236 names. -/
inductive Breach where
  /-- A reserved word is accepted (R86). -/
  | reservedCommand (cmd : CmdWord)
  /-- RENDER is accepted while `PIN_DIR` = 0 (R178). -/
  | renderBeforeInit
  /-- A command is presented while `busy` = 1, and not held until `cmd_ready` (R236, R268). Log 7. -/
  | commandWhileBusy
deriving DecidableEq, Repr

/-- The host keeps the command of this cycle on the port in the next one, or is reset. -/
def commandHeld (s : State) : Bool :=
  let n := Ops.inputAt s 1
  n.rst || (n.cmdValid && decide (n.cmd = s.port.cmd))

/-- The breach of this cycle, if there is one (R236). -/
def breach (s : State) : Option Breach :=
  if s.port.rst then none
  else
    match Ops.accepted s with
    | some w =>
      match decode w with
      | .error _ => some (.reservedCommand w)
      | .ok (.render _ _ _ _ _) => if s.eng.pinDir = .input then some .renderBeforeInit else none
      | .ok _ => none
    | none => if busy s.eng && s.port.cmdValid && !commandHeld s then some .commandWhileBusy else none

/-- The step with the recommended outcomes of R236: it stops, by name, on a breach, and is the machine's step
otherwise. A claim about hosts that keep their duties is a claim about this step. -/
def guardedStep (s : State) : Host.Outcome State Fault Refusal :=
  match breach s with
  | some (.reservedCommand w) => .refused (.reservedCommand w)
  | some .renderBeforeInit => .fault .renderBeforeInit
  | some .commandWhileBusy => .refused .commandWhileBusy
  | none => step s

/-- `n` steps of the machine, stopping at the first that gives no next state: `Host.Core.run` of the machine, on its
own types. -/
def runFor (n : Nat) (s : State) : Host.Outcome State Fault Refusal := Host.Core.run Sys2Proof.core n s

/-- A run of `n` steps in which the host breaks no duty. -/
def DutifulRun (n : Nat) (s : State) : Prop := ∀ k, k < n → ∀ t, runFor k s = .next t → breach t = none

/-- R144, R177 (c): the request fits the strip. A breach is clamped (R232). -/
def requestFits (total : Nat) (lead count : Byte) : Bool := decide (lead.toNat + count.toNat ≤ total)

/-- R117, R177 (d), R265: the clock really runs at the declared frequency. No step reads it; it is the premise of a claim
in nanoseconds (`Config.nanoseconds`). -/
def clockMatches (c : Config) : Bool := decide (c.fActual = c.fClk)

/-- R136, R269: the longest time in cycles for which the host's interrupts can be deferred by one render call. -/
def deferralBound (s : State) (lead count : Byte) : Nat := windowCycles s.cfg (frameLeds s.eng.total lead count)

/-! ### The microsecond clock (R161) -/

/-- Obligation (a): from each cycle to the next the clock does not step backwards. -/
def ClockMonotone (s : State) : Prop :=
  ∀ k, elapsed s.cfg (Ops.inputAt s (k + 1)).usNow (Ops.inputAt s k).usNow < 2 ^ (s.cfg.usW - 1)

/-- The clock advances by at least `LATCH_US` from cycle `k` to a later cycle `m`. -/
def ClockAdvances (s : State) (k m : Nat) : Prop :=
  k < m ∧ latchDone s.cfg (Ops.inputAt s m).usNow (Ops.inputAt s k).usNow = true

/-- Obligation (b): from any cycle the clock eventually advances by at least `LATCH_US`. -/
def ClockLive (s : State) : Prop := ∀ k, ∃ m, ClockAdvances s k m

/-- `LatchClockStalled` (R236, R238) for the next `n` cycles: in phase WAIT, and no clock value of theirs meets the
condition of the wait. -/
def LatchClockStalled (n : Nat) (s : State) : Prop :=
  s.eng.phase = .wait ∧ ∀ m, m < n → elapsed s.cfg (Ops.inputAt s m).usNow s.eng.t0 < s.cfg.latchUs

/-- No reset in the next `n` cycles, this one included. -/
def NoReset (n : Nat) (s : State) : Prop := ∀ k, k < n → (Ops.inputAt s k).rst = false

/-! ### The invariant of the reachable states (R44) -/

/-- The line is to be HIGH in this cycle of the current bit (R196): `CYC < TH`. -/
def symbolHigh (c : Config) (e : Engine) : Bool :=
  match Ops.memRead e.mem e.ptr with
  | .ok byte => decide (e.cyc.toNat < highCycles c (bitOf byte e.bitIdx))
  | .error _ => false

/-- R44 (b), R196: `PIN_LEVEL` is HIGH exactly in phase TX with `CYC` less than the HIGH length of the bit. -/
def LevelInv (c : Config) (e : Engine) : Prop :=
  e.pinLevel = .high ↔ (e.phase = .tx ∧ symbolHigh c e = true)

/-- R44 (c): in TX, `CYC` < `TBIT`, `CNT` is 1, 2 or 3, and `PTR` is `base + (3 - CNT)` with `base` 0 or 3. -/
def TxInv (c : Config) (e : Engine) : Prop :=
  e.phase = .tx → e.cyc.toNat < c.sched.tbit ∧ 1 ≤ e.cnt.toNat ∧
    (e.ptr.toNat = 3 - e.cnt.toNat ∨ e.ptr.toNat = 3 + (3 - e.cnt.toNat))

/-- R44 (d): in GAP, 1 <= `GAPCNT` <= `GAP_CYC` and at least one counter is not zero. -/
def GapInv (c : Config) (e : Engine) : Prop :=
  e.phase = .gap → 1 ≤ e.gapCnt.toNat ∧ e.gapCnt.toNat ≤ c.gapCyc ∧ (e.nlead ≠ 0 ∨ e.ncol ≠ 0 ∨ e.ntrail ≠ 0)

/-- The registers held as numbers fit their widths (R21, R28, R35). -/
def WidthInv (c : Config) (e : Engine) : Prop :=
  e.total < 2 ^ c.totalW ∧ e.ntrail < 2 ^ c.totalW ∧ e.t0 < 2 ^ c.usW

/-- The registers of a reachable state: R44, the widths, and the canonical form of the record memory. -/
def EngineInv (c : Config) (e : Engine) : Prop :=
  Memory.wf e.mem = true ∧ LevelInv c e ∧ TxInv c e ∧ GapInv c e ∧ WidthInv c e

/-- The invariant of a state. -/
def StateInv (s : State) : Prop := EngineInv s.cfg s.eng

end Sys2Proof.Safety
end

