-- ==== Sys2Proof/Certificates/Slice0/Obligations.lean ====
section
/-! DEFINITION. The statements for the provers, from the numbered rules of the spec. Each docstring names the rule; the
file OBLIGATIONS.json lists them. -/

open Sys2Proof Sys2Proof.Machine Sys2Proof.Safety

/-! ### The command word (30_encoding.md) -/

/-- Every word has at most one meaning, and the encoder gives the one word of every command: decode and encode agree
in both directions, for all three commands and every operand value. -/
def Obligations.DecodeEncodeAgree : Prop :=
  ∀ (w : CmdWord) (i : Instr), decode w = .ok i ↔ w = encode i

/-- R82, R83, R84: which words are INIT, CONFIG and RENDER, with their fields and their match and mask. -/
def Obligations.CommandWordFields : Prop :=
  ∀ w : CmdWord,
    (decode w = .ok .init ↔ w = 0x010000000000) ∧
    (decode w = .ok .init ↔ w &&& 0xFFFFFFFFFFFF = 0x010000000000) ∧
    (∀ total, decode w = .ok (.config total) ↔
      w.extractLsb' 40 8 = 0x02 ∧ w.extractLsb' 16 24 = 0 ∧ w.extractLsb' 0 16 = total) ∧
    ((∃ total, decode w = .ok (.config total)) ↔ w &&& 0xFFFFFFFF0000 = 0x020000000000) ∧
    (∀ lead count red green blue, decode w = .ok (.render lead count red green blue) ↔
      w.extractLsb' 40 8 = 0x03 ∧ w.extractLsb' 32 8 = lead ∧ w.extractLsb' 24 8 = count ∧
        w.extractLsb' 16 8 = red ∧ w.extractLsb' 8 8 = green ∧ w.extractLsb' 0 8 = blue) ∧
    ((∃ lead count red green blue, decode w = .ok (.render lead count red green blue)) ↔
      w &&& 0xFF0000000000 = 0x030000000000)

/-- The reserved words (30_encoding.md section 3) are exactly these, and decoding refuses them; and a reserved word
presented in phase IDLE is accepted and changes no register, in one cycle, as R86 says of the hardware. That the machine's
step gives such a word this meaning, where R86 asks a model to refuse it, is the model's choice, log 6; the refusal is that
of `decode` and of the guarded step. -/
def Obligations.ReservedWordsAreRefusedAndChangeNothing : Prop :=
  (∀ w : CmdWord, (∃ e, decode w = .error e) ↔
    (w.extractLsb' 40 8 = 0x00 ∨ 4 ≤ (w.extractLsb' 40 8).toNat) ∨
    (w.extractLsb' 40 8 = 0x01 ∧ w.extractLsb' 0 40 ≠ 0) ∨
    (w.extractLsb' 40 8 = 0x02 ∧ w.extractLsb' 16 24 ≠ 0)) ∧
  (∀ (s : State) (e : Reserved), s.port.rst = false → s.port.cmdValid = true → s.eng.phase = .idle →
    decode s.port.cmd = .error e → ∃ t, step s = .next t ∧ t.eng = s.eng)

/-- Words written out from R82 to R86 (the decoding vectors of 95_test_vectors.md section 2.1) decode as the spec says. -/
def Obligations.SampleWordsDecode : Prop :=
  decode 0x010000000000 = .ok .init ∧
  decode 0x02000000000C = .ok (.config 12) ∧
  decode 0x02000000FFFF = .ok (.config 65535) ∧
  decode 0x030302FF0000 = .ok (.render 3 2 255 0 0) ∧
  decode 0x0300010F8001 = .ok (.render 0 1 0x0F 0x80 0x01) ∧
  decode 0x03FFFFFFFFFF = .ok (.render 255 255 255 255 255) ∧
  decode 0x010000000001 = .error .initOperand ∧
  decode 0x020000010000 = .error .configHighBits ∧
  decode 0x000000000000 = .error .opcode ∧
  decode 0xFF0000000000 = .error .opcode

/-- The operands of a textual command: one out of range is an error and not a truncation, and one in range is the
operand of the command assembled (30_encoding.md sections 2 and 4). -/
def Obligations.AssemblerNeverTruncates : Prop :=
  (∀ total i, (TextCommand.config total).assemble = .ok i ↔
    ∃ t : Total, i = .config t ∧ t.toNat = total) ∧
  (∀ lead count red green blue i, (TextCommand.render lead count red green blue).assemble = .ok i ↔
    ∃ l c r g b : Byte, i = .render l c r g b ∧ l.toNat = lead ∧ c.toNat = count ∧ r.toNat = red ∧
      g.toNat = green ∧ b.toNat = blue)

/-! ### The step and the handshake (45_cycle_machine.md section 1, 70_reset_and_hazards.md section 1) -/

/-- A step runs the decoded instruction: when the word on the command port, with `cmd_valid`, decodes to `i`, the step
is `exec i`, in every phase and with or without reset. Nothing stands around `exec`: it holds the whole cycle. -/
def Obligations.StepRunsDecodedInstruction : Prop :=
  ∀ (s : State) (i : Instr), s.port.cmdValid = true → decode s.port.cmd = .ok i → step s = exec i s

/-- R191: reset wins over everything: the next state has the registers of R43, whatever the state and the other inputs
are, and whatever command is presented; the command is not accepted. -/
def Obligations.ResetWinsOverEverything : Prop :=
  ∀ s : State, s.port.rst = true →
    (∃ t, step s = .next t ∧ t.eng = Engine.reset s.cfg ∧ t.cfg = s.cfg) ∧ Ops.accepted s = none ∧
    (∀ i, exec i s = step s)

/-- The value of every register after reset (10_state.md section 9), for every configuration. That `irq_inhibit` is 0 is
the spec's own inference there ("derived: from rule R41 and `PHASE` = IDLE"). -/
def Obligations.ResetRegisterValues : Prop :=
  ∀ c : Config,
    let e := (State.resetOf c).eng
    e.total = c.totalInit ∧ e.pinDir.bit = 0 ∧ e.pinLevel.bit = 0 ∧ e.phase.code = 0 ∧ e.phase = .idle ∧
    Ops.color e.mem 0 = 0 ∧ Ops.color e.mem 1 = 0 ∧ Ops.color e.mem 2 = 0 ∧
    e.nlead = 0 ∧ e.ncol = 0 ∧ e.ntrail = 0 ∧
    e.ptr = 0 ∧ e.cnt = 0 ∧ e.bitIdx = 0 ∧ e.cyc = 0 ∧ e.gapCnt = 0 ∧ e.t0 = 0 ∧
    irqInhibit e = false ∧ config8.totalInit = 0 ∧ config16.totalInit = 0

/-- Cycle 0 (70_reset_and_hazards.md section 1): the outputs right after reset, and a command presented in cycle 0 is
accepted in cycle 0. -/
def Obligations.CycleZeroIsReady : Prop :=
  ∀ (c : Config) (i : Instr),
    let s := State.resetOf c
    let s0 := { s with port := { s.port with cmdValid := true, cmd := encode i } }
    outputs s.eng = { cmdReady := true, busy := false, pinOe := 0, pinOut := 0, irqInhibit := false } ∧
    Ops.accepted s0 = some (encode i) ∧ step s0 = exec i s0

/-- R193: the IDLE arm. With no command no register changes; an accepted command is decoded and performed; in all
cases but RENDER, `PHASE` stays IDLE. -/
def Obligations.IdleArm : Prop :=
  ∀ s : State, s.port.rst = false → s.eng.phase = .idle →
    (s.port.cmdValid = false → ∃ t, step s = .next t ∧ t.eng = s.eng) ∧
    (s.port.cmdValid = true → ∀ i, decode s.port.cmd = .ok i → step s = exec i s ∧ ∃ t, step s = .next t ∧
      (i = .init → t.eng = { s.eng with pinDir := .output, pinLevel := .low }) ∧
      (∀ total, i = .config total → total.toNat < 2 ^ s.cfg.totalW → t.eng = { s.eng with total := total.toNat }) ∧
      (∀ lead count red green blue, i = .render lead count red green blue →
        t.eng = firstLed s.cfg (seqLoad lead count red green blue s.eng))) ∧
    (s.port.cmdValid = true → ∀ e, decode s.port.cmd = .error e → ∃ t, step s = .next t ∧ t.eng = s.eng) ∧
    (∀ t, step s = .next t →
      (∀ lead count red green blue, decode s.port.cmd ≠ .ok (.render lead count red green blue)) →
      t.eng.phase = .idle)

/-- R192: a command is accepted exactly when `rst` = 0, `cmd_valid` = 1 and `PHASE` = IDLE; while `PHASE` is not IDLE,
`cmd_valid` and `cmd` are ignored: the step is the same whatever they are, and whatever command the host presents. -/
def Obligations.CommandsAreHeldOffWhileBusy : Prop :=
  (∀ s w, Ops.accepted s = some w ↔
    s.port.rst = false ∧ s.port.cmdValid = true ∧ s.eng.phase = .idle ∧ s.port.cmd = w) ∧
  (∀ e, cmdReady e = true ↔ e.phase = .idle) ∧
  (∀ s : State, s.eng.phase ≠ .idle →
    (∀ v w, step { s with port := { s.port with cmdValid := v, cmd := w } } = step s) ∧
    (∀ i, exec i s = step s))

/-- The output ports (10_state.md section 7): functions of the registers alone; and a driven line has the level of
`pin_out`. -/
def Obligations.OutputPorts : Prop :=
  (∀ s : State, s.eng.pinDir = .output → lineLevel s = s.eng.pinLevel) ∧
  ∀ e : Engine,
    ((outputs e).cmdReady = true ↔ e.phase = .idle) ∧
    ((outputs e).busy = true ↔ e.phase ≠ .idle) ∧
    ((outputs e).pinOe = 1 ↔ e.pinDir = .output) ∧
    ((outputs e).pinOut = 1 ↔ e.pinLevel = .high) ∧
    ((outputs e).irqInhibit = true ↔ e.phase = .tx ∨ e.phase = .gap) ∧
    (∀ hostEnable, effectiveEnable hostEnable e = true ↔ hostEnable = true ∧ (outputs e).irqInhibit = false)

/-! ### The three commands (44_host_operations.md) -/

/-- INIT (44_host_operations.md section 1) completes in the cycle it is accepted: `PIN_DIR` is output and `PIN_LEVEL` is
LOW; no other register changes (R171), and a second INIT changes nothing (R172, the spec's own inference: "derived: from rule
R171"). -/
def Obligations.InitMakesThePinAnOutput : Prop :=
  ∀ s : State, s.port.rst = false → s.eng.phase = .idle →
    ∃ t, exec .init s = .next t ∧ t.eng = { s.eng with pinDir := .output, pinLevel := .low } ∧
      (outputs t.eng).pinOe = 1 ∧ (outputs t.eng).pinOut = 0 ∧ t.eng.phase = .idle ∧ lineLevel t = .low ∧
      (t.port.rst = false → ∃ u, exec .init t = .next u ∧ u.eng = t.eng)

/-- R173: CONFIG completes in the cycle it is accepted, for every operand: `TOTAL` is the operand, and no other register
changes. With the default `TOTAL_W` of 16, or a larger one, every operand fits; of one that does not fit a smaller register
it says only that nothing else changes (log 21). -/
def Obligations.ConfigSetsTheTotal : Prop :=
  ∀ (s : State) (total : Total), s.port.rst = false → s.eng.phase = .idle →
    ∃ t, exec (.config total) s = .next t ∧ t.eng = { s.eng with total := t.eng.total } ∧ t.eng.phase = .idle ∧
      (16 ≤ s.cfg.totalW ∨ total.toNat < 2 ^ s.cfg.totalW → t.eng = { s.eng with total := total.toNat })

/-- R194, R195: acceptance of RENDER, register by register: the first LED of the first run that is not empty starts in
the next cycle, and the empty frame goes to ARM without writing `PIN_LEVEL`. -/
def Obligations.RenderAcceptance : Prop :=
  ∀ (s : State) (lead count red green blue : Byte), s.port.rst = false → s.eng.phase = .idle →
    let nt := satSub s.eng.total (lead.toNat + count.toNat)
    ∃ t, exec (.render lead count red green blue) s = .next t ∧
      Ops.color t.eng.mem 0 = green ∧ Ops.color t.eng.mem 1 = red ∧ Ops.color t.eng.mem 2 = blue ∧
      (lead ≠ 0 → t.eng = { s.eng with
        mem := t.eng.mem, nlead := lead - 1, ncol := count, ntrail := nt,
        ptr := 0, cnt := 3, bitIdx := 7, cyc := 0, phase := .tx, pinLevel := .high }) ∧
      (lead = 0 → count ≠ 0 → t.eng = { s.eng with
        mem := t.eng.mem, nlead := 0, ncol := count - 1, ntrail := nt,
        ptr := 3, cnt := 3, bitIdx := 7, cyc := 0, phase := .tx, pinLevel := .high }) ∧
      (lead = 0 → count = 0 → nt ≠ 0 → t.eng = { s.eng with
        mem := t.eng.mem, nlead := 0, ncol := 0, ntrail := nt - 1,
        ptr := 0, cnt := 3, bitIdx := 7, cyc := 0, phase := .tx, pinLevel := .high }) ∧
      (lead = 0 → count = 0 → nt = 0 → t.eng = { s.eng with
        mem := t.eng.mem, nlead := 0, ncol := 0, ntrail := 0, phase := .arm })

/-- R142: the host's red, green, blue are stored in wire order, at record-memory addresses 3, 4 and 5; and nothing but
reset changes the colour record until the next RENDER is accepted. -/
def Obligations.RenderStoresWireOrder : Prop :=
  (∀ s t : State, s.port.rst = false → step s = .next t → t.eng.mem ≠ s.eng.mem →
    ∃ w lead count red green blue, Ops.accepted s = some w ∧
      decode w = .ok (.render lead count red green blue)) ∧
  ∀ (s t : State) (lead count red green blue : Byte), s.port.rst = false → s.eng.phase = .idle →
    exec (.render lead count red green blue) s = .next t →
    Ops.color t.eng.mem 0 = green ∧ Ops.color t.eng.mem 1 = red ∧ Ops.color t.eng.mem 2 = blue ∧
    Ops.memRead t.eng.mem 3 = .ok green ∧ Ops.memRead t.eng.mem 4 = .ok red ∧ Ops.memRead t.eng.mem 5 = .ok blue

/-- Frame of an accepted RENDER (45_cycle_machine.md rules of section 2): `TOTAL`, `PIN_DIR`, `T0` and `GAPCNT` are
unchanged, and every byte of the record memory outside the three stored bytes reads as before; for the empty frame the
cursor and the pin level are unchanged too. -/
def Obligations.RenderFrame : Prop :=
  ∀ (s t : State) (lead count red green blue : Byte), s.port.rst = false → s.eng.phase = .idle →
    exec (.render lead count red green blue) s = .next t →
    t.eng.total = s.eng.total ∧ t.eng.pinDir = s.eng.pinDir ∧ t.eng.t0 = s.eng.t0 ∧
    t.eng.gapCnt = s.eng.gapCnt ∧ t.cfg = s.cfg ∧
    (∀ a : RecAddr, (∀ i : Fin 3, a.toNat ≠ Ops.colorAddr i) →
      Ops.memRead t.eng.mem a = Ops.memRead s.eng.mem a) ∧
    (frameLeds s.eng.total lead count = 0 →
      t.eng.ptr = s.eng.ptr ∧ t.eng.cnt = s.eng.cnt ∧ t.eng.bitIdx = s.eng.bitIdx ∧ t.eng.cyc = s.eng.cyc ∧
      t.eng.pinLevel = s.eng.pinLevel)

/-- Frame of INIT and CONFIG, which store nothing: an accepted INIT changes no register but `PIN_DIR` and `PIN_LEVEL`,
an accepted CONFIG none but `TOTAL`, and every byte of the record memory reads as before. -/
def Obligations.InitAndConfigFrame : Prop :=
  ∀ (s t : State) (i : Instr), s.port.rst = false → s.eng.phase = .idle →
    (∀ lead count red green blue, i ≠ .render lead count red green blue) → exec i s = .next t →
    t.eng.phase = s.eng.phase ∧ t.eng.nlead = s.eng.nlead ∧ t.eng.ncol = s.eng.ncol ∧
    t.eng.ntrail = s.eng.ntrail ∧ t.eng.ptr = s.eng.ptr ∧ t.eng.cnt = s.eng.cnt ∧ t.eng.bitIdx = s.eng.bitIdx ∧
    t.eng.cyc = s.eng.cyc ∧ t.eng.gapCnt = s.eng.gapCnt ∧ t.eng.t0 = s.eng.t0 ∧ t.cfg = s.cfg ∧
    (∀ a, Ops.memRead t.eng.mem a = Ops.memRead s.eng.mem a) ∧
    (i = .init → t.eng.total = s.eng.total) ∧
    (∀ total, i = .config total → t.eng.pinDir = s.eng.pinDir ∧ t.eng.pinLevel = s.eng.pinLevel)

/-- RENDER before INIT (44_host_operations.md section 3): the engine does not check. Along any run, a machine whose
`PIN_DIR` differs goes through the same states but for `PIN_DIR`: the same levels, the same phases. That the machine
goes on where 60_exceptions.md recommends a fault is log 5. -/
def Obligations.PinDirectionDoesNotSteerTheEngine : Prop :=
  ∀ (n : Nat) (s t : State) (d : PinDir),
    runFor n s = .next t →
    ∃ d', runFor n { s with eng := { s.eng with pinDir := d } } =
      .next { t with eng := { t.eng with pinDir := d' } }

/-! ### The Frame Sequencer (42_frame_sequencer.md) -/

/-- R143: the trailing count is the saturating subtraction on integers; the sum does not wrap at 256 and the trailing
count is at most `TOTAL`; and in registers of the spec's widths the 17-bit formula of R143 computes it. -/
def Obligations.TrailingCountSaturates : Prop :=
  (∀ (total : Nat) (lead count : Byte),
    trailCount total lead count =
      (if lead.toNat + count.toNat ≤ total then total - (lead.toNat + count.toNat) else 0) ∧
    trailCount total lead count ≤ total) ∧
  (∀ (total : BitVec 16) (lead count : Byte),
    (runSum lead count).toNat = lead.toNat + count.toNat ∧
    (trailRegister total lead count).toNat = trailCount total.toNat lead count)

/-- The length of a frame (42_frame_sequencer.md sections 2 and 4): `max(TOTAL, lead + count)` LEDs, none of them cut
off when the request does not fit, three bytes each; and a count that fits in the width of `TOTAL`. -/
def Obligations.FrameLengthIsTheMaximum : Prop :=
  ∀ (c : Config) (total : Nat) (lead count red green blue : Byte),
    frameLeds total lead count = max total (lead.toNat + count.toNat) ∧
    (total < 2 ^ c.totalW → frameLeds total lead count < 2 ^ c.totalW) ∧
    (frameRecords total lead count red green blue).length = frameLeds total lead count ∧
    (frameBytes total lead count red green blue).length = c.bytesPerLed * frameLeds total lead count ∧
    (requestFits total lead count = true ↔ frameLeds total lead count = total) ∧
    (requestFits total lead count = false → frameLeds total lead count = lead.toNat + count.toNat)

/-- R146: the three runs are consumed strictly in order, and each counter is decremented only when it is not zero;
`SEQ.NEXT` changes nothing else. -/
def Obligations.SequencerTakesTheRunsInOrder : Prop :=
  ∀ e : Engine,
    (e.nlead ≠ 0 → seqNext e = ({ e with nlead := e.nlead - 1 }, some 0) ∧
      (e.nlead - 1).toNat + 1 = e.nlead.toNat) ∧
    (e.nlead = 0 → e.ncol ≠ 0 → seqNext e = ({ e with ncol := e.ncol - 1 }, some 3) ∧
      (e.ncol - 1).toNat + 1 = e.ncol.toNat) ∧
    (e.nlead = 0 → e.ncol = 0 → e.ntrail ≠ 0 → seqNext e = ({ e with ntrail := e.ntrail - 1 }, some 0) ∧
      (e.ntrail - 1) + 1 = e.ntrail) ∧
    (e.nlead = 0 → e.ncol = 0 → e.ntrail = 0 → seqNext e = (e, none))

/-- R145: what `SEQ.LOAD` assigns. -/
def Obligations.SequencerLoad : Prop :=
  ∀ (lead count red green blue : Byte) (e : Engine),
    let e' := seqLoad lead count red green blue e
    Ops.color e'.mem 0 = green ∧ Ops.color e'.mem 1 = red ∧ Ops.color e'.mem 2 = blue ∧
    e'.nlead = lead ∧ e'.ncol = count ∧ e'.ntrail = satSub e.total (lead.toNat + count.toNat) ∧
    e' = { e with mem := e'.mem, nlead := lead, ncol := count, ntrail := e'.ntrail }

/-! ### The record memory (20_memory.md) -/

/-- R62: a read of the record memory at every address: the zero record, the colour record, and the fault at 6 and 7; and
phase TX reads the byte at `PTR` in every cycle and uses one bit of it. -/
def Obligations.RecordMemoryReads : Prop :=
  (∀ s : State, s.port.rst = false → s.eng.phase = .tx →
    step s = match Ops.memRead s.eng.mem s.eng.ptr with
      | .ok byte => .next (Ops.advance s (txBit s.cfg (byte.getLsbD s.eng.bitIdx.toNat) s.eng))
      | .error f => .fault f) ∧
  ∀ m : Memory,
    (∀ a : RecAddr, a.toNat < 3 → Ops.memRead m a = .ok 0x00) ∧
    (∀ i : Fin 3, Ops.memRead m (BitVec.ofNat 3 (3 + i.val)) = .ok (Ops.color m i)) ∧
    (∀ a : RecAddr, 6 ≤ a.toNat → Ops.memRead m a = .error (.unmappedRecordRead a))

/-- A write to a byte of the colour record is read back, and leaves every other byte of the record memory as it was
(20_memory.md section 2), in every memory, canonical or not. -/
def Obligations.RecordWriteThenRead : Prop :=
  ∀ (m : Memory) (i : Fin 3) (v : Byte),
    Ops.color (Ops.memWrite m i v) i = v ∧
    (∀ a : RecAddr, a.toNat ≠ Ops.colorAddr i → Ops.memRead (Ops.memWrite m i v) a = Ops.memRead m a)

/-- Every step keeps the record memory in its canonical form, from every state that has it. -/
def Obligations.StepKeepsMemoryCanonical : Prop :=
  ∀ s t : State, Memory.wf s.eng.mem = true → step s = .next t → Memory.wf t.eng.mem = true

/-! ### The phases, cycle by cycle (45_cycle_machine.md section 2) -/

/-- R196: a cycle inside a bit. -/
def Obligations.TxInsideABit : Prop :=
  ∀ (s : State) (byte : Byte), s.port.rst = false → s.eng.phase = .tx →
    Ops.memRead s.eng.mem s.eng.ptr = .ok byte → s.eng.cyc.toNat + 1 < s.cfg.sched.tbit →
    let th := if byte.getLsbD s.eng.bitIdx.toNat then s.cfg.sched.t1h else s.cfg.sched.t0h
    ∃ t, step s = .next t ∧ t.eng = { s.eng with
      cyc := s.eng.cyc + 1
      pinLevel := if s.eng.cyc.toNat + 1 < th then .high else .low } ∧
      t.eng.cyc.toNat = s.eng.cyc.toNat + 1

/-- R197: the last cycle of a bit that is not the last of its byte. -/
def Obligations.TxNextBitFollows : Prop :=
  ∀ (s : State) (byte : Byte), s.port.rst = false → s.eng.phase = .tx →
    Ops.memRead s.eng.mem s.eng.ptr = .ok byte → s.eng.cyc.toNat + 1 = s.cfg.sched.tbit → s.eng.bitIdx ≠ 0 →
    ∃ t, step s = .next t ∧
      t.eng = { s.eng with cyc := 0, bitIdx := s.eng.bitIdx - 1, pinLevel := .high }

/-- R198: the last cycle of the last bit of a byte that is not the last of its LED; no cycle is spent on the boundary. -/
def Obligations.TxNextByteFollows : Prop :=
  ∀ (s : State) (byte : Byte), s.port.rst = false → s.eng.phase = .tx →
    Ops.memRead s.eng.mem s.eng.ptr = .ok byte → s.eng.cyc.toNat + 1 = s.cfg.sched.tbit → s.eng.bitIdx = 0 →
    1 < s.eng.cnt.toNat →
    ∃ t, step s = .next t ∧ t.eng = { s.eng with
      cyc := 0, bitIdx := 7, ptr := s.eng.ptr + 1, cnt := s.eng.cnt - 1, pinLevel := .high }

/-- R199: the last cycle of an LED: the frame is over, or the next LED starts at once, or the gap comes first. -/
def Obligations.TxEndOfAnLed : Prop :=
  ∀ (s : State) (byte : Byte), s.port.rst = false → s.eng.phase = .tx →
    Ops.memRead s.eng.mem s.eng.ptr = .ok byte → s.eng.cyc.toNat + 1 = s.cfg.sched.tbit → s.eng.bitIdx = 0 →
    s.eng.cnt = 1 →
    ∃ t, step s = .next t ∧
      (s.eng.nlead = 0 → s.eng.ncol = 0 → s.eng.ntrail = 0 →
        t.eng = { s.eng with cnt := 0, cyc := 0, phase := .arm, pinLevel := .low }) ∧
      (s.cfg.gapCyc = 0 → s.eng.nlead ≠ 0 → t.eng = { s.eng with
        nlead := s.eng.nlead - 1, ptr := 0, cnt := 3, bitIdx := 7, cyc := 0, phase := .tx, pinLevel := .high }) ∧
      (s.cfg.gapCyc = 0 → s.eng.nlead = 0 → s.eng.ncol ≠ 0 → t.eng = { s.eng with
        ncol := s.eng.ncol - 1, ptr := 3, cnt := 3, bitIdx := 7, cyc := 0, phase := .tx, pinLevel := .high }) ∧
      (s.cfg.gapCyc = 0 → s.eng.nlead = 0 → s.eng.ncol = 0 → s.eng.ntrail ≠ 0 → t.eng = { s.eng with
        ntrail := s.eng.ntrail - 1, ptr := 0, cnt := 3, bitIdx := 7, cyc := 0, phase := .tx, pinLevel := .high }) ∧
      (s.cfg.gapCyc ≠ 0 → ¬ (s.eng.nlead = 0 ∧ s.eng.ncol = 0 ∧ s.eng.ntrail = 0) →
        t.eng = { s.eng with cnt := 0, cyc := 0, phase := .gap, gapCnt := BitVec.ofNat 8 s.cfg.gapCyc,
                             pinLevel := .low } ∧
        t.eng.gapCnt.toNat = s.cfg.gapCyc)

/-- The GAP arm (45_cycle_machine.md section 2): a cycle of the gap, where `SEQ.NEXT` finds an LED, as in every state a
run reaches; the gap lasts as many cycles as `GAPCNT` says, with the line as it was and inside the guard window, and then
the next LED starts; and from the state in which it is entered, `GAPCNT` = `GAP_CYC` with the line LOW, it is exactly
`GAP_CYC` cycles, all LOW. -/
def Obligations.GapCycle : Prop :=
  ∀ s : State, s.eng.phase = .gap → ¬ (s.eng.nlead = 0 ∧ s.eng.ncol = 0 ∧ s.eng.ntrail = 0) →
    (s.port.rst = false → ∃ t, step s = .next t ∧
      (1 < s.eng.gapCnt.toNat → t.eng = { s.eng with gapCnt := s.eng.gapCnt - 1 }) ∧
      (s.eng.gapCnt.toNat ≤ 1 → s.eng.nlead ≠ 0 → t.eng = { s.eng with
        gapCnt := 0, nlead := s.eng.nlead - 1, ptr := 0, cnt := 3, bitIdx := 7, cyc := 0, phase := .tx, pinLevel := .high }) ∧
      (s.eng.gapCnt.toNat ≤ 1 → s.eng.nlead = 0 → s.eng.ncol ≠ 0 → t.eng = { s.eng with
        gapCnt := 0, ncol := s.eng.ncol - 1, ptr := 3, cnt := 3, bitIdx := 7, cyc := 0, phase := .tx, pinLevel := .high }) ∧
      (s.eng.gapCnt.toNat ≤ 1 → s.eng.nlead = 0 → s.eng.ncol = 0 → t.eng = { s.eng with
        gapCnt := 0, ntrail := s.eng.ntrail - 1, ptr := 0, cnt := 3, bitIdx := 7, cyc := 0, phase := .tx, pinLevel := .high })) ∧
    (1 ≤ s.eng.gapCnt.toNat → NoReset s.eng.gapCnt.toNat s →
      (∀ k, k < s.eng.gapCnt.toNat → ∃ t, runFor k s = .next t ∧
        t.eng = { s.eng with gapCnt := BitVec.ofNat 8 (s.eng.gapCnt.toNat - k) } ∧ irqInhibit t.eng = true) ∧
      (∃ t, runFor s.eng.gapCnt.toNat s = .next t ∧ t.eng.phase = .tx ∧ t.eng.pinLevel = .high)) ∧
    (s.eng.gapCnt.toNat = s.cfg.gapCyc → s.eng.pinLevel = .low → 1 ≤ s.cfg.gapCyc → NoReset s.cfg.gapCyc s →
      (∀ k, k < s.cfg.gapCyc → ∃ t, runFor k s = .next t ∧ t.eng.phase = .gap ∧ t.eng.pinLevel = .low ∧
        irqInhibit t.eng = true) ∧
      (∃ t, runFor s.cfg.gapCyc s = .next t ∧ t.eng.phase = .tx ∧ t.eng.pinLevel = .high))

/-- Phase ARM (45_cycle_machine.md section 2) takes one cycle and records the timestamp: the value on the port `us_now`,
read modulo 2^`US_W`. At `US_W` = 32, the width of the default configurations, this is R201; the reading at other widths is
the model's choice (log 15). -/
def Obligations.ArmRecordsTheTimestamp : Prop :=
  ∀ s : State, s.port.rst = false → s.eng.phase = .arm →
    ∃ t, step s = .next t ∧ t.eng = { s.eng with t0 := s.port.usNow % 2 ^ s.cfg.usW, phase := .wait }

/-- Phase WAIT (45_cycle_machine.md section 2) ends exactly in the cycle whose clock value has advanced by `LATCH_US`
since `T0`, as integers modulo 2^`US_W`. At `US_W` = 32, the width of the default configurations, this is R202 with its
2^32; reading 2^32 as 2^`US_W` at other widths is the model's choice (log 15). -/
def Obligations.WaitComparesModulo : Prop :=
  (∀ s : State, s.port.rst = false → s.eng.phase = .wait →
    ∃ t, step s = .next t ∧
      ((s.cfg.latchUs : Int) ≤ ((s.port.usNow : Int) - (s.eng.t0 : Int)) % (2 ^ s.cfg.usW : Int) →
        t.eng = { s.eng with phase := .idle }) ∧
      (((s.port.usNow : Int) - (s.eng.t0 : Int)) % (2 ^ s.cfg.usW : Int) < (s.cfg.latchUs : Int) → t.eng = s.eng)) ∧
  config8.usW = 32 ∧ config16.usW = 32

/-- The machine's step stops in one case only: phase TX with the byte cursor at an address that does not exist; and it
never refuses (20_memory.md section 2, 60_exceptions.md section 1). That it faults there in every TX cycle is log 8; that it
goes on at a RENDER before INIT and at a reserved word, where 60_exceptions.md recommends that a model stop, is the model's
choice, logs 5 and 6 (the guarded step stops there). -/
def Obligations.StepStopsOnlyOnAnUnmappedRead : Prop :=
  ∀ s : State,
    (∀ f, step s = .fault f ↔
      s.port.rst = false ∧ s.eng.phase = .tx ∧ 6 ≤ s.eng.ptr.toNat ∧ f = .unmappedRecordRead s.eng.ptr) ∧
    (∀ r, step s ≠ .refused r)

/-! ### Invariants and whole-machine rules (10_state.md section 10, 45_cycle_machine.md section 2) -/

/-- The invariant of the reachable states (10_state.md section 10) is kept by every step, from every state that meets
it, with any inputs, reset among them. -/
def Obligations.StepKeepsInvariant : Prop := ∀ s t : State, StateInv s → step s = .next t → StateInv t

/-- The invariant holds right after reset, for every configuration. -/
def Obligations.ResetMeetsInvariant : Prop := (∀ c, StateInv (State.resetOf c)) ∧ StateInv State.reset

/-- From every state that meets the invariant the machine takes a step: no fault and no refusal (the step is total,
45_cycle_machine.md section 1). -/
def Obligations.InvariantStatesNeverStop : Prop := ∀ s : State, StateInv s → ∃ t, step s = .next t

/-- The build-time configuration never changes, along any run (00_scope.md section 4), and a step is one cycle
(45_cycle_machine.md section 1). That State carries the configuration is the model's choice, log 4; that it counts the
cycles in `tick` is the model's own field, log 1. -/
def Obligations.ConfigurationIsFixed : Prop :=
  ∀ (n : Nat) (s t : State), runFor n s = .next t → t.cfg = s.cfg ∧ t.tick = s.tick + n

/-- A step changes a register only where the spec assigns it (10_state.md section 11, every row of its table;
45_cycle_machine.md section 2), reset apart: `TOTAL` by an accepted CONFIG; `PIN_DIR` by an accepted INIT; `PIN_LEVEL` by an
accepted INIT or RENDER and in phases TX and GAP; `PHASE` by an accepted RENDER and in the phases that are not IDLE; the
record memory by an accepted RENDER; the run counters by an accepted RENDER and in the step that starts an LED; the position
registers by the step that starts an LED and in phase TX; `GAPCNT` in phase GAP and in the TX step that enters it; `T0` in
phase ARM, to the clock modulo 2^`US_W` (log 15: the model's choice at other widths than 32). -/
def Obligations.RegistersChangeOnlyWhereAssigned : Prop :=
  ∀ s t : State, s.port.rst = false → step s = .next t →
    let render := ∃ w lead count red green blue, Ops.accepted s = some w ∧
      decode w = .ok (.render lead count red green blue)
    let init := ∃ w, Ops.accepted s = some w ∧ decode w = .ok .init
    let startsLed := (s.eng.phase = .tx ∨ s.eng.phase = .gap) ∧ t.eng.phase = .tx ∧ (t.eng.ptr = 0 ∨ t.eng.ptr = 3) ∧
      t.eng.cnt = 3 ∧ t.eng.bitIdx = 7 ∧ t.eng.cyc = 0 ∧ t.eng.pinLevel = .high
    (t.eng.total ≠ s.eng.total → ∃ w total, Ops.accepted s = some w ∧ decode w = .ok (.config total) ∧
      (total.toNat < 2 ^ s.cfg.totalW → t.eng.total = total.toNat)) ∧
    (t.eng.pinDir ≠ s.eng.pinDir → init ∧ t.eng.pinDir = .output) ∧
    (t.eng.pinLevel ≠ s.eng.pinLevel →
      (init ∧ t.eng.pinLevel = .low) ∨ (render ∧ t.eng.pinLevel = .high) ∨ s.eng.phase = .tx ∨ s.eng.phase = .gap) ∧
    (t.eng.phase ≠ s.eng.phase → render ∨ s.eng.phase ≠ .idle) ∧
    (t.eng.mem ≠ s.eng.mem → render) ∧
    (t.eng.nlead ≠ s.eng.nlead ∨ t.eng.ncol ≠ s.eng.ncol ∨ t.eng.ntrail ≠ s.eng.ntrail → render ∨ startsLed) ∧
    (t.eng.ptr ≠ s.eng.ptr ∨ t.eng.cnt ≠ s.eng.cnt ∨ t.eng.bitIdx ≠ s.eng.bitIdx ∨ t.eng.cyc ≠ s.eng.cyc →
      render ∨ startsLed ∨ s.eng.phase = .tx) ∧
    (t.eng.gapCnt ≠ s.eng.gapCnt → s.eng.phase = .gap ∨ (s.eng.phase = .tx ∧ t.eng.phase = .gap)) ∧
    (t.eng.t0 ≠ s.eng.t0 → s.eng.phase = .arm ∧ t.eng.t0 = s.port.usNow % 2 ^ s.cfg.usW)

/-- R115, the frame of phase TX: during transmission `TOTAL`, `PIN_DIR`, the record memory and
`T0` do not change, and the counters and `GAPCNT` change only at the last cycle of an LED. -/
def Obligations.TransmissionFrame : Prop :=
  ∀ s t : State, s.port.rst = false → s.eng.phase = .tx → step s = .next t →
    t.eng.total = s.eng.total ∧ t.eng.pinDir = s.eng.pinDir ∧ t.eng.mem = s.eng.mem ∧ t.eng.t0 = s.eng.t0 ∧
    (s.eng.cyc.toNat + 1 < s.cfg.sched.tbit ∨ s.eng.bitIdx ≠ 0 ∨ 1 < s.eng.cnt.toNat →
      t.eng.nlead = s.eng.nlead ∧ t.eng.ncol = s.eng.ncol ∧ t.eng.ntrail = s.eng.ntrail ∧
      t.eng.gapCnt = s.eng.gapCnt ∧ t.eng.phase = .tx)

/-- `PIN_DIR` never goes from output to input except by reset, along any run (10_state.md section 10 (e)). -/
def Obligations.PinStaysAnOutput : Prop :=
  ∀ (n : Nat) (s t : State), NoReset n s → s.eng.pinDir = .output →
    runFor n s = .next t → t.eng.pinDir = .output

/-- The clock is read only in phases ARM and WAIT (45_cycle_machine.md section 2): in the other phases the step is the
same whatever `us_now` is, so nothing outside stretches a transmission. -/
def Obligations.ClockReadOnlyByTheLatchTimer : Prop :=
  ∀ (s : State) (us : Nat), s.eng.phase ≠ .arm → s.eng.phase ≠ .wait →
    step { s with port := { s.port with usNow := us } } = step s

/-- The guard window (41_critical_section_guard.md): it opens only at an accepted RENDER, in the step into the first
HIGH cycle of the first pulse, and closes only after the last LOW cycle of the frame, into phase ARM, or at reset; and
the line is never HIGH outside it. -/
def Obligations.GuardWindowBracketsTheFrame : Prop :=
  ∀ s t : State, StateInv s → step s = .next t →
    (guardAcquired s.eng t.eng = true → s.eng.phase = .idle ∧ t.eng.phase = .tx ∧ t.eng.pinLevel = .high ∧
      ∃ w lead count red green blue, Ops.accepted s = some w ∧
        decode w = .ok (.render lead count red green blue)) ∧
    (guardReleased s.eng t.eng = true → s.port.rst = true ∨
      (s.eng.phase = .tx ∧ s.eng.cyc.toNat + 1 = s.cfg.sched.tbit ∧ s.eng.bitIdx = 0 ∧ s.eng.cnt = 1 ∧
        s.eng.nlead = 0 ∧ s.eng.ncol = 0 ∧ s.eng.ntrail = 0 ∧ s.eng.pinLevel = .low ∧ t.eng.phase = .arm)) ∧
    (s.eng.pinLevel = .high → irqInhibit s.eng = true)

/-! ### The waveform (40_timing_engine.md, 42_frame_sequencer.md, 45_cycle_machine.md section 4) -/

/-- R104, R105: a symbol on the machine. From the first cycle of a bit, the line is HIGH for `T1H` or `T0H` cycles and
LOW for the rest of the `TBIT` cycles, that is `T1L` or `T0L` cycles; and no schedule breaks the inequalities. -/
def Obligations.SymbolOnTheLine : Prop :=
  (∀ (s : State) (byte : Byte), s.eng.phase = .tx → s.eng.cyc = 0 → s.eng.pinLevel = .high →
    Ops.memRead s.eng.mem s.eng.ptr = .ok byte → NoReset (s.cfg.sched.tbit - 1) s →
    ∀ j, j < s.cfg.sched.tbit → ∃ t, runFor j s = .next t ∧
      t.eng.phase = .tx ∧ t.eng.ptr = s.eng.ptr ∧ t.eng.bitIdx = s.eng.bitIdx ∧ t.eng.cyc.toNat = j ∧
      t.eng.pinLevel =
        if j < (if byte.getLsbD s.eng.bitIdx.toNat then s.cfg.sched.t1h else s.cfg.sched.t0h)
        then .high else .low) ∧
  (∀ c : Config,
    c.sched.t1l < c.sched.t1h ∧ 1 ≤ c.sched.t1l ∧ 1 ≤ c.sched.t0h ∧ c.sched.t0h < c.sched.t0l ∧
    c.sched.t1h + c.sched.t1l = c.sched.tbit ∧ c.sched.t0h + c.sched.t0l = c.sched.tbit)

/-- The frame on the line (45_cycle_machine.md section 4): from an accepted RENDER of `L` LEDs with no reset, the pin
level over the next `W` cycles is the waveform of the frame, cycle for cycle, all of them in phases TX and GAP and inside
the guard window; the cycle after them is phase ARM outside the window, with the line LOW if anything was sent, the
session registers as 10_state.md section 4 says and `TOTAL` and `PIN_DIR` as they were; and the cycle after that is
phase WAIT with `T0` the clock value of the ARM cycle, modulo 2^`US_W` (log 15: the model's choice at other widths than
32). -/
def Obligations.FrameWaveformOnTheLine : Prop :=
  ∀ (s : State) (lead count red green blue : Byte),
    let runs := frameWave s.cfg (frameRecords s.eng.total lead count red green blue)
    let leds := frameLeds s.eng.total lead count
    let w := windowCycles s.cfg leds
    s.eng.phase = .idle → s.port.cmdValid = true →
    decode s.port.cmd = .ok (.render lead count red green blue) → NoReset (w + 2) s →
    (levels runs).length = w ∧
    (∀ k level, (levels runs)[k]? = some level → ∃ t, runFor (k + 1) s = .next t ∧
      t.eng.pinLevel = level ∧ (t.eng.phase = .tx ∨ t.eng.phase = .gap) ∧ irqInhibit t.eng = true) ∧
    (∃ t, runFor (w + 1) s = .next t ∧ t.eng.phase = .arm ∧ irqInhibit t.eng = false ∧
      t.eng.total = s.eng.total ∧ t.eng.pinDir = s.eng.pinDir ∧
      t.eng.nlead = 0 ∧ t.eng.ncol = 0 ∧ t.eng.ntrail = 0 ∧
      Ops.color t.eng.mem 0 = green ∧ Ops.color t.eng.mem 1 = red ∧ Ops.color t.eng.mem 2 = blue ∧
      (leds = 0 → t.eng.pinLevel = s.eng.pinLevel) ∧
      (leds ≠ 0 → t.eng.pinLevel = .low ∧ t.eng.cnt = 0 ∧ t.eng.bitIdx = 0 ∧ t.eng.cyc = 0 ∧
        t.eng.ptr = if trailCount s.eng.total lead count = 0 ∧ count ≠ 0 then 5 else 2)) ∧
    (∃ t, runFor (w + 2) s = .next t ∧ t.eng.phase = .wait ∧
      t.eng.t0 = (Ops.inputAt s (w + 1)).usNow % 2 ^ s.cfg.usW)

/-- The shape of a waveform (40_timing_engine.md sections 1, 4 and 6): 8 pulse pairs a byte, HIGH then LOW, in
`8 * n * TBIT` cycles. -/
def Obligations.WaveformShape : Prop :=
  ∀ (c : Config) (vs : List Byte),
    (wave c vs).length = 16 * vs.length ∧ isPulsePairs (wave c vs) = true ∧
    runCycles (wave c vs) = 8 * vs.length * c.sched.tbit ∧
    (∀ j, j < 8 * vs.length →
      (wave c vs)[2 * j]? = some (.high, highCycles c ((vs.getD (j / 8) 0).getLsbD (7 - j % 8))) ∧
      (wave c vs)[2 * j + 1]? = some (.low, lowCycles c ((vs.getD (j / 8) 0).getLsbD (7 - j % 8))))

/-- An invocation of the Timing Engine (40_timing_engine.md section 1): `TX(base, n)` within the record memory emits the
waveform of its `n` bytes in ascending address order, and nothing for no bytes; the records of the two kinds of LED are
three zero bytes and green, red, blue. -/
def Obligations.TransmissionReadsBytesInOrder : Prop :=
  ∀ (c : Config) (m : Memory) (base : RecAddr),
    txWave c m base 0 = .ok [] ∧
    (∀ n, base.toNat + n ≤ 6 → ∃ vs, txWave c m base n = .ok (wave c vs) ∧ vs.length = n ∧
      ∀ i v, vs[i]? = some v → Ops.memRead m (base + BitVec.ofNat 3 i) = .ok v) ∧
    txWave c m zeroBase 3 = .ok (wave c [0x00, 0x00, 0x00]) ∧
    txWave c m colorBase 3 = .ok (wave c [Ops.color m 0, Ops.color m 1, Ops.color m 2])

/-- The pulse count of a frame (45_cycle_machine.md section 4, the property "exactly 8 N pulse pairs"): from a LOW line,
the waveform of a frame of `L` LEDs has `24 * L` rising edges, and it takes the cycles of the guard window. -/
def Obligations.FrameHasOnePulsePerBit : Prop :=
  ∀ (c : Config) (total : Nat) (lead count red green blue : Byte),
    let runs := frameWave c (frameRecords total lead count red green blue)
    let leds := frameLeds total lead count
    risingEdges .low (levels runs) = 24 * leds ∧ runCycles runs = windowCycles c leds ∧
    (levels runs).length = windowCycles c leds

/-- The two default schedules give the same waveform in seconds: that of S16 is that of S8 with every run length
doubled, and twice the cycles at the default 16 MHz last as long as the cycles at the default 8 MHz (40_timing_engine.md
section 3). The run lengths are the spec's own decision D8. -/
def Obligations.ScheduleS16DoublesS8 : Prop :=
  (∀ vs : List Byte, wave config16 vs = doubled (wave config8 vs)) ∧
  (∀ cycles : Nat, config16.nanoseconds (2 * cycles) = config8.nanoseconds cycles) ∧
  (∀ cycles : Nat, config8.nanoseconds cycles = 125 * (cycles : Rat))

/-- The bit period (40_timing_engine.md section 2): in every configuration it is within the tolerance of the nominal period; and with the default
period and tolerance the admitted values of `TBIT` are 9 to 11 at 8 MHz and 18 to 22 at 16 MHz (the spec's own inference
in R107, "derived: from `00_scope.md` rule R9"). -/
def Obligations.BitPeriodWithinTolerance : Prop :=
  (∀ c : Config,
    |((c.sched.tbit * 1000000000 : Nat) : Rat) / (c.fClk : Rat) - (c.periodNs : Rat)| ≤ (c.tolNs : Rat) ∧
    (c.periodNs = 1250 → c.tolNs = 150 →
      (c.fClk = 8000000 → 9 ≤ c.sched.tbit ∧ c.sched.tbit ≤ 11) ∧
      (c.fClk = 16000000 → 18 ≤ c.sched.tbit ∧ c.sched.tbit ≤ 22))) ∧
  (∀ tbit : Nat, |((tbit * 1000000000 : Nat) : Rat) / 8000000 - 1250| ≤ 150 ↔ 9 ≤ tbit ∧ tbit ≤ 11) ∧
  (∀ tbit : Nat, |((tbit * 1000000000 : Nat) : Rat) / 16000000 - 1250| ≤ 150 ↔ 18 ≤ tbit ∧ tbit ≤ 22)

/-- R231: an unsupported clock frequency is a build failure, never a fallback; no engine exists with one; and the two
supported frequencies have their default engines. -/
def Obligations.UnsupportedClockFailsToBuild : Prop :=
  (∀ raw : RawConfig, Config.build raw = .error .unsupportedClock ↔
    raw.fClk ≠ 8000000 ∧ raw.fClk ≠ 16000000) ∧
  (∀ c : Config, c.fClk = 8000000 ∨ c.fClk = 16000000) ∧
  (∀ f, f ≠ 8000000 → f ≠ 16000000 → defaultConfig f = .error .unsupportedClock) ∧
  defaultConfig 8000000 = .ok config8 ∧ defaultConfig 16000000 = .ok config16

/-- R110: an overridden schedule that is not well formed, or a gap that does not fit its register, is refused; all
others with a supported clock are built as given. The constants and widths are those the spec gives an engine for; any
others are refused, after the schedule (logs 15 and 19). -/
def Obligations.IllFormedScheduleFailsToBuild : Prop :=
  ∀ raw : RawConfig, raw.fClk = 8000000 ∨ raw.fClk = 16000000 →
    let wellFormed := 1 ≤ raw.sched.t0h ∧ raw.sched.t0h < raw.sched.t0l ∧ raw.sched.t1l < raw.sched.t1h ∧
      1 ≤ raw.sched.t1l ∧ raw.sched.t0h + raw.sched.t0l = raw.sched.tbit ∧
      raw.sched.t1h + raw.sched.t1l = raw.sched.tbit ∧ raw.sched.tbit ≤ 32 ∧
      |((raw.sched.tbit * 1000000000 : Nat) : Rat) / (raw.fClk : Rat) - (raw.periodNs : Rat)| ≤ (raw.tolNs : Rat) ∧
      raw.gapCyc ≤ 255
    (raw.parametersAdmitted = true → ((∃ c, Config.build raw = .ok c ∧ c.toRawConfig = raw) ↔ wellFormed)) ∧
    (¬ wellFormed → Config.build raw = .error .badSchedule) ∧
    (wellFormed → raw.parametersAdmitted = false → Config.build raw = .error .badParameter)

/-- Progress (45_cycle_machine.md section 4): from every state that meets the invariant in phase TX or GAP, with `rst`
held at 0, the machine is in phase ARM after a number of cycles bounded by the LEDs still to send. -/
def Obligations.TransmissionEnds : Prop :=
  ∀ s : State, StateInv s → s.eng.phase = .tx ∨ s.eng.phase = .gap →
    ∃ n, 1 ≤ n ∧
      n ≤ (1 + s.eng.nlead.toNat + s.eng.ncol.toNat + s.eng.ntrail) * (24 * s.cfg.sched.tbit + s.cfg.gapCyc) ∧
      (NoReset n s → ∃ t, runFor n s = .next t ∧ t.eng.phase = .arm ∧
        t.eng.pinLevel = .low)

/-! ### The Latch Timer (43_latch_timer.md) -/

/-- The wait (43_latch_timer.md) goes on, with the registers as they are, in every cycle in which the clock has not
advanced by `LATCH_US` since `T0`, modulo 2^`US_W`, and ends in the first cycle in which it has. At `US_W` = 32 this is R163
with its 2^32; reading 2^32 as 2^`US_W` at other widths is the model's choice (log 15). -/
def Obligations.WaitEndsWhenTheClockSaysSo : Prop :=
  ∀ (s : State) (m : Nat), LatchClockStalled m s →
    (NoReset m s → ∃ t, runFor m s = .next t ∧ t.eng = s.eng ∧
      busy t.eng = true ∧ cmdReady t.eng = false ∧ irqInhibit t.eng = false) ∧
    (NoReset (m + 1) s → s.cfg.latchUs ≤ elapsed s.cfg (Ops.inputAt s m).usNow s.eng.t0 →
      ∃ t, runFor (m + 1) s = .next t ∧ t.eng = { s.eng with phase := .idle })

/-- A render call returns (45_cycle_machine.md section 4): from an accepted RENDER, with no reset, if the clock advances
by `LATCH_US` from the ARM cycle to cycle `m`, the engine is in IDLE again by the end of cycle `m`, after at least the
frame, the ARM cycle and one WAIT cycle, and is busy in every cycle from the acceptance to then; with the line LOW if
anything was sent. The clock advances modulo 2^`US_W`: the model's choice at other widths than 32 (log 15). -/
def Obligations.RenderReturnsWhenTheClockAdvances : Prop :=
  ∀ (s : State) (lead count red green blue : Byte) (m : Nat),
    let leds := frameLeds s.eng.total lead count
    let w := windowCycles s.cfg leds
    s.eng.phase = .idle → s.port.cmdValid = true →
    decode s.port.cmd = .ok (.render lead count red green blue) →
    ClockAdvances s (w + 1) m → NoReset (m + 1) s →
    ∃ n t, w + 3 ≤ n ∧ n ≤ m + 1 ∧
      (∀ k, 1 ≤ k → k < n → ∃ u, runFor k s = .next u ∧ busy u.eng = true ∧ cmdReady u.eng = false) ∧
      runFor n s = .next t ∧ cmdReady t.eng = true ∧ busy t.eng = false ∧
      t.eng.total = s.eng.total ∧ t.eng.pinDir = s.eng.pinDir ∧ (leds ≠ 0 → t.eng.pinLevel = .low)

/-- When `busy` falls (43_latch_timer.md), other than by reset, the engine was in phase WAIT and the microsecond clock had
advanced by at least `LATCH_US` since `T0`; and the engine leaves WAIT in the first cycle in which it has. At `US_W` = 32
this is R165; that the clock advances modulo 2^`US_W` at other widths is the model's choice (log 15). -/
def Obligations.BusyFallsOnlyAfterTheLatchWait : Prop :=
  ∀ s t : State, s.port.rst = false → step s = .next t →
    (busy s.eng = true → busy t.eng = false →
      s.eng.phase = .wait ∧ s.cfg.latchUs ≤ elapsed s.cfg s.port.usNow s.eng.t0) ∧
    (s.eng.phase = .wait → s.cfg.latchUs ≤ elapsed s.cfg s.port.usNow s.eng.t0 → busy t.eng = false)

/-- The wait on the reference clock (43_latch_timer.md, 44_host_operations.md section 3): with phase ARM in cycle `a`,
the condition of the wait holds in cycle `x` exactly from cycle `CYC_PER_US * (floor(a / CYC_PER_US) + LATCH_US)`; and the
machine, with `LATCH_US` >= 1 and no reset, is in phase WAIT in every cycle from `a + 1` to that one and in IDLE in the
next. The clock wraps at 2^`US_W`: the model's choice at other widths than 32 (log 15). -/
def Obligations.ReferenceClockWait : Prop :=
  (∀ (c : Config) (u0 a x : Nat), a ≤ x → x - a < 2 ^ c.usW →
    (latchDone c (refClock c u0 x) (refClock c u0 a) = true ↔
      c.cycPerUs * (a / c.cycPerUs + c.latchUs) ≤ x)) ∧
  (∀ (s : State) (u0 a : Nat),
    let x := s.cfg.cycPerUs * (a / s.cfg.cycPerUs + s.cfg.latchUs)
    s.eng.phase = .arm → 1 ≤ s.cfg.latchUs → x - a < 2 ^ s.cfg.usW → NoReset (x - a + 1) s →
    (∀ k, k ≤ x - a → (Ops.inputAt s k).usNow = refClock s.cfg u0 (a + k)) →
    a < x ∧ (∀ k, 1 ≤ k → k ≤ x - a → ∃ t, runFor k s = .next t ∧ t.eng.phase = .wait) ∧
    (∃ t, runFor (x - a + 1) s = .next t ∧ t.eng.phase = .idle))

/-! ### Session registers and the host's duties -/

/-- Nothing reads the session registers in phase IDLE (10_state.md section 4): two machines in IDLE that agree on
`TOTAL`, `PIN_DIR`, `PIN_LEVEL`, the configuration and the inputs show the same outputs in every cycle to come, whatever
their session registers hold. -/
def Obligations.SessionRegistersAreDeadInIdle : Prop :=
  ∀ (s : State) (e : Engine), s.eng.phase = .idle → e.phase = .idle → e.total = s.eng.total →
    e.pinDir = s.eng.pinDir → e.pinLevel = s.eng.pinLevel →
    ∀ n t, runFor n s = .next t →
      ∃ u, runFor n { s with eng := e } = .next u ∧ outputs u.eng = outputs t.eng

/-- A dutiful host sees its frames on the line (44_host_operations.md section 3): along a run in which no duty is broken,
from a state with the pin an output or no render in progress, no render is in progress while the pin is an input. -/
def Obligations.DutifulFramesReachThePin : Prop :=
  ∀ (n : Nat) (s t : State), DutifulRun n s → (s.eng.pinDir = .output ∨ s.eng.phase = .idle) →
    runFor n s = .next t → (t.eng.pinDir = .output ∨ t.eng.phase = .idle)

/-- The model outcomes that 60_exceptions.md section 1 recommends (the spec's own decisions D5, D16, D17), on the guarded
step, carried beside the machine by logs 5 to 7: it stops by name on a reserved word, on RENDER before INIT, and on a command
presented while busy and not held; it goes no further than the machine's step, and it is the machine's step where no duty is
broken. -/
def Obligations.GuardedStepStopsOnBreaches : Prop :=
  ∀ s : State,
    (∀ w e, Ops.accepted s = some w → decode w = .error e →
      guardedStep s = .refused (.reservedCommand w)) ∧
    (∀ w lead count red green blue, Ops.accepted s = some w → decode w = .ok (.render lead count red green blue) →
      s.eng.pinDir = .input → guardedStep s = .fault .renderBeforeInit) ∧
    (s.port.rst = false → s.port.cmdValid = true → s.eng.phase ≠ .idle → (Ops.inputAt s 1).rst = false →
      (Ops.inputAt s 1).cmdValid = false ∨ (Ops.inputAt s 1).cmd ≠ s.port.cmd →
      guardedStep s = .refused .commandWhileBusy) ∧
    (∀ t, guardedStep s = .next t → step s = .next t) ∧
    (breach s = none → guardedStep s = step s)
end

