-- ==== Sys2Proof/Laws/Decode.lean ====
section
/-! SUPPORT. Everything the decoder can do, said once (R88), on the word read as a number. -/

namespace Sys2Proof

/-- A slice of the word as a number (R11). -/
theorem toNat_field (w : CmdWord) (lo n : Nat) : (field w lo n).toNat = w.toNat / 2 ^ lo % 2 ^ n := by
  simp [field, BitVec.extractLsb'_toNat, Nat.shiftRight_eq_div_pow]

/-- Every word is one of the three commands or is reserved for one of the three reasons. -/
theorem decode_cases (w : CmdWord) :
    (w.toNat / 2 ^ 40 = 1 ∧ w.toNat % 2 ^ 40 = 0 ∧ decode w = .ok .init) ∨
    (w.toNat / 2 ^ 40 = 1 ∧ w.toNat % 2 ^ 40 ≠ 0 ∧ decode w = .error .initOperand) ∨
    (w.toNat / 2 ^ 40 = 2 ∧ w.toNat / 2 ^ 16 % 2 ^ 24 = 0 ∧ decode w = .ok (.config (field w 0 16))) ∨
    (w.toNat / 2 ^ 40 = 2 ∧ w.toNat / 2 ^ 16 % 2 ^ 24 ≠ 0 ∧ decode w = .error .configHighBits) ∨
    (w.toNat / 2 ^ 40 = 3 ∧ decode w =
      .ok (.render (field w 32 8) (field w 24 8) (field w 16 8) (field w 8 8) (field w 0 8))) ∨
    (w.toNat / 2 ^ 40 ≠ 1 ∧ w.toNat / 2 ^ 40 ≠ 2 ∧ w.toNat / 2 ^ 40 ≠ 3 ∧ decode w = .error .opcode) := by
  have hw := w.isLt
  have h40 := toNat_field w 40 8
  have h0 := toNat_field w 0 40
  have h16 := toNat_field w 16 24
  have k1 : opField w = opInit ↔ w.toNat / 2 ^ 40 = 1 := by
    rw [← BitVec.toNat_inj, opField, h40]; change _ = 1 ↔ _; omega
  have k2 : opField w = opConfig ↔ w.toNat / 2 ^ 40 = 2 := by
    rw [← BitVec.toNat_inj, opField, h40]; change _ = 2 ↔ _; omega
  have k3 : opField w = opRender ↔ w.toNat / 2 ^ 40 = 3 := by
    rw [← BitVec.toNat_inj, opField, h40]; change _ = 3 ↔ _; omega
  have k4 : field w 0 40 = 0 ↔ w.toNat % 2 ^ 40 = 0 := by
    rw [← BitVec.toNat_inj, h0]; change _ = 0 ↔ _; omega
  have k5 : field w 16 24 = 0 ↔ w.toNat / 2 ^ 16 % 2 ^ 24 = 0 := by
    rw [← BitVec.toNat_inj, h16]; change _ = 0 ↔ _; omega
  unfold decode
  simp only [k1, k2, k3, k4, k5]
  split_ifs <;> simp_all

end Sys2Proof
end

