-- ==== Sys2Proof/Laws/State.lean ====
section
/-! SUPPORT. One lemma for each field of each named update of the state, true by rfl: no later proof unfolds a record
update. -/

namespace Sys2Proof.Machine

/-! ### The passage to the next cycle -/

@[simp] theorem advance_cfg (s : State) (e : Engine) : (Ops.advance s e).cfg = s.cfg := rfl
@[simp] theorem advance_eng (s : State) (e : Engine) : (Ops.advance s e).eng = e := rfl
@[simp] theorem advance_port (s : State) (e : Engine) : (Ops.advance s e).port = Ops.inputAt s 1 := rfl
@[simp] theorem advance_script (s : State) (e : Engine) : (Ops.advance s e).script = s.script.tail := rfl
@[simp] theorem advance_tick (s : State) (e : Engine) : (Ops.advance s e).tick = s.tick + 1 := rfl

/-! ### The constants of an admitted configuration (R9, R10) -/

theorem config_parameters (c : Config) :
    (c.chW = 8 ∧ c.bytesPerLed = 3 ∧ c.bitsPerLed = c.chW * c.bytesPerLed ∧ c.leadW = 8 ∧ c.countW = 8 ∧ c.cmdW = 48) ∧
      (9 ≤ c.totalW ∧ c.totalInit < 2 ^ c.totalW ∧ 1 ≤ c.usW) := by
  have h := c.parametersOk
  simpa only [RawConfig.parametersAdmitted, RawConfig.constantsOk, RawConfig.widthsOk, Bool.and_eq_true,
    decide_eq_true_eq] using h

@[simp] theorem config_chW (c : Config) : c.chW = 8 := (config_parameters c).1.1
@[simp] theorem config_bytesPerLed (c : Config) : c.bytesPerLed = 3 := (config_parameters c).1.2.1
@[simp] theorem config_bitsPerLed (c : Config) : c.bitsPerLed = 24 := by
  rw [(config_parameters c).1.2.2.1, config_chW, config_bytesPerLed]

/-! ### `startLed` -/

@[simp] theorem startLed_total (c : Config) (base : RecAddr) (e : Engine) : (startLed c base e).total = e.total := rfl
@[simp] theorem startLed_pinDir (c : Config) (base : RecAddr) (e : Engine) : (startLed c base e).pinDir = e.pinDir := rfl
@[simp] theorem startLed_pinLevel (c : Config) (base : RecAddr) (e : Engine) : (startLed c base e).pinLevel = .high := rfl
@[simp] theorem startLed_phase (c : Config) (base : RecAddr) (e : Engine) : (startLed c base e).phase = .tx := rfl
@[simp] theorem startLed_mem (c : Config) (base : RecAddr) (e : Engine) : (startLed c base e).mem = e.mem := rfl
@[simp] theorem startLed_nlead (c : Config) (base : RecAddr) (e : Engine) : (startLed c base e).nlead = e.nlead := rfl
@[simp] theorem startLed_ncol (c : Config) (base : RecAddr) (e : Engine) : (startLed c base e).ncol = e.ncol := rfl
@[simp] theorem startLed_ntrail (c : Config) (base : RecAddr) (e : Engine) : (startLed c base e).ntrail = e.ntrail := rfl
@[simp] theorem startLed_ptr (c : Config) (base : RecAddr) (e : Engine) : (startLed c base e).ptr = base := rfl
@[simp] theorem startLed_cnt (c : Config) (base : RecAddr) (e : Engine) : (startLed c base e).cnt = 3 := by
  simp [startLed]
@[simp] theorem startLed_bitIdx (c : Config) (base : RecAddr) (e : Engine) : (startLed c base e).bitIdx = 7 := by
  simp [startLed]
@[simp] theorem startLed_cyc (c : Config) (base : RecAddr) (e : Engine) : (startLed c base e).cyc = 0 := rfl
@[simp] theorem startLed_gapCnt (c : Config) (base : RecAddr) (e : Engine) : (startLed c base e).gapCnt = e.gapCnt := rfl
@[simp] theorem startLed_t0 (c : Config) (base : RecAddr) (e : Engine) : (startLed c base e).t0 = e.t0 := rfl

/-! ### `frameOver` -/

@[simp] theorem frameOver_total (e : Engine) : (frameOver e).total = e.total := rfl
@[simp] theorem frameOver_pinDir (e : Engine) : (frameOver e).pinDir = e.pinDir := rfl
@[simp] theorem frameOver_pinLevel (e : Engine) : (frameOver e).pinLevel = .low := rfl
@[simp] theorem frameOver_phase (e : Engine) : (frameOver e).phase = .arm := rfl
@[simp] theorem frameOver_mem (e : Engine) : (frameOver e).mem = e.mem := rfl
@[simp] theorem frameOver_nlead (e : Engine) : (frameOver e).nlead = e.nlead := rfl
@[simp] theorem frameOver_ncol (e : Engine) : (frameOver e).ncol = e.ncol := rfl
@[simp] theorem frameOver_ntrail (e : Engine) : (frameOver e).ntrail = e.ntrail := rfl
@[simp] theorem frameOver_ptr (e : Engine) : (frameOver e).ptr = e.ptr := rfl
@[simp] theorem frameOver_cnt (e : Engine) : (frameOver e).cnt = e.cnt := rfl
@[simp] theorem frameOver_bitIdx (e : Engine) : (frameOver e).bitIdx = e.bitIdx := rfl
@[simp] theorem frameOver_cyc (e : Engine) : (frameOver e).cyc = e.cyc := rfl
@[simp] theorem frameOver_gapCnt (e : Engine) : (frameOver e).gapCnt = e.gapCnt := rfl
@[simp] theorem frameOver_t0 (e : Engine) : (frameOver e).t0 = e.t0 := rfl

/-! ### `txWithinBit` -/

@[simp] theorem txWithinBit_total (c : Config) (b : Bool) (e : Engine) :
    (txWithinBit c b e).total = e.total := rfl
@[simp] theorem txWithinBit_pinDir (c : Config) (b : Bool) (e : Engine) :
    (txWithinBit c b e).pinDir = e.pinDir := rfl
@[simp] theorem txWithinBit_pinLevel (c : Config) (b : Bool) (e : Engine) :
    (txWithinBit c b e).pinLevel = if e.cyc.toNat + 1 < highCycles c b then .high else .low := rfl
@[simp] theorem txWithinBit_phase (c : Config) (b : Bool) (e : Engine) :
    (txWithinBit c b e).phase = e.phase := rfl
@[simp] theorem txWithinBit_mem (c : Config) (b : Bool) (e : Engine) : (txWithinBit c b e).mem = e.mem := rfl
@[simp] theorem txWithinBit_nlead (c : Config) (b : Bool) (e : Engine) :
    (txWithinBit c b e).nlead = e.nlead := rfl
@[simp] theorem txWithinBit_ncol (c : Config) (b : Bool) (e : Engine) : (txWithinBit c b e).ncol = e.ncol := rfl
@[simp] theorem txWithinBit_ntrail (c : Config) (b : Bool) (e : Engine) :
    (txWithinBit c b e).ntrail = e.ntrail := rfl
@[simp] theorem txWithinBit_ptr (c : Config) (b : Bool) (e : Engine) : (txWithinBit c b e).ptr = e.ptr := rfl
@[simp] theorem txWithinBit_cnt (c : Config) (b : Bool) (e : Engine) : (txWithinBit c b e).cnt = e.cnt := rfl
@[simp] theorem txWithinBit_bitIdx (c : Config) (b : Bool) (e : Engine) :
    (txWithinBit c b e).bitIdx = e.bitIdx := rfl
@[simp] theorem txWithinBit_cyc (c : Config) (b : Bool) (e : Engine) : (txWithinBit c b e).cyc = e.cyc + 1 := rfl
@[simp] theorem txWithinBit_gapCnt (c : Config) (b : Bool) (e : Engine) :
    (txWithinBit c b e).gapCnt = e.gapCnt := rfl
@[simp] theorem txWithinBit_t0 (c : Config) (b : Bool) (e : Engine) : (txWithinBit c b e).t0 = e.t0 := rfl

/-! ### `txNextBit` -/

@[simp] theorem txNextBit_total (e : Engine) : (txNextBit e).total = e.total := rfl
@[simp] theorem txNextBit_pinDir (e : Engine) : (txNextBit e).pinDir = e.pinDir := rfl
@[simp] theorem txNextBit_pinLevel (e : Engine) : (txNextBit e).pinLevel = .high := rfl
@[simp] theorem txNextBit_phase (e : Engine) : (txNextBit e).phase = e.phase := rfl
@[simp] theorem txNextBit_mem (e : Engine) : (txNextBit e).mem = e.mem := rfl
@[simp] theorem txNextBit_nlead (e : Engine) : (txNextBit e).nlead = e.nlead := rfl
@[simp] theorem txNextBit_ncol (e : Engine) : (txNextBit e).ncol = e.ncol := rfl
@[simp] theorem txNextBit_ntrail (e : Engine) : (txNextBit e).ntrail = e.ntrail := rfl
@[simp] theorem txNextBit_ptr (e : Engine) : (txNextBit e).ptr = e.ptr := rfl
@[simp] theorem txNextBit_cnt (e : Engine) : (txNextBit e).cnt = e.cnt := rfl
@[simp] theorem txNextBit_bitIdx (e : Engine) : (txNextBit e).bitIdx = e.bitIdx - 1 := rfl
@[simp] theorem txNextBit_cyc (e : Engine) : (txNextBit e).cyc = 0 := rfl
@[simp] theorem txNextBit_gapCnt (e : Engine) : (txNextBit e).gapCnt = e.gapCnt := rfl
@[simp] theorem txNextBit_t0 (e : Engine) : (txNextBit e).t0 = e.t0 := rfl

/-! ### `txNextByte` -/

@[simp] theorem txNextByte_total (c : Config) (e : Engine) : (txNextByte c e).total = e.total := rfl
@[simp] theorem txNextByte_pinDir (c : Config) (e : Engine) : (txNextByte c e).pinDir = e.pinDir := rfl
@[simp] theorem txNextByte_pinLevel (c : Config) (e : Engine) : (txNextByte c e).pinLevel = .high := rfl
@[simp] theorem txNextByte_phase (c : Config) (e : Engine) : (txNextByte c e).phase = e.phase := rfl
@[simp] theorem txNextByte_mem (c : Config) (e : Engine) : (txNextByte c e).mem = e.mem := rfl
@[simp] theorem txNextByte_nlead (c : Config) (e : Engine) : (txNextByte c e).nlead = e.nlead := rfl
@[simp] theorem txNextByte_ncol (c : Config) (e : Engine) : (txNextByte c e).ncol = e.ncol := rfl
@[simp] theorem txNextByte_ntrail (c : Config) (e : Engine) : (txNextByte c e).ntrail = e.ntrail := rfl
@[simp] theorem txNextByte_ptr (c : Config) (e : Engine) : (txNextByte c e).ptr = e.ptr + 1 := rfl
@[simp] theorem txNextByte_cnt (c : Config) (e : Engine) : (txNextByte c e).cnt = e.cnt - 1 := rfl
@[simp] theorem txNextByte_bitIdx (c : Config) (e : Engine) : (txNextByte c e).bitIdx = 7 := by
  simp [txNextByte]
@[simp] theorem txNextByte_cyc (c : Config) (e : Engine) : (txNextByte c e).cyc = 0 := rfl
@[simp] theorem txNextByte_gapCnt (c : Config) (e : Engine) : (txNextByte c e).gapCnt = e.gapCnt := rfl
@[simp] theorem txNextByte_t0 (c : Config) (e : Engine) : (txNextByte c e).t0 = e.t0 := rfl

/-! ### `armArm` -/

@[simp] theorem armArm_total (c : Config) (us : Nat) (e : Engine) : (armArm c us e).total = e.total := rfl
@[simp] theorem armArm_pinDir (c : Config) (us : Nat) (e : Engine) : (armArm c us e).pinDir = e.pinDir := rfl
@[simp] theorem armArm_pinLevel (c : Config) (us : Nat) (e : Engine) : (armArm c us e).pinLevel = e.pinLevel := rfl
@[simp] theorem armArm_phase (c : Config) (us : Nat) (e : Engine) : (armArm c us e).phase = .wait := rfl
@[simp] theorem armArm_mem (c : Config) (us : Nat) (e : Engine) : (armArm c us e).mem = e.mem := rfl
@[simp] theorem armArm_nlead (c : Config) (us : Nat) (e : Engine) : (armArm c us e).nlead = e.nlead := rfl
@[simp] theorem armArm_ncol (c : Config) (us : Nat) (e : Engine) : (armArm c us e).ncol = e.ncol := rfl
@[simp] theorem armArm_ntrail (c : Config) (us : Nat) (e : Engine) : (armArm c us e).ntrail = e.ntrail := rfl
@[simp] theorem armArm_ptr (c : Config) (us : Nat) (e : Engine) : (armArm c us e).ptr = e.ptr := rfl
@[simp] theorem armArm_cnt (c : Config) (us : Nat) (e : Engine) : (armArm c us e).cnt = e.cnt := rfl
@[simp] theorem armArm_bitIdx (c : Config) (us : Nat) (e : Engine) : (armArm c us e).bitIdx = e.bitIdx := rfl
@[simp] theorem armArm_cyc (c : Config) (us : Nat) (e : Engine) : (armArm c us e).cyc = e.cyc := rfl
@[simp] theorem armArm_gapCnt (c : Config) (us : Nat) (e : Engine) : (armArm c us e).gapCnt = e.gapCnt := rfl
@[simp] theorem armArm_t0 (c : Config) (us : Nat) (e : Engine) : (armArm c us e).t0 = clockValue c us := rfl

/-! ### `initEffect` -/

@[simp] theorem initEffect_total (e : Engine) : (initEffect e).total = e.total := rfl
@[simp] theorem initEffect_pinDir (e : Engine) : (initEffect e).pinDir = .output := rfl
@[simp] theorem initEffect_pinLevel (e : Engine) : (initEffect e).pinLevel = .low := rfl
@[simp] theorem initEffect_phase (e : Engine) : (initEffect e).phase = e.phase := rfl
@[simp] theorem initEffect_mem (e : Engine) : (initEffect e).mem = e.mem := rfl
@[simp] theorem initEffect_nlead (e : Engine) : (initEffect e).nlead = e.nlead := rfl
@[simp] theorem initEffect_ncol (e : Engine) : (initEffect e).ncol = e.ncol := rfl
@[simp] theorem initEffect_ntrail (e : Engine) : (initEffect e).ntrail = e.ntrail := rfl
@[simp] theorem initEffect_ptr (e : Engine) : (initEffect e).ptr = e.ptr := rfl
@[simp] theorem initEffect_cnt (e : Engine) : (initEffect e).cnt = e.cnt := rfl
@[simp] theorem initEffect_bitIdx (e : Engine) : (initEffect e).bitIdx = e.bitIdx := rfl
@[simp] theorem initEffect_cyc (e : Engine) : (initEffect e).cyc = e.cyc := rfl
@[simp] theorem initEffect_gapCnt (e : Engine) : (initEffect e).gapCnt = e.gapCnt := rfl
@[simp] theorem initEffect_t0 (e : Engine) : (initEffect e).t0 = e.t0 := rfl

/-! ### `configEffect` -/

@[simp] theorem configEffect_total (c : Config) (n : Total) (e : Engine) : (configEffect c n e).total = storedTotal c n := rfl
@[simp] theorem configEffect_pinDir (c : Config) (n : Total) (e : Engine) : (configEffect c n e).pinDir = e.pinDir := rfl
@[simp] theorem configEffect_pinLevel (c : Config) (n : Total) (e : Engine) : (configEffect c n e).pinLevel = e.pinLevel := rfl
@[simp] theorem configEffect_phase (c : Config) (n : Total) (e : Engine) : (configEffect c n e).phase = e.phase := rfl
@[simp] theorem configEffect_mem (c : Config) (n : Total) (e : Engine) : (configEffect c n e).mem = e.mem := rfl
@[simp] theorem configEffect_nlead (c : Config) (n : Total) (e : Engine) : (configEffect c n e).nlead = e.nlead := rfl
@[simp] theorem configEffect_ncol (c : Config) (n : Total) (e : Engine) : (configEffect c n e).ncol = e.ncol := rfl
@[simp] theorem configEffect_ntrail (c : Config) (n : Total) (e : Engine) : (configEffect c n e).ntrail = e.ntrail := rfl
@[simp] theorem configEffect_ptr (c : Config) (n : Total) (e : Engine) : (configEffect c n e).ptr = e.ptr := rfl
@[simp] theorem configEffect_cnt (c : Config) (n : Total) (e : Engine) : (configEffect c n e).cnt = e.cnt := rfl
@[simp] theorem configEffect_bitIdx (c : Config) (n : Total) (e : Engine) : (configEffect c n e).bitIdx = e.bitIdx := rfl
@[simp] theorem configEffect_cyc (c : Config) (n : Total) (e : Engine) : (configEffect c n e).cyc = e.cyc := rfl
@[simp] theorem configEffect_gapCnt (c : Config) (n : Total) (e : Engine) : (configEffect c n e).gapCnt = e.gapCnt := rfl
@[simp] theorem configEffect_t0 (c : Config) (n : Total) (e : Engine) : (configEffect c n e).t0 = e.t0 := rfl

/-! ### `seqLoad` -/

@[simp] theorem seqLoad_total (l n r g b : Byte) (e : Engine) : (seqLoad l n r g b e).total = e.total := rfl
@[simp] theorem seqLoad_pinDir (l n r g b : Byte) (e : Engine) : (seqLoad l n r g b e).pinDir = e.pinDir := rfl
@[simp] theorem seqLoad_pinLevel (l n r g b : Byte) (e : Engine) :
    (seqLoad l n r g b e).pinLevel = e.pinLevel := rfl
@[simp] theorem seqLoad_phase (l n r g b : Byte) (e : Engine) : (seqLoad l n r g b e).phase = e.phase := rfl
@[simp] theorem seqLoad_mem (l n r g b : Byte) (e : Engine) :
    (seqLoad l n r g b e).mem = loadColor e.mem r g b := rfl
@[simp] theorem seqLoad_nlead (l n r g b : Byte) (e : Engine) : (seqLoad l n r g b e).nlead = l := rfl
@[simp] theorem seqLoad_ncol (l n r g b : Byte) (e : Engine) : (seqLoad l n r g b e).ncol = n := rfl
@[simp] theorem seqLoad_ntrail (l n r g b : Byte) (e : Engine) :
    (seqLoad l n r g b e).ntrail = trailCount e.total l n := rfl
@[simp] theorem seqLoad_ptr (l n r g b : Byte) (e : Engine) : (seqLoad l n r g b e).ptr = e.ptr := rfl
@[simp] theorem seqLoad_cnt (l n r g b : Byte) (e : Engine) : (seqLoad l n r g b e).cnt = e.cnt := rfl
@[simp] theorem seqLoad_bitIdx (l n r g b : Byte) (e : Engine) : (seqLoad l n r g b e).bitIdx = e.bitIdx := rfl
@[simp] theorem seqLoad_cyc (l n r g b : Byte) (e : Engine) : (seqLoad l n r g b e).cyc = e.cyc := rfl
@[simp] theorem seqLoad_gapCnt (l n r g b : Byte) (e : Engine) : (seqLoad l n r g b e).gapCnt = e.gapCnt := rfl
@[simp] theorem seqLoad_t0 (l n r g b : Byte) (e : Engine) : (seqLoad l n r g b e).t0 = e.t0 := rfl

end Sys2Proof.Machine
end

