-- ==== Sys2Proof/Laws/Memory.lean ====
section
/-! SUPPORT. The laws of the record memory: what a write does to every read, on any list of cells, and that every
operation keeps the canonical form. -/

namespace Sys2Proof.Machine

theorem lookup_erase_self (m : Memory) (a : Nat) : Ops.lookup (Ops.erase m a) a = Memory.unlisted := by
  induction m with
  | nil => rfl
  | cons c m ih =>
    by_cases h : c.1 = a <;> simp [Ops.erase, Ops.lookup, h, ih]

theorem lookup_erase_other (m : Memory) {a b : Nat} (h : b ≠ a) :
    Ops.lookup (Ops.erase m a) b = Ops.lookup m b := by
  induction m with
  | nil => rfl
  | cons c m ih =>
    by_cases hc : c.1 = a
    · have hb : c.1 ≠ b := by omega
      simp [Ops.erase, Ops.lookup, hc, ih, show ¬ a = b by omega]
    · simp only [Ops.erase, hc, if_false, Ops.lookup, ih]

theorem lookup_insert_other (m : Memory) {a b : Nat} (v : Byte) (h : b ≠ a) :
    Ops.lookup (Ops.insert m a v) b = Ops.lookup m b := by
  induction m with
  | nil => simp [Ops.insert, Ops.lookup, Ne.symm h]
  | cons c m ih =>
    by_cases hc : a < c.1
    · simp [Ops.insert, Ops.lookup, hc, Ne.symm h]
    · simp [Ops.insert, Ops.lookup, hc, ih]

theorem lookup_insert_erased (m : Memory) (a : Nat) (v : Byte) :
    Ops.lookup (Ops.insert (Ops.erase m a) a v) a = v := by
  induction m with
  | nil => simp [Ops.erase, Ops.insert, Ops.lookup]
  | cons c m ih =>
    by_cases hc : c.1 = a
    · simpa [Ops.erase, hc] using ih
    · by_cases hl : a < c.1 <;> simp [Ops.erase, Ops.insert, Ops.lookup, hc, hl, ih]

/-- A byte put at an address is what the address then reads as. -/
theorem lookup_put_self (m : Memory) (a : Nat) (v : Byte) : Ops.lookup (Ops.put m a v) a = v := by
  by_cases h : v = Memory.unlisted
  · simp [Ops.put, h, lookup_erase_self]
  · simp [Ops.put, h, lookup_insert_erased]

/-- A byte put at an address leaves every other address as it was. -/
theorem lookup_put_other (m : Memory) {a b : Nat} (v : Byte) (h : b ≠ a) :
    Ops.lookup (Ops.put m a v) b = Ops.lookup m b := by
  by_cases hv : v = Memory.unlisted
  · simp [Ops.put, hv, lookup_erase_other m h]
  · simp [Ops.put, hv, lookup_insert_other _ v h, lookup_erase_other m h]

/-! ### The canonical form -/

/-- Every listed address lies above `lo` and holds a byte of the colour record that is not the unlisted value. -/
def CellsAbove (lo : Nat) : Memory → Prop
  | [] => True
  | c :: m => lo < c.1 ∧ 3 ≤ c.1 ∧ c.1 ≤ 5 ∧ c.2 ≠ Memory.unlisted ∧ CellsAbove c.1 m

theorem CellsAbove.mono {lo lo' : Nat} (h : lo' ≤ lo) : {m : Memory} → CellsAbove lo m → CellsAbove lo' m
  | [], _ => trivial
  | _ :: _, ⟨h1, h2⟩ => ⟨by omega, h2⟩

theorem cellsAbove_of_wf : {m : Memory} → Memory.wf m = true → CellsAbove 2 m
  | [], _ => trivial
  | [c], h => by
    simp [Memory.wf] at h
    exact ⟨by omega, by omega, by omega, h.2.2, trivial⟩
  | c :: d :: m, h => by
    simp only [Memory.wf, Bool.and_eq_true, decide_eq_true_eq] at h
    obtain ⟨⟨h1, h2, h3⟩, h4⟩ := h
    have := cellsAbove_of_wf h4
    obtain ⟨-, k1, k2, k3, k4⟩ := this
    exact ⟨by omega, h1, by omega, h3, h2, k1, k2, k3, k4⟩

theorem wf_of_cellsAbove : {m : Memory} → {lo : Nat} → CellsAbove lo m → Memory.wf m = true
  | [], _, _ => rfl
  | [c], _, ⟨_, h2, h3, h4, _⟩ => by simp [Memory.wf, h2, h3, h4]
  | c :: d :: m, _, ⟨_, h2, _, h4, h5⟩ => by
    have := wf_of_cellsAbove h5
    simp only [Memory.wf, Bool.and_eq_true, decide_eq_true_eq]
    exact ⟨⟨h2, h5.1, h4⟩, this⟩

theorem cellsAbove_erase {m : Memory} (a : Nat) : {lo : Nat} → CellsAbove lo m → CellsAbove lo (Ops.erase m a) := by
  induction m with
  | nil => exact fun h => h
  | cons c m ih =>
    intro lo ⟨h1, h2, h3, h4, h5⟩
    by_cases hc : c.1 = a
    · simpa [Ops.erase, hc] using ih (h5.mono (by omega))
    · simp only [Ops.erase, hc, if_false]
      exact ⟨h1, h2, h3, h4, ih h5⟩

theorem cellsAbove_insert {m : Memory} {a : Nat} {v : Byte} (ha : 3 ≤ a ∧ a ≤ 5) (hv : v ≠ Memory.unlisted) :
    {lo : Nat} → lo < a → CellsAbove lo (Ops.erase m a) → CellsAbove lo (Ops.insert (Ops.erase m a) a v) := by
  induction m with
  | nil => intro lo hlo _; exact ⟨hlo, ha.1, ha.2, hv, trivial⟩
  | cons c m ih =>
    intro lo hlo h
    by_cases hc : c.1 = a
    · simp only [Ops.erase, hc, if_true] at h ⊢
      exact ih hlo h
    · simp only [Ops.erase, hc, if_false] at h ⊢
      obtain ⟨h1, h2, h3, h4, h5⟩ := h
      by_cases hl : a < c.1
      · simp only [Ops.insert, hl, if_true]
        exact ⟨hlo, ha.1, ha.2, hv, hl, h2, h3, h4, h5⟩
      · simp only [Ops.insert, hl, if_false]
        exact ⟨h1, h2, h3, h4, ih (by omega) h5⟩

/-- A write to the colour record keeps the canonical form. -/
theorem wf_memWrite {m : Memory} (h : Memory.wf m = true) (i : Fin 3) (v : Byte) :
    Memory.wf (Ops.memWrite m i v) = true := by
  have he := cellsAbove_erase (Ops.colorAddr i) (cellsAbove_of_wf h)
  by_cases hv : v = Memory.unlisted
  · simpa [Ops.memWrite, Ops.put, hv] using wf_of_cellsAbove he
  · have ha : 3 ≤ Ops.colorAddr i ∧ Ops.colorAddr i ≤ 5 := by simp only [Ops.colorAddr]; omega
    simpa [Ops.memWrite, Ops.put, hv] using wf_of_cellsAbove (cellsAbove_insert ha hv (by omega) he)

/-- Building the Color Record keeps the canonical form. -/
theorem wf_loadColor {m : Memory} (h : Memory.wf m = true) (red green blue : Byte) :
    Memory.wf (loadColor m red green blue) = true :=
  wf_memWrite (wf_memWrite (wf_memWrite h 0 green) 1 red) 2 blue

/-- Memory right after reset is canonical. -/
theorem wf_reset (c : Config) : Memory.wf (Engine.reset c).mem = true := rfl

/-! ### Reading through the two primitives -/

theorem color_memWrite_self (m : Memory) (i : Fin 3) (v : Byte) : Ops.color (Ops.memWrite m i v) i = v :=
  lookup_put_self m _ v

theorem color_memWrite_other (m : Memory) {i j : Fin 3} (v : Byte) (h : j ≠ i) :
    Ops.color (Ops.memWrite m i v) j = Ops.color m j :=
  lookup_put_other m v (by simp only [Ops.colorAddr]; omega)

@[simp] theorem loadColor_green (m : Memory) (r g b : Byte) : Ops.color (loadColor m r g b) 0 = g := by
  simp [loadColor, color_memWrite_self, color_memWrite_other]

@[simp] theorem loadColor_red (m : Memory) (r g b : Byte) : Ops.color (loadColor m r g b) 1 = r := by
  simp [loadColor, color_memWrite_self, color_memWrite_other]

@[simp] theorem loadColor_blue (m : Memory) (r g b : Byte) : Ops.color (loadColor m r g b) 2 = b := by
  simp [loadColor, color_memWrite_self]

/-- Everything a read can do: a hard-wired zero, a byte of the colour record, or the fault. -/
theorem memRead_cases (m : Memory) (a : RecAddr) :
    (a.toNat < 3 ∧ Ops.memRead m a = .ok 0x00) ∨
    (∃ i : Fin 3, a.toNat = Ops.colorAddr i ∧ Ops.memRead m a = .ok (Ops.color m i)) ∨
    (6 ≤ a.toNat ∧ Ops.memRead m a = .error (.unmappedRecordRead a)) := by
  by_cases h1 : a.toNat < 3
  · exact .inl ⟨h1, by simp [Ops.memRead, h1]⟩
  · by_cases h2 : a.toNat ≤ 5
    · have hi : a.toNat - 3 < 3 := by omega
      have he : a.toNat = Ops.colorAddr ⟨a.toNat - 3, hi⟩ := by simp only [Ops.colorAddr]; omega
      refine .inr (.inl ⟨⟨a.toNat - 3, hi⟩, he, ?_⟩)
      simp only [Ops.memRead, h1, if_false, h2, if_true, Ops.color, ← he]
    · exact .inr (.inr ⟨by omega, by simp [Ops.memRead, h1, h2]⟩)

/-- Two memories with the same colour record answer every read alike. -/
theorem memRead_congr {m m' : Memory} (h : ∀ i, Ops.color m i = Ops.color m' i) (a : RecAddr) :
    Ops.memRead m a = Ops.memRead m' a := by
  by_cases h1 : a.toNat < 3
  · simp [Ops.memRead, h1]
  · by_cases h2 : a.toNat ≤ 5
    · have := h ⟨a.toNat - 3, by omega⟩
      simp only [Ops.color, Ops.colorAddr, show 3 + (a.toNat - 3) = a.toNat by omega] at this
      simp [Ops.memRead, h1, h2, this]
    · simp [Ops.memRead, h1, h2]

end Sys2Proof.Machine
end

