-- ==== Sys2Proof/Laws/PerInstr.lean ====
section
/-! SUPPORT. Statements made per constructor of `Instr`. `WordValue`: the encoder's word, read as a number, is the sum of
its fields at the places R80 gives them. -/

namespace Sys2Proof.Laws.WordValue

/-- The word of a command as a number (R80 to R84): `op` at bit 40, `lead` at 32, `count` at 24, `red` at 16, `green`
at 8, `blue` at 0; `total` at 0; every other bit 0. -/
def value : Instr → Nat
  | .init => 1 * 2 ^ 40
  | .config total => 2 * 2 ^ 40 + total.toNat
  | .render lead count red green blue =>
    3 * 2 ^ 40 + lead.toNat * 2 ^ 32 + count.toNat * 2 ^ 24 + red.toNat * 2 ^ 16 + green.toNat * 2 ^ 8 + blue.toNat

/-- The word of the command has that value. -/
def Statement (i : Instr) : Prop := (encode i).toNat = value i

/-- A concatenation as a number. -/
theorem toNat_append {m n : Nat} (x : BitVec m) (y : BitVec n) :
    (x ++ y).toNat = x.toNat * 2 ^ n + y.toNat := by
  rw [BitVec.toNat_append, ← Nat.shiftLeft_add_eq_or_of_lt y.isLt, Nat.shiftLeft_eq]

theorem init : Statement .init := rfl

theorem config (total : Total) : Statement (.config total) := by
  change (opConfig ++ (0 : BitVec 24) ++ total : BitVec (8 + 24 + 16)).toNat = _
  have hop : opConfig.toNat = 2 := rfl
  have hz : (0 : BitVec 24).toNat = 0 := rfl
  rw [toNat_append, toNat_append, hop, hz, value]
  omega

theorem render (lead count red green blue : Byte) : Statement (.render lead count red green blue) := by
  change (opRender ++ lead ++ count ++ red ++ green ++ blue : BitVec (8 + 8 + 8 + 8 + 8 + 8)).toNat = _
  have hop : opRender.toNat = 3 := rfl
  rw [toNat_append, toNat_append, toNat_append, toNat_append, toNat_append, hop, value]
  omega

end Sys2Proof.Laws.WordValue
end

