-- ==== Sys2Proof/Laws/Step.lean ====
section
/-! SUPPORT. What each shared operation can do, said once: the handshake, a cycle with and without a command, `SEQ.NEXT`,
and the step. -/

namespace Sys2Proof.Machine

/-! ### The handshake -/

theorem accepted_eq_some {s : State} {w : CmdWord} (h : Ops.accepted s = some w) :
    s.port.rst = false ∧ s.port.cmdValid = true ∧ s.eng.phase = .idle ∧ s.port.cmd = w := by
  by_cases ha : Ops.accept s = true
  · simp only [Ops.accepted, ha, if_true, Option.some.injEq] at h
    simp only [Ops.accept, Bool.and_eq_true, Bool.not_eq_true', decide_eq_true_eq] at ha
    exact ⟨ha.1.1, ha.1.2, ha.2, h⟩
  · simp [Ops.accepted, ha] at h

theorem accepted_of {s : State} (hr : s.port.rst = false) (hv : s.port.cmdValid = true)
    (hp : s.eng.phase = .idle) : Ops.accepted s = some s.port.cmd := by
  simp [Ops.accepted, Ops.accept, hr, hv, hp]

theorem accepted_eq_none {s : State} (h : Ops.accepted s = none) :
    s.port.rst = true ∨ s.port.cmdValid = false ∨ s.eng.phase ≠ .idle := by
  by_contra hc
  push Not at hc
  obtain ⟨h1, h2, h3⟩ := hc
  rw [accepted_of (by simpa using h1) (by simpa using h2) h3] at h
  cases h

/-! ### A cycle in which a command is presented -/

theorem presentCommand_reset {s : State} (f : Engine → Engine) (h : s.port.rst = true) :
    presentCommand f s = Ops.resetCycle s := by simp [presentCommand, h]

theorem presentCommand_idle {s : State} (f : Engine → Engine) (hr : s.port.rst = false)
    (hp : s.eng.phase = .idle) : presentCommand f s = .next (Ops.advance s (f s.eng)) := by
  simp [presentCommand, hr, hp]

theorem presentCommand_busy {s : State} (f : Engine → Engine) (hr : s.port.rst = false)
    (hp : s.eng.phase ≠ .idle) : presentCommand f s = quietCycle s := by
  simp [presentCommand, hr, hp]

/-- The effect at acceptance of each command. -/
def commandEffect (c : Config) : Instr → Engine → Engine
  | .init => initEffect
  | .config total => configEffect c total
  | .render lead count red green blue => renderEffect c lead count red green blue

theorem exec_eq_present (i : Instr) (s : State) : exec i s = presentCommand (commandEffect s.cfg i) s := by
  cases i <;> rfl

/-! ### A cycle in which none is accepted -/

theorem finish_eq_next {s t : State} {x : Except Fault Engine} (h : Ops.finish s x = .next t) :
    ∃ e, x = .ok e ∧ t = Ops.advance s e := by
  cases x with
  | ok e => exact ⟨e, rfl, by simpa [Ops.finish] using h.symm⟩
  | error f => simp [Ops.finish] at h

theorem finish_eq_fault {s : State} {x : Except Fault Engine} {f : Fault} (h : Ops.finish s x = .fault f) :
    x = .error f := by
  cases x with
  | ok e => simp [Ops.finish] at h
  | error g => simpa [Ops.finish] using h

theorem finish_ne_refused (s : State) (x : Except Fault Engine) (r : Refusal) : Ops.finish s x ≠ .refused r := by
  cases x <;> simp [Ops.finish]

/-- Everything a cycle with no accepted command can do to the registers. -/
theorem phaseArm_ok {c : Config} {us : Nat} {e e' : Engine} (h : phaseArm c us e = .ok e') :
    (e.phase = .idle ∧ e' = e) ∨
    (e.phase = .tx ∧ ∃ byte, Ops.memRead e.mem e.ptr = .ok byte ∧ e' = txBit c (bitOf byte e.bitIdx) e) ∨
    (e.phase = .gap ∧ e' = gapArm c e) ∨
    (e.phase = .arm ∧ e' = armArm c us e) ∨
    (e.phase = .wait ∧ e' = waitArm c us e) := by
  unfold phaseArm at h
  split at h
  · next hp => exact .inl ⟨hp, by simpa using h.symm⟩
  · next hp =>
    unfold txArm at h
    split at h
    · next byte hb => exact .inr (.inl ⟨hp, byte, hb, by simpa using h.symm⟩)
    · cases h
  · next hp => exact .inr (.inr (.inl ⟨hp, by simpa using h.symm⟩))
  · next hp => exact .inr (.inr (.inr (.inl ⟨hp, by simpa using h.symm⟩)))
  · next hp => exact .inr (.inr (.inr (.inr ⟨hp, by simpa using h.symm⟩)))

/-- The one way a cycle faults: phase TX and a byte cursor that is not mapped. -/
theorem phaseArm_error {c : Config} {us : Nat} {e : Engine} {f : Fault} (h : phaseArm c us e = .error f) :
    e.phase = .tx ∧ Ops.memRead e.mem e.ptr = .error f := by
  unfold phaseArm at h
  split at h
  · cases h
  · next hp =>
    refine ⟨hp, ?_⟩
    unfold txArm at h
    split at h
    · cases h
    · next hb => rw [hb]; simpa using h
  all_goals cases h

/-- Everything the TX arm can do with the bit on the line (R196 to R199). -/
theorem txBit_cases (c : Config) (b : Bool) (e : Engine) :
    (e.cyc.toNat + 1 < c.sched.tbit ∧ txBit c b e = txWithinBit c b e) ∨
    (c.sched.tbit ≤ e.cyc.toNat + 1 ∧ e.bitIdx ≠ 0 ∧ txBit c b e = txNextBit e) ∨
    (c.sched.tbit ≤ e.cyc.toNat + 1 ∧ e.bitIdx = 0 ∧ 1 < e.cnt.toNat ∧ txBit c b e = txNextByte c e) ∨
    (c.sched.tbit ≤ e.cyc.toNat + 1 ∧ e.bitIdx = 0 ∧ e.cnt.toNat ≤ 1 ∧ txBit c b e = txEndLed c e) := by
  have hb : (0 < e.bitIdx) ↔ e.bitIdx ≠ 0 := by bv_omega
  have hc : (1 < e.cnt) ↔ 1 < e.cnt.toNat := by rw [BitVec.lt_def]; rfl
  unfold txBit
  by_cases h1 : e.cyc.toNat + 1 < c.sched.tbit
  · exact .inl ⟨h1, if_pos h1⟩
  · rw [if_neg h1]
    by_cases h2 : e.bitIdx = 0
    · rw [if_neg (fun h => hb.1 h h2)]
      by_cases h3 : 1 < e.cnt.toNat
      · exact .inr (.inr (.inl ⟨by omega, h2, h3, if_pos (hc.2 h3)⟩))
      · exact .inr (.inr (.inr ⟨by omega, h2, by omega, if_neg (fun h => h3 (hc.1 h))⟩))
    · exact .inr (.inl ⟨by omega, h2, if_pos (hb.2 h2)⟩)

/-! ### `SEQ.NEXT` -/

/-- Everything `SEQ.NEXT` can do (R146). -/
theorem seqNext_cases (e : Engine) :
    (e.nlead ≠ 0 ∧ seqNext e = ({ e with nlead := e.nlead - 1 }, some zeroBase)) ∨
    (e.nlead = 0 ∧ e.ncol ≠ 0 ∧ seqNext e = ({ e with ncol := e.ncol - 1 }, some colorBase)) ∨
    (e.nlead = 0 ∧ e.ncol = 0 ∧ e.ntrail ≠ 0 ∧ seqNext e = ({ e with ntrail := e.ntrail - 1 }, some zeroBase)) ∨
    (e.nlead = 0 ∧ e.ncol = 0 ∧ e.ntrail = 0 ∧ seqNext e = (e, none)) := by
  have h1 : (0 < e.nlead) ↔ e.nlead ≠ 0 := by bv_omega
  have h2 : (0 < e.ncol) ↔ e.ncol ≠ 0 := by bv_omega
  have h3 : (0 < e.ntrail) ↔ e.ntrail ≠ 0 := by omega
  unfold seqNext
  by_cases a : e.nlead = 0
  · rw [if_neg (fun h => h1.1 h a)]
    by_cases b : e.ncol = 0
    · rw [if_neg (fun h => h2.1 h b)]
      by_cases c : e.ntrail = 0
      · exact .inr (.inr (.inr ⟨a, b, c, if_neg (fun h => h3.1 h c)⟩))
      · exact .inr (.inr (.inl ⟨a, b, c, if_pos (h3.2 c)⟩))
    · exact .inr (.inl ⟨a, b, if_pos (h2.2 b)⟩)
  · exact .inl ⟨a, if_pos (h1.2 a)⟩

/-! ### The step -/

/-- Everything a step can do: reset, an accepted command, an accepted reserved word, or the arm of the phase. -/
theorem step_cases (s : State) :
    (s.port.rst = true ∧ step s = Ops.resetCycle s) ∨
    (∃ w i, Ops.accepted s = some w ∧ decode w = .ok i ∧
      step s = .next (Ops.advance s (commandEffect s.cfg i s.eng))) ∨
    (∃ w r, Ops.accepted s = some w ∧ decode w = .error r ∧ step s = .next (Ops.advance s s.eng)) ∨
    (s.port.rst = false ∧ Ops.accepted s = none ∧ step s = quietCycle s) := by
  cases hr : s.port.rst with
  | true => exact .inl ⟨rfl, by simp [step, hr]⟩
  | false =>
    cases ha : Ops.accepted s with
    | none => exact .inr (.inr (.inr ⟨rfl, rfl, by simp [step, hr, ha]⟩))
    | some w =>
      cases hd : decode w with
      | error r => exact .inr (.inr (.inl ⟨w, r, rfl, hd, by simp [step, hr, ha, hd, reservedCycle]⟩))
      | ok i =>
        have hp := (accepted_eq_some ha).2.2.1
        refine .inr (.inl ⟨w, i, rfl, hd, ?_⟩)
        simp [step, hr, ha, hd, exec_eq_present, presentCommand_idle _ hr hp]

/-- A busy engine without reset takes the arm of its phase, whatever is on the command port. -/
theorem step_busy {s : State} (hr : s.port.rst = false) (hp : s.eng.phase ≠ .idle) : step s = quietCycle s := by
  have : Ops.accepted s = none := by simp [Ops.accepted, Ops.accept, hp]
  simp [step, hr, this]

/-- A step that answers a next state advances the environment and nothing else beside the registers. -/
theorem step_next_advance {s t : State} (h : step s = .next t) : t = Ops.advance s t.eng := by
  rcases step_cases s with ⟨_, h'⟩ | ⟨_, _, _, _, h'⟩ | ⟨_, _, _, _, h'⟩ | ⟨_, _, h'⟩ <;> rw [h'] at h
  · simp only [Ops.resetCycle, Host.Outcome.next.injEq] at h; subst h; rfl
  · simp only [Host.Outcome.next.injEq] at h; subst h; rfl
  · simp only [Host.Outcome.next.injEq] at h; subst h; rfl
  · obtain ⟨e, _, rfl⟩ := finish_eq_next h; rfl

/-! ### The inputs of the coming cycles -/

theorem inputAt_advance (s : State) (e : Engine) (k : Nat) :
    Ops.inputAt (Ops.advance s e) k = Ops.inputAt s (k + 1) := by
  cases k with
  | zero => rfl
  | succ k =>
    simp only [Ops.inputAt, Ops.advance, List.getElem?_tail]
    congr 1
    rw [show s.tick + 1 + k + 1 = s.tick + (k + 1) + 1 by omega]

/-- One step at the start of a run. -/
theorem run_succ_of (M : Host.Core) (n : Nat) (s u : M.State) (h : M.step s = .next u) : M.run (n + 1) s = M.run n u := by
  rw [Host.Core.run, h]

/-- A run that answers a next state took its first step. -/
theorem run_succ_cases (M : Host.Core) (n : Nat) (s t : M.State) (h : M.run (n + 1) s = .next t) :
    ∃ u, M.step s = .next u ∧ M.run n u = .next t := by
  rw [Host.Core.run] at h
  cases hs : M.step s with
  | next u => exact ⟨u, rfl, by rw [hs] at h; exact h⟩
  | fault r => rw [hs] at h; cases h
  | refused r => rw [hs] at h; cases h

/-- One more step at the end of a run. -/
theorem run_succ (M : Host.Core) (n : Nat) (s t : M.State) (h : M.run n s = .next t) : M.run (n + 1) s = M.step t := by
  induction n generalizing s with
  | zero =>
    simp only [Host.Core.run, Host.Outcome.next.injEq] at h ⊢
    subst h
    cases M.step s <;> rfl
  | succ n ih =>
    rw [Host.Core.run] at h ⊢
    cases hs : M.step s with
    | next s' =>
      rw [hs] at h
      exact ih s' h
    | fault r => rw [hs] at h; cases h
    | refused r => rw [hs] at h; cases h

/-- A run of `m + n` steps is a run of `m` and then a run of `n`. -/
theorem run_add (M : Host.Core) (m n : Nat) (s t : M.State) (h : M.run m s = .next t) :
    M.run (m + n) s = M.run n t := by
  induction m generalizing s with
  | zero =>
    simp only [Host.Core.run, Host.Outcome.next.injEq] at h
    subst h
    simp
  | succ m ih =>
    rw [show m + 1 + n = (m + n) + 1 by omega, Host.Core.run]
    rw [Host.Core.run] at h
    cases hs : M.step s with
    | next s' =>
      rw [hs] at h
      exact ih s' h
    | fault r => rw [hs] at h; cases h
    | refused r => rw [hs] at h; cases h

end Sys2Proof.Machine
end

