-- ==== Sys2Proof/Laws/Sequencer.lean ====
section
/-! SUPPORT. What the start of an LED can do, said once for each of its two callers (R194; R199, R200), and the counters
on numbers. -/

namespace Sys2Proof.Machine

/-- A counter that is not zero goes down by one and does not wrap (R151 (c), (d), (e), (h)). -/
theorem toNat_pred {w : Nat} {x : BitVec w} (h : x ≠ 0) : (x - 1).toNat + 1 = x.toNat := by
  have hx : x.toNat ≠ 0 := fun h' => h (BitVec.eq_of_toNat_eq (by simpa using h'))
  have hl := x.isLt
  have hw : 0 < w := by
    rcases Nat.eq_zero_or_pos w with rfl | hw
    · simp at hl; omega
    · exact hw
  have h1 : (1 : BitVec w).toNat = 1 := Nat.mod_eq_of_lt (Nat.one_lt_two_pow (by omega))
  rw [BitVec.toNat_sub, h1, show 2 ^ w - 1 + x.toNat = (x.toNat - 1) + 2 ^ w by omega, Nat.add_mod_right,
    Nat.mod_eq_of_lt (by omega)]
  omega

/-- `firstLed`, run by run. -/
theorem firstLed_lead (c : Config) {e : Engine} (h : e.nlead ≠ 0) :
    firstLed c e = startLed c 0 { e with nlead := e.nlead - 1 } := by
  rcases seqNext_cases e with ⟨_, k⟩ | ⟨a, _⟩ | ⟨a, _⟩ | ⟨a, _⟩
  · simp [firstLed, k, zeroBase]
  all_goals exact absurd a h

theorem firstLed_colored (c : Config) {e : Engine} (h : e.nlead = 0) (hc : e.ncol ≠ 0) :
    firstLed c e = startLed c 3 { e with ncol := e.ncol - 1 } := by
  rcases seqNext_cases e with ⟨a, _⟩ | ⟨_, _, k⟩ | ⟨_, a, _⟩ | ⟨_, a, _⟩
  · exact absurd h a
  · simp [firstLed, k, colorBase]
  all_goals exact absurd a hc

theorem firstLed_trail (c : Config) {e : Engine} (h : e.nlead = 0) (hc : e.ncol = 0) (ht : e.ntrail ≠ 0) :
    firstLed c e = startLed c 0 { e with ntrail := e.ntrail - 1 } := by
  rcases seqNext_cases e with ⟨a, _⟩ | ⟨_, a, _⟩ | ⟨_, _, _, k⟩ | ⟨_, _, a, _⟩
  · exact absurd h a
  · exact absurd hc a
  · simp [firstLed, k, zeroBase]
  · exact absurd a ht

theorem firstLed_end (c : Config) {e : Engine} (h : e.nlead = 0) (hc : e.ncol = 0) (ht : e.ntrail = 0) :
    firstLed c e = { e with phase := .arm } := by
  rcases seqNext_cases e with ⟨a, _⟩ | ⟨_, a, _⟩ | ⟨_, _, a, _⟩ | ⟨_, _, _, k⟩
  · exact absurd h a
  · exact absurd hc a
  · exact absurd ht a
  · simp [firstLed, k]

/-- Everything the first `SEQ.NEXT` of a render call can do (R194). -/
theorem firstLed_cases (c : Config) (e : Engine) :
    (e.nlead ≠ 0 ∧ firstLed c e = startLed c 0 { e with nlead := e.nlead - 1 }) ∨
    (e.nlead = 0 ∧ e.ncol ≠ 0 ∧ firstLed c e = startLed c 3 { e with ncol := e.ncol - 1 }) ∨
    (e.nlead = 0 ∧ e.ncol = 0 ∧ e.ntrail ≠ 0 ∧ firstLed c e = startLed c 0 { e with ntrail := e.ntrail - 1 }) ∨
    (e.nlead = 0 ∧ e.ncol = 0 ∧ e.ntrail = 0 ∧ firstLed c e = { e with phase := .arm }) := by
  by_cases h : e.nlead = 0
  · by_cases hc : e.ncol = 0
    · by_cases ht : e.ntrail = 0
      · exact .inr (.inr (.inr ⟨h, hc, ht, firstLed_end c h hc ht⟩))
      · exact .inr (.inr (.inl ⟨h, hc, ht, firstLed_trail c h hc ht⟩))
    · exact .inr (.inl ⟨h, hc, firstLed_colored c h hc⟩)
  · exact .inl ⟨h, firstLed_lead c h⟩

/-- Everything `SEQ.NEXT` and the start of its LED can do later in a frame (R199, R200). -/
theorem nextLed_cases (c : Config) (e : Engine) :
    (e.nlead ≠ 0 ∧ nextLed c e = startLed c 0 { e with nlead := e.nlead - 1 }) ∨
    (e.nlead = 0 ∧ e.ncol ≠ 0 ∧ nextLed c e = startLed c 3 { e with ncol := e.ncol - 1 }) ∨
    (e.nlead = 0 ∧ e.ncol = 0 ∧ e.ntrail ≠ 0 ∧ nextLed c e = startLed c 0 { e with ntrail := e.ntrail - 1 }) ∨
    (e.nlead = 0 ∧ e.ncol = 0 ∧ e.ntrail = 0 ∧ nextLed c e = frameOver e) := by
  rcases seqNext_cases e with ⟨a, k⟩ | ⟨a, b, k⟩ | ⟨a, b, c, k⟩ | ⟨a, b, c, k⟩
  · exact .inl ⟨a, by simp [nextLed, k, zeroBase]⟩
  · exact .inr (.inl ⟨a, b, by simp [nextLed, k, colorBase]⟩)
  · exact .inr (.inr (.inl ⟨a, b, c, by simp [nextLed, k, zeroBase]⟩))
  · exact .inr (.inr (.inr ⟨a, b, c, by simp [nextLed, k]⟩))

/-- The registers `SEQ.NEXT` and the start of an LED never touch. -/
theorem firstLed_frame (c : Config) (e : Engine) :
    (firstLed c e).mem = e.mem ∧ (firstLed c e).total = e.total ∧ (firstLed c e).pinDir = e.pinDir ∧
      (firstLed c e).t0 = e.t0 ∧ (firstLed c e).gapCnt = e.gapCnt := by
  rcases firstLed_cases c e with ⟨_, k⟩ | ⟨_, _, k⟩ | ⟨_, _, _, k⟩ | ⟨_, _, _, k⟩ <;> simp [k]

/-- The registers `SEQ.NEXT` and the start of an LED never touch. -/
theorem nextLed_frame (c : Config) (e : Engine) :
    (nextLed c e).mem = e.mem ∧ (nextLed c e).total = e.total ∧ (nextLed c e).pinDir = e.pinDir ∧
      (nextLed c e).t0 = e.t0 ∧ (nextLed c e).gapCnt = e.gapCnt := by
  rcases nextLed_cases c e with ⟨_, k⟩ | ⟨_, _, k⟩ | ⟨_, _, _, k⟩ | ⟨_, _, _, k⟩ <;> simp [k]

/-- Everything the last cycle of an LED can do (R199). -/
theorem txEndLed_cases (c : Config) (e : Engine) :
    (e.nlead = 0 ∧ e.ncol = 0 ∧ e.ntrail = 0 ∧ txEndLed c e = frameOver { e with cnt := 0, cyc := 0 }) ∨
    (¬ (e.nlead = 0 ∧ e.ncol = 0 ∧ e.ntrail = 0) ∧ c.gapCyc = 0 ∧
      txEndLed c e = nextLed c { e with cnt := 0, cyc := 0 }) ∨
    (¬ (e.nlead = 0 ∧ e.ncol = 0 ∧ e.ntrail = 0) ∧ c.gapCyc ≠ 0 ∧
      txEndLed c e = { e with
        cnt := 0, cyc := 0, phase := .gap, gapCnt := BitVec.ofNat 8 c.gapCyc, pinLevel := .low }) := by
  unfold txEndLed
  by_cases h : e.nlead = 0 ∧ e.ncol = 0 ∧ e.ntrail = 0
  · exact .inl ⟨h.1, h.2.1, h.2.2, if_pos h⟩
  · by_cases hg : c.gapCyc = 0
    · exact .inr (.inl ⟨h, hg, by rw [if_neg h, if_pos hg]⟩)
    · exact .inr (.inr ⟨h, hg, by rw [if_neg h, if_neg hg]⟩)

/-- Everything a cycle of the gap can do (R200). -/
theorem gapArm_cases (c : Config) (e : Engine) :
    (1 < e.gapCnt.toNat ∧ gapArm c e = { e with gapCnt := e.gapCnt - 1 }) ∨
    (e.gapCnt.toNat ≤ 1 ∧ gapArm c e = nextLed c { e with gapCnt := 0 }) := by
  have hg : (1 < e.gapCnt) ↔ 1 < e.gapCnt.toNat := by rw [BitVec.lt_def]; rfl
  unfold gapArm
  by_cases h : 1 < e.gapCnt.toNat
  · exact .inl ⟨h, if_pos (hg.2 h)⟩
  · exact .inr ⟨by omega, if_neg (fun k => h (hg.1 k))⟩

/-- What every admitted configuration satisfies (R104 to R107, R110). -/
theorem config_facts (c : Config) :
    1 ≤ c.sched.t0h ∧ c.sched.t0h < c.sched.t0l ∧ c.sched.t1l < c.sched.t1h ∧ 1 ≤ c.sched.t1l ∧
      c.sched.t0h + c.sched.t0l = c.sched.tbit ∧ c.sched.t1h + c.sched.t1l = c.sched.tbit ∧ c.sched.tbit ≤ 32 ∧
      c.gapCyc ≤ 255 := by
  have h := c.scheduleOk
  simp only [RawConfig.scheduleAdmitted, Schedule.shapeOk, Bool.and_eq_true, decide_eq_true_eq] at h
  obtain ⟨⟨⟨h1, h2, h3, h4, h5, h6, h7⟩, -⟩, h8⟩ := h
  exact ⟨h1, h2, h3, h4, h5, h6, h7, h8⟩

/-- The HIGH and LOW segments of a bit are both there and fill the period (R103 to R106). -/
theorem segments (c : Config) (b : Bool) :
    1 ≤ highCycles c b ∧ 1 ≤ lowCycles c b ∧ highCycles c b + lowCycles c b = c.sched.tbit := by
  have h := config_facts c
  cases b <;> simp [highCycles, lowCycles] <;> omega

end Sys2Proof.Machine
end

