-- ==== Sys2Proof/Laws/Run.lean ====
section
/-! SUPPORT. Runs of the machine step by step, what a step does to the registers and to the environment, and the frames of
the arms of TX, GAP and WAIT. -/

namespace Sys2Proof.Machine

open Sys2Proof.Safety

/-! ### Runs -/

@[simp] theorem runFor_zero (s : State) : runFor 0 s = .next s := rfl

/-- One step first. -/
theorem runFor_succ_of {n : Nat} {s u : State} (h : step s = .next u) : runFor (n + 1) s = runFor n u :=
  run_succ_of Sys2Proof.core n s u h

/-- One step last. -/
theorem runFor_succ_end {n : Nat} {s u : State} (h : runFor n s = .next u) : runFor (n + 1) s = step u :=
  run_succ Sys2Proof.core n s u h

theorem runFor_add {m n : Nat} {s u : State} (h : runFor m s = .next u) : runFor (m + n) s = runFor n u :=
  run_add Sys2Proof.core m n s u h

/-- A run that answers a next state took its first step. -/
theorem runFor_succ_cases {n : Nat} {s t : State} (h : runFor (n + 1) s = .next t) :
    ∃ u, step s = .next u ∧ runFor n u = .next t :=
  run_succ_cases Sys2Proof.core n s t h

/-- A run that answers a next state took its last step. -/
theorem runFor_succ_end_cases {n : Nat} {s t : State} (h : runFor (n + 1) s = .next t) :
    ∃ u, runFor n s = .next u ∧ step u = .next t := by
  induction n generalizing s with
  | zero =>
    obtain ⟨u, h1, h2⟩ := runFor_succ_cases h
    rw [runFor_zero] at h2
    exact ⟨s, rfl, by rw [h1, h2]⟩
  | succ n ih =>
    obtain ⟨u, h1, h2⟩ := runFor_succ_cases h
    obtain ⟨v, h3, h4⟩ := ih h2
    exact ⟨v, by rw [runFor_succ_of h1]; exact h3, h4⟩

/-- The inputs of the cycles after a run are those of the later cycles before it. -/
theorem runFor_inputAt {n : Nat} {s t : State} (h : runFor n s = .next t) (k : Nat) :
    Ops.inputAt t k = Ops.inputAt s (k + n) := by
  induction n generalizing s with
  | zero => rw [runFor_zero] at h; cases h; rfl
  | succ n ih =>
    obtain ⟨u, h1, h2⟩ := runFor_succ_cases h
    rw [ih h2, step_next_advance h1, inputAt_advance]
    rfl

/-! ### The registers after a step -/

/-- Everything a step can do to the registers. -/
theorem step_eng_cases {s t : State} (h : step s = .next t) :
    (s.port.rst = true ∧ t.eng = Engine.reset s.cfg) ∨
    (∃ w i, Ops.accepted s = some w ∧ decode w = .ok i ∧ t.eng = commandEffect s.cfg i s.eng) ∨
    (∃ w r, Ops.accepted s = some w ∧ decode w = .error r ∧ t.eng = s.eng) ∨
    (s.port.rst = false ∧ Ops.accepted s = none ∧ phaseArm s.cfg s.port.usNow s.eng = .ok t.eng) := by
  rcases step_cases s with ⟨h1, k⟩ | ⟨w, i, h1, h2, k⟩ | ⟨w, e, h1, h2, k⟩ | ⟨h1, h2, k⟩ <;> rw [k] at h
  · simp only [Ops.resetCycle, Host.Outcome.next.injEq] at h
    subst h
    exact .inl ⟨h1, rfl⟩
  · simp only [Host.Outcome.next.injEq] at h
    subst h
    exact .inr (.inl ⟨w, i, h1, h2, rfl⟩)
  · simp only [Host.Outcome.next.injEq] at h
    subst h
    exact .inr (.inr (.inl ⟨w, e, h1, h2, rfl⟩))
  · obtain ⟨e, he, rfl⟩ := finish_eq_next h
    exact .inr (.inr (.inr ⟨h1, h2, he⟩))

/-- The step of a busy engine whose arm succeeds. -/
theorem step_busy_ok {s : State} {e : Engine} (hr : s.port.rst = false) (hp : s.eng.phase ≠ .idle)
    (h : phaseArm s.cfg s.port.usNow s.eng = .ok e) : step s = .next (Ops.advance s e) := by
  rw [step_busy hr hp, quietCycle, h]
  rfl

/-- The step of phase TX when the byte cursor is mapped. -/
theorem step_tx {s : State} {byte : Byte} (hr : s.port.rst = false) (hp : s.eng.phase = .tx)
    (hb : Ops.memRead s.eng.mem s.eng.ptr = .ok byte) :
    step s = .next (Ops.advance s (txBit s.cfg (bitOf byte s.eng.bitIdx) s.eng)) :=
  step_busy_ok hr (by simp [hp]) (by simp [phaseArm, hp, txArm, hb])

/-! ### Frames of the arms -/

/-- The registers the end of an LED never touches. -/
theorem txEndLed_frame (c : Config) (e : Engine) :
    (txEndLed c e).mem = e.mem ∧ (txEndLed c e).total = e.total ∧ (txEndLed c e).pinDir = e.pinDir ∧
      (txEndLed c e).t0 = e.t0 := by
  rcases txEndLed_cases c e with ⟨_, _, _, k⟩ | ⟨_, _, k⟩ | ⟨_, _, k⟩ <;> rw [k]
  · exact ⟨rfl, rfl, rfl, rfl⟩
  · have h := nextLed_frame c { e with cnt := 0, cyc := 0 }
    exact ⟨h.1, h.2.1, h.2.2.1, h.2.2.2.1⟩
  · exact ⟨rfl, rfl, rfl, rfl⟩

/-- The registers the TX arm never touches. -/
theorem txBit_frame (c : Config) (b : Bool) (e : Engine) :
    (txBit c b e).mem = e.mem ∧ (txBit c b e).total = e.total ∧ (txBit c b e).pinDir = e.pinDir ∧
      (txBit c b e).t0 = e.t0 := by
  rcases txBit_cases c b e with ⟨_, k⟩ | ⟨_, _, k⟩ | ⟨_, _, _, k⟩ | ⟨_, _, _, k⟩ <;> rw [k]
  · exact ⟨rfl, rfl, rfl, rfl⟩
  · exact ⟨rfl, rfl, rfl, rfl⟩
  · exact ⟨rfl, rfl, rfl, rfl⟩
  · exact txEndLed_frame c e

/-- The registers the GAP arm never touches. -/
theorem gapArm_frame (c : Config) (e : Engine) :
    (gapArm c e).mem = e.mem ∧ (gapArm c e).total = e.total ∧ (gapArm c e).pinDir = e.pinDir ∧ (gapArm c e).t0 = e.t0 := by
  rcases gapArm_cases c e with ⟨_, k⟩ | ⟨_, k⟩ <;> rw [k]
  · exact ⟨rfl, rfl, rfl, rfl⟩
  · have h := nextLed_frame c { e with gapCnt := 0 }
    exact ⟨h.1, h.2.1, h.2.2.1, h.2.2.2.1⟩

/-- Everything a cycle of the wait can do (R202). -/
theorem waitArm_cases (c : Config) (us : Nat) (e : Engine) :
    (c.latchUs ≤ elapsed c us e.t0 ∧ waitArm c us e = { e with phase := .idle }) ∨
    (elapsed c us e.t0 < c.latchUs ∧ waitArm c us e = e) := by
  unfold waitArm latchDone
  by_cases h : c.latchUs ≤ elapsed c us e.t0
  · exact .inl ⟨h, by rw [decide_eq_true h]; rfl⟩
  · exact .inr ⟨by omega, by rw [decide_eq_false h]; rfl⟩

/-- The elapsed time is the difference of the clock and the timestamp modulo 2^`US_W`, on integers (R164). -/
theorem elapsed_eq_emod (c : Config) (us t0 : Nat) :
    (elapsed c us t0 : Int) = ((us : Int) - (t0 : Int)) % (2 ^ c.usW : Int) := by
  unfold elapsed clockValue
  have hw : 0 < 2 ^ c.usW := Nat.two_pow_pos _
  have ht := Nat.mod_lt t0 hw
  push_cast [Nat.cast_sub (Nat.le_of_lt ht)]
  rw [show (us : Int) % 2 ^ c.usW + (2 ^ c.usW - (t0 : Int) % 2 ^ c.usW) =
      ((us : Int) % 2 ^ c.usW - (t0 : Int) % 2 ^ c.usW) + 2 ^ c.usW by ring, Int.add_emod_right, ← Int.sub_emod]

theorem clockValue_lt (c : Config) (us : Nat) : clockValue c us < 2 ^ c.usW := Nat.mod_lt _ (Nat.two_pow_pos _)

theorem elapsed_lt (c : Config) (us t0 : Nat) : elapsed c us t0 < 2 ^ c.usW := Nat.mod_lt _ (Nat.two_pow_pos _)

/-- The window with the constant of R9 read off (R135). -/
theorem windowCycles_eq (c : Config) (leds : Nat) :
    windowCycles c leds = leds * 24 * c.sched.tbit + (leds - 1) * c.gapCyc := by
  rw [windowCycles, config_bitsPerLed]

/-- An operand that fits the register is stored as it is (R173). -/
theorem storedTotal_of_fits {c : Config} {total : Total} (h : total.toNat < 2 ^ c.totalW) :
    storedTotal c total = total.toNat := if_pos h

/-- What CONFIG stores fits the register (R21). -/
theorem storedTotal_lt (c : Config) (total : Total) : storedTotal c total < 2 ^ c.totalW := by
  unfold storedTotal
  split
  · assumption
  · exact Nat.mod_lt _ (Nat.two_pow_pos _)

end Sys2Proof.Machine
end

