-- ==== Sys2Proof/Tests/Slice0.lean ====
section
/-! SUPPORT. The model's own tests: ill-formed operands and configurations, words written out bit by bit, one step of each
command and of each phase, and a witness for the hypotheses of every obligation. Expected results are from
95_test_vectors.md, whose vector or row each comment names. -/

namespace Sys2Proof.Tests

open Sys2Proof.Machine Sys2Proof.Safety

/-! ### Ill-formed terms: one for each check -/

/-- R85: `config 65536` is out of range, `config 65535` is not. -/
theorem test_total_out_of_range :
    (TextCommand.config 65536).check = some .total ∧ (TextCommand.config 65536).wellFormed = false ∧
    (TextCommand.config 65535).wellFormed = true := by decide

/-- V11: each operand of RENDER is 0 to 255; the check names the one that is not. -/
theorem test_render_operands_out_of_range :
    (TextCommand.render 256 0 0 0 0).check = some .lead ∧
    (TextCommand.render 0 256 0 0 0).check = some .count ∧
    (TextCommand.render 0 0 256 0 0).check = some .red ∧
    (TextCommand.render 0 0 0 256 0).check = some .green ∧
    (TextCommand.render 0 0 0 0 256).check = some .blue ∧
    (TextCommand.render 255 255 255 255 255).check = none := by decide

/-- R231: a clock of 12 MHz, or of 8 MHz less 1 Hz, has no engine. -/
theorem test_unsupported_clock :
    Config.build (defaultRaw 12000000 schedule16) = .error .unsupportedClock ∧
    Config.build (defaultRaw 7999999 schedule8) = .error .unsupportedClock := ⟨rfl, rfl⟩

/-- A schedule of `tbit` cycles at 8 MHz with a 0 of 3 and a 1 of `tbit - 3` HIGH cycles. -/
def scheduleOf (tbit : Nat) : Schedule := { tbit := tbit, t0h := 3, t0l := tbit - 3, t1h := tbit - 3, t1l := 3 }

/-- 95_test_vectors.md section 2.2: at 8 MHz `TBIT` 9 and 11 are within the tolerance, 8 and 12 are not. -/
theorem test_tolerance :
    (defaultRaw 8000000 (scheduleOf 9)).scheduleAdmitted = true ∧
    (defaultRaw 8000000 (scheduleOf 11)).scheduleAdmitted = true ∧
    (defaultRaw 8000000 (scheduleOf 8)).scheduleAdmitted = false ∧
    (defaultRaw 8000000 (scheduleOf 12)).scheduleAdmitted = false := by decide

/-- R110: each of the shape conditions is refused: no HIGH segment, a 0 that is not shorter HIGH, a 1 that is not longer
HIGH, no LOW segment, parts that do not add up; and a gap of 256. -/
theorem test_bad_schedules :
    Schedule.shapeOk { tbit := 10, t0h := 0, t0l := 10, t1h := 7, t1l := 3 } = false ∧
    Schedule.shapeOk { tbit := 10, t0h := 5, t0l := 5, t1h := 7, t1l := 3 } = false ∧
    Schedule.shapeOk { tbit := 10, t0h := 3, t0l := 7, t1h := 5, t1l := 5 } = false ∧
    Schedule.shapeOk { tbit := 10, t0h := 3, t0l := 7, t1h := 10, t1l := 0 } = false ∧
    Schedule.shapeOk { tbit := 10, t0h := 3, t0l := 6, t1h := 7, t1l := 3 } = false ∧
    Schedule.shapeOk { tbit := 10, t0h := 3, t0l := 7, t1h := 7, t1l := 4 } = false ∧
    Config.build { defaultRaw 8000000 schedule8 with gapCyc := 256 } = .error .badSchedule :=
  ⟨by decide, by decide, by decide, by decide, by decide, by decide, rfl⟩

/-- R9, R10: each constant of the document at another value, a `TOTAL_W` below 9, a `TOTAL_INIT` that does not fit and a
clock of no bit are refused; other widths are admitted. -/
theorem test_bad_parameters :
    Config.build { defaultRaw 8000000 schedule8 with chW := 7 } = .error .badParameter ∧
    Config.build { defaultRaw 8000000 schedule8 with bytesPerLed := 4 } = .error .badParameter ∧
    Config.build { defaultRaw 8000000 schedule8 with bitsPerLed := 32 } = .error .badParameter ∧
    Config.build { defaultRaw 8000000 schedule8 with leadW := 9 } = .error .badParameter ∧
    Config.build { defaultRaw 8000000 schedule8 with countW := 7 } = .error .badParameter ∧
    Config.build { defaultRaw 8000000 schedule8 with cmdW := 64 } = .error .badParameter ∧
    Config.build { defaultRaw 8000000 schedule8 with totalW := 8 } = .error .badParameter ∧
    Config.build { defaultRaw 8000000 schedule8 with totalInit := 65536 } = .error .badParameter ∧
    Config.build { defaultRaw 8000000 schedule8 with usW := 0 } = .error .badParameter ∧
    (∃ c, Config.build { defaultRaw 8000000 schedule8 with totalW := 9, usW := 64 } = .ok c) :=
  ⟨rfl, rfl, rfl, rfl, rfl, rfl, rfl, rfl, rfl, _, rfl⟩

/-! ### Words written out bit by bit (R82 to R86) -/

/-- INIT: `op` = 00000001, forty zero bits (R82). -/
theorem test_decode_init :
    decode 0b000000010000000000000000000000000000000000000000 = .ok .init := rfl

/-- CONFIG 12: `op` = 00000010, twenty-four zero bits, then 12 in sixteen bits (R83). -/
theorem test_decode_config :
    decode 0b000000100000000000000000000000000000000000001100 = .ok (.config 12) := rfl

/-- RENDER 3, 2, 255, 0, 0: `op` = 00000011, then the five fields (R84, V7). -/
theorem test_decode_render :
    decode 0b000000110000001100000010111111110000000000000000 = .ok (.render 3 2 255 0 0) := rfl

/-- RENDER with five different fields: 1, 2, 4, 8, 16 (R84). -/
theorem test_decode_render_fields :
    decode 0b000000110000000100000010000001000000100000010000 = .ok (.render 1 2 4 8 16) := rfl

/-- R86: the reserved words of 95_test_vectors.md section 2.1, and the neighbours of CONFIG's bits 16 and 39. -/
theorem test_decode_reserved :
    decode 0x010000000001 = .error .initOperand ∧ decode 0x018000000000 = .error .initOperand ∧
    decode 0x020000010000 = .error .configHighBits ∧ decode 0x028000000000 = .error .configHighBits ∧
    decode 0x000000000000 = .error .opcode ∧ decode 0x040000000000 = .error .opcode ∧
    decode 0xFF0000000000 = .error .opcode := ⟨rfl, rfl, rfl, rfl, rfl, rfl, rfl⟩

/-- The host's numbering of a row's bits is the word's own (R80). -/
theorem test_decodeTableWord :
    decodeTableWord 48 0x010000000000 = some .init ∧ decodeTableWord 48 0x02000000FFFF = some (.config 65535) ∧
    decodeTableWord 48 0x030A050000FF = some (.render 10 5 0 0 255) ∧ decodeTableWord 48 0 = none ∧
    decodeTableWord 56 0x010000000000 = none := ⟨rfl, rfl, rfl, rfl, rfl⟩

/-- 95_test_vectors.md section 2.1, encoding of text: `init`, `config 12`, `render 1, 1, 0, 0, 0xAA`. -/
theorem test_assemble :
    assembleLine ['i', 'n', 'i', 't'] = .ok (some 0x010000000000) ∧
    assembleLine ['c', 'o', 'n', 'f', 'i', 'g', ' ', '1', '2'] = .ok (some 0x02000000000C) ∧
    assembleLine ['r', 'e', 'n', 'd', 'e', 'r', ' ', '1', ',', ' ', '1', ',', ' ', '0', ',', ' ', '0', ',', ' ',
      '0', 'x', 'A', 'A'] = .ok (some 0x0301010000AA) := ⟨rfl, rfl, rfl⟩

/-- R89: a comment, an operand out of range, an unknown word. -/
theorem test_assemble_errors :
    assembleLine [';', ' ', 'x'] = .ok none ∧
    assembleLine ['c', 'o', 'n', 'f', 'i', 'g', ' ', '6', '5', '5', '3', '6'] = .error (.outOfRange .total) ∧
    assembleLine ['I', 'N', 'I', 'T'] = .error .unknownMnemonic := ⟨rfl, rfl, rfl⟩

/-! ### Small states -/

/-- The ports of a cycle in which the host presents a word. -/
def presents (w : CmdWord) : CycleInput := { rst := false, cmdValid := true, cmd := w, usNow := 0 }

/-- The ports of a quiet cycle at a clock value. -/
def quietAt (us : Nat) : CycleInput := { rst := false, cmdValid := false, cmd := 0, usNow := us }

/-- An engine in IDLE with its pin an output. -/
def idleEngine (total : Nat) : Engine := { Engine.reset config8 with total := total, pinDir := .output }

/-- An engine in IDLE, and a word on the port; `n` quiet cycles follow. -/
def idleWith (total : Nat) (w : CmdWord) (n : Nat) : State :=
  { cfg := config8, eng := idleEngine total, port := presents w, script := List.replicate n CycleInput.quiet, tick := 0 }

/-- An engine in a quiet cycle. -/
def quietState (c : Config) (e : Engine) : State :=
  { cfg := c, eng := e, port := CycleInput.quiet, script := [], tick := 0 }

/-- Cycle 100 of the reset in mid-render (95_test_vectors.md section 2.6). -/
def midRender : Engine :=
  { total := 1, pinDir := .output, pinLevel := .low, phase := .tx, mem := [(3, 255), (4, 255), (5, 255)], nlead := 0,
    ncol := 0, ntrail := 0, ptr := 4, cnt := 2, bitIdx := 6, cyc := 7, gapCnt := 0, t0 := 0 }

/-- The last cycle of the only LED of a frame. -/
def lastCycle : Engine := { midRender with ptr := 5, cnt := 1, bitIdx := 0, cyc := 9 }

/-- A configuration with a gap of two cycles (95_test_vectors.md section 2.4). -/
def config8Gap : Config :=
  { toRawConfig := { defaultRaw 8000000 schedule8 with gapCyc := 2 }, clockOk := by decide, scheduleOk := by decide,
    parametersOk := by decide }

/-- A configuration with `TOTAL_W` = 9 and a clock of 8 bits. -/
def configNarrow : Config :=
  { toRawConfig := { defaultRaw 8000000 schedule8 with totalW := 9, usW := 8, latchUs := 1 }, clockOk := by decide,
    scheduleOk := by decide, parametersOk := by decide }

/-- The first cycle of the gap before one more colored LED. -/
def gapEngine : Engine := { lastCycle with phase := .gap, cnt := 0, cyc := 0, gapCnt := 2, ncol := 1 }

/-- Phase WAIT with the timestamp of the wrap-around vector (95_test_vectors.md section 2.5). -/
def waitEngine : Engine := { midRender with phase := .wait, t0 := 0xFFFFFFF0 }

/-! ### One step of each command and of each phase -/

/-- 95_test_vectors.md section 2.6: `init` in the reset state. -/
theorem test_init :
    ∃ t, step { State.reset with port := presents 0x010000000000 } = .next t ∧
      t.eng = { Engine.reset config8 with pinDir := .output, pinLevel := .low } := ⟨_, rfl, by decide⟩

/-- 95_test_vectors.md section 2.6: INIT twice changes nothing. -/
theorem test_init_twice :
    ∃ t, step (idleWith 7 0x010000000000 0) = .next t ∧ t.eng = idleEngine 7 := ⟨_, rfl, by decide⟩

/-- 95_test_vectors.md section 2.6: `config 65535`, and `config 0` after it. -/
theorem test_config :
    (∃ t, step (idleWith 0 0x02000000FFFF 0) = .next t ∧ t.eng = idleEngine 65535) ∧
    (∃ t, step (idleWith 65535 0x020000000000 0) = .next t ∧ t.eng = idleEngine 0) :=
  ⟨⟨_, rfl, by decide⟩, ⟨_, rfl, by decide⟩⟩

/-- 95_test_vectors.md section 2.6: a word in phase WAIT is held off, and `TOTAL` keeps its value. -/
theorem test_config_held_off :
    ∃ t, step { quietState config8 waitEngine with port := { presents 0x020000000007 with usNow := 0x21 } } = .next t ∧
      t.eng = waitEngine := ⟨_, rfl, by decide⟩

/-- V7: 3 leading, 2 colored red, 7 trailing of 12; the first leading LED starts, in wire order green, red, blue. -/
theorem test_render :
    ∃ t, step (idleWith 12 0x030302FF0000 0) = .next t ∧ t.eng.nlead = 2 ∧ t.eng.ncol = 2 ∧ t.eng.ntrail = 7 ∧
      t.eng.mem = [(4, 255)] ∧ t.eng.ptr = 0 ∧ t.eng.cnt = 3 ∧ t.eng.bitIdx = 7 ∧ t.eng.cyc = 0 ∧
      t.eng.phase = .tx ∧ t.eng.pinLevel = .high := ⟨_, rfl, by decide⟩

/-- P4: the empty frame goes to ARM and sends nothing. -/
theorem test_render_empty :
    ∃ t, step (idleWith 0 0x030000010203 0) = .next t ∧ t.eng.phase = .arm ∧ t.eng.pinLevel = .low ∧
      t.eng.mem = [(3, 2), (4, 1), (5, 3)] := ⟨_, rfl, by decide⟩

/-- 95_test_vectors.md section 2.3: the trailing counts against an 8-bit sum and against a wrapping subtraction. -/
theorem test_trail :
    trailCount 255 255 1 = 0 ∧ trailCount 10 10 5 = 0 ∧ trailCount 511 255 255 = 1 ∧ trailCount 65535 255 255 = 65025 ∧
    trailCount 12 3 2 = 7 ∧ trailRegister 255 255 1 = 0 ∧ trailRegister 10 10 5 = 0 ∧
    trailRegister 511 255 255 = 1 ∧ trailRegister 65535 255 255 = 65025 := by decide

/-- 95_test_vectors.md section 2.4: the window of 12 LEDs, and of 2 LEDs with a gap of 2. -/
theorem test_window : windowCycles config8 12 = 2880 ∧ windowCycles config16 1 = 480 ∧
    windowCycles config8Gap 2 = 482 ∧ windowCycles config8 0 = 0 := by decide

/-- 95_test_vectors.md section 2.2: the byte 0x80, most significant bit first. -/
theorem test_waveByte : (waveByte config8 0x80).take 4 = [(.high, 7), (.low, 3), (.high, 3), (.low, 7)] := by decide

/-- 95_test_vectors.md section 2.6: `rst` in cycle 100 of a render gives the reset state in cycle 101. -/
theorem test_reset_mid_render :
    ∃ t, step { quietState config8 midRender with port := { presents 0x010000000000 with rst := true } } = .next t ∧
      t.eng = Engine.reset config8 := ⟨_, rfl, by decide⟩

/-- 95_test_vectors.md section 2.6: in phase TX a word has no effect and the TX arm runs: `CYC` 7 goes to 8. -/
theorem test_tx_ignores_command :
    ∃ t, step { quietState config8 midRender with port := presents 0x010000000000 } = .next t ∧
      t.eng = { midRender with cyc := 8 } := ⟨_, rfl, by decide⟩

/-- R199: the end of the frame. -/
theorem test_tx_end :
    ∃ t, step (quietState config8 lastCycle) = .next t ∧
      t.eng = { lastCycle with phase := .arm, cnt := 0, cyc := 0 } := ⟨_, rfl, by decide⟩

/-- R199, R200: a gap of two cycles before the next LED. -/
theorem test_gap :
    (∃ t, step (quietState config8Gap { lastCycle with ncol := 1 }) = .next t ∧ t.eng = gapEngine) ∧
    (∃ t, step (quietState config8Gap gapEngine) = .next t ∧ t.eng = { gapEngine with gapCnt := 1 }) ∧
    (∃ t, step (quietState config8Gap { gapEngine with gapCnt := 1 }) = .next t ∧
      t.eng.phase = .tx ∧ t.eng.ptr = 3 ∧ t.eng.ncol = 0) :=
  ⟨⟨_, rfl, by decide⟩, ⟨_, rfl, by decide⟩, ⟨_, rfl, by decide⟩⟩

/-- 95_test_vectors.md section 2.5, wrap-around: at clock 34 the elapsed time is 50, at 33 it is 49. -/
theorem test_wait_wraps :
    latchDone config8 34 0xFFFFFFF0 = true ∧ latchDone config8 33 0xFFFFFFF0 = false := by decide

/-- D6, D12: an operand that fits a `TOTAL_W` of 9 is stored, and an 8-bit clock wraps at 256. -/
theorem test_narrow_widths :
    storedTotal configNarrow 511 = 511 ∧ storedTotal config8 65535 = 65535 ∧
    elapsed configNarrow 258 255 = 3 ∧ clockValue configNarrow 258 = 2 := by decide

/-- 95_test_vectors.md section 2.5: ARM in cycle 7 at 8 MHz leaves WAIT in cycle 400 and not in cycle 399. -/
theorem test_reference_clock :
    latchDone config8 (refClock config8 0 400) (refClock config8 0 7) = true ∧
    latchDone config8 (refClock config8 0 399) (refClock config8 0 7) = false := by decide

/-- `withFetchWord` places a word that the very next step accepts, from reset. -/
theorem test_withFetchWord :
    Ops.accepted (State.reset.withFetchWord 48 0x02000000000C) = some 0x02000000000C ∧
    step (State.reset.withFetchWord 48 0x02000000000C) =
      exec (.config 12) (State.reset.withFetchWord 48 0x02000000000C) := ⟨rfl, rfl⟩

/-! ### Witnesses: for every obligation with hypotheses, states and operands that meet them

A run of `n` steps as a hypothesis is met by the concrete run of `n` = 1. -/

/-- In a state with `n` quiet cycles scripted there is no reset in `n + 1` cycles. -/
theorem noReset_of_quiet {n : Nat} {s : State} (hp : s.port.rst = false)
    (hs : s.script = List.replicate n CycleInput.quiet) : NoReset (n + 1) s := by
  intro k hk
  cases k with
  | zero => exact hp
  | succ k =>
    have hk' : k < n := by omega
    simp [Ops.inputAt, hs, hk', CycleInput.quiet]

/-- ReservedWordsAreRefusedAndChangeNothing: a reserved word of each kind, accepted. -/
theorem witness_ReservedWords :
    ∀ w ∈ [(0x000000000000 : CmdWord), 0x040000000000, 0x010000000001, 0x020000010000],
      (idleWith 7 w 0).port.rst = false ∧ (idleWith 7 w 0).port.cmdValid = true ∧
      (idleWith 7 w 0).eng.phase = .idle ∧ ∃ e, decode (idleWith 7 w 0).port.cmd = .error e := by
  intro w hw
  simp only [List.mem_cons, List.not_mem_nil, or_false] at hw
  rcases hw with rfl | rfl | rfl | rfl <;> exact ⟨rfl, rfl, rfl, _, rfl⟩

/-- StepRunsDecodedInstruction: in IDLE, while busy, and in reset. -/
theorem witness_StepRunsDecodedInstruction :
    (∃ (s : State) (i : Instr), s.port.cmdValid = true ∧ decode s.port.cmd = .ok i ∧ s.eng.phase = .idle) ∧
    (∃ (s : State) (i : Instr), s.port.cmdValid = true ∧ decode s.port.cmd = .ok i ∧ s.eng.phase = .tx) ∧
    (∃ (s : State) (i : Instr), s.port.cmdValid = true ∧ decode s.port.cmd = .ok i ∧ s.port.rst = true) :=
  ⟨⟨idleWith 12 0x030302FF0000 0, .render 3 2 255 0 0, rfl, rfl, rfl⟩,
   ⟨{ quietState config8 midRender with port := presents 0x010000000000 }, .init, rfl, rfl, rfl⟩,
   ⟨{ quietState config8 midRender with port := { presents 0x010000000000 with rst := true } }, .init, rfl, rfl, rfl⟩⟩

/-- ResetWinsOverEverything. -/
theorem witness_ResetWinsOverEverything :
    ∃ s : State, s.port.rst = true ∧ s.port.cmdValid = true ∧ s.eng.phase = .tx :=
  ⟨{ quietState config8 midRender with port := { presents 0x010000000000 with rst := true } }, rfl, rfl, rfl⟩

/-- IdleArm: no command, a command, a reserved word. -/
theorem witness_IdleArm :
    (∃ s : State, s.port.rst = false ∧ s.eng.phase = .idle ∧ s.port.cmdValid = false) ∧
    (∃ (s : State) (i : Instr), s.port.rst = false ∧ s.eng.phase = .idle ∧ s.port.cmdValid = true ∧
      decode s.port.cmd = .ok i) ∧
    (∃ (s : State) (e : Reserved), s.port.rst = false ∧ s.eng.phase = .idle ∧ s.port.cmdValid = true ∧
      decode s.port.cmd = .error e) ∧
    (∃ s t : State, s.port.rst = false ∧ s.eng.phase = .idle ∧ step s = .next t ∧
      ∀ lead count red green blue, decode s.port.cmd ≠ .ok (.render lead count red green blue)) :=
  ⟨⟨State.reset, rfl, rfl, rfl⟩, ⟨idleWith 0 0x02000000FFFF 0, .config 65535, rfl, rfl, rfl, rfl⟩,
   ⟨idleWith 0 0 0, .opcode, rfl, rfl, rfl, rfl⟩,
   ⟨idleWith 0 0x010000000000 0, _, rfl, rfl, rfl, fun l n r g b h => by
     have h' : (Except.ok Instr.init : Except Reserved Instr) = .ok (.render l n r g b) := h
     cases h'⟩⟩

/-- CommandsAreHeldOffWhileBusy: each busy phase. -/
theorem witness_CommandsAreHeldOffWhileBusy :
    (quietState config8 midRender).eng.phase ≠ .idle ∧ (quietState config8Gap gapEngine).eng.phase ≠ .idle ∧
    (quietState config8 { midRender with phase := .arm }).eng.phase ≠ .idle ∧
    (quietState config8 waitEngine).eng.phase ≠ .idle := by decide

/-- OutputPorts. -/
theorem witness_OutputPorts : (quietState config8 midRender).eng.pinDir = .output := rfl

/-- InitMakesThePinAnOutput, ConfigSetsTheTotal: the pin an input and the pin an output; a second cycle without reset. -/
theorem witness_InitAndConfig :
    (State.reset.port.rst = false ∧ State.reset.eng.phase = .idle) ∧
    ((idleWith 7 0x010000000000 1).port.rst = false ∧ (idleWith 7 0x010000000000 1).eng.phase = .idle ∧
      ∃ t, exec .init (idleWith 7 0x010000000000 1) = .next t ∧ t.port.rst = false) :=
  ⟨⟨rfl, rfl⟩, rfl, rfl, _, rfl, rfl⟩

/-- RenderAcceptance, RenderStoresWireOrder (with witness_RegistersChange), RenderFrame: one witness for each clause, at the ends of its range. -/
theorem witness_RenderAcceptance :
    (∀ total, (idleWith total 0 0).port.rst = false ∧ (idleWith total 0 0).eng.phase = .idle) ∧
    ((255 : Byte) ≠ 0 ∧ (1 : Byte) ≠ 0) ∧
    trailCount 1 0 0 ≠ 0 ∧ trailCount 65535 0 0 ≠ 0 ∧ trailCount 0 0 0 = 0 ∧
    frameLeds (idleWith 0 0 0).eng.total 0 0 = 0 ∧
    (∃ t, exec (.render 255 1 1 2 3) (idleWith 255 0 0) = .next t) ∧
    (∃ t, exec (.render 0 0 1 2 3) (idleWith 0 0 0) = .next t) :=
  ⟨fun _ => ⟨rfl, rfl⟩, by decide, by decide, by decide, by decide, by decide, ⟨_, rfl⟩, ⟨_, rfl⟩⟩

/-- RenderFrame: an address outside the stored bytes, and one among them. -/
theorem witness_RenderFrame_address :
    (∀ i : Fin 3, (2 : RecAddr).toNat ≠ Ops.colorAddr i) ∧ (∀ i : Fin 3, (6 : RecAddr).toNat ≠ Ops.colorAddr i) ∧
    ¬ (∀ i : Fin 3, (3 : RecAddr).toNat ≠ Ops.colorAddr i) := by decide

/-- ConfigSetsTheTotal, IdleArm: an operand that fits by the width, one that fits a smaller width, and one that does not. -/
theorem witness_ConfigSetsTheTotal :
    16 ≤ (idleWith 7 0 0).cfg.totalW ∧ (511 : Total).toNat < 2 ^ configNarrow.totalW ∧
    ¬ (512 : Total).toNat < 2 ^ configNarrow.totalW := by decide

/-- InitAndConfigFrame: both commands. -/
theorem witness_InitAndConfigFrame :
    (∀ lead count red green blue, Instr.init ≠ .render lead count red green blue) ∧
    (∀ lead count red green blue, Instr.config 65535 ≠ .render lead count red green blue) ∧
    (∃ t, exec .init (idleWith 7 0 0) = .next t) ∧ (∃ t, exec (.config 65535) (idleWith 7 0 0) = .next t) :=
  ⟨by simp, by simp, ⟨_, rfl⟩, ⟨_, rfl⟩⟩

/-- PinDirectionDoesNotSteerTheEngine, ConfigurationIsFixed: a run of one step, a RENDER accepted before INIT. -/
theorem witness_run :
    ∃ t, runFor 1 { State.reset with port := presents 0x030001000000 } = .next t ∧ t.eng.phase = .tx ∧
      t.eng.pinDir = .input := ⟨_, rfl, rfl, rfl⟩

/-- FrameLengthIsTheMaximum: an exact fit and one LED over (95_test_vectors.md section 2.3, rows 256 and 255). -/
theorem witness_FrameLength : requestFits 256 255 1 = true ∧ requestFits 255 255 1 = false := by decide

/-- SequencerTakesTheRunsInOrder: one engine for each run, with counters at 1 and at their largest. -/
theorem witness_SequencerTakesTheRunsInOrder :
    ({ midRender with nlead := 255, ncol := 1 }).nlead ≠ 0 ∧
    (({ midRender with ncol := 1 }).nlead = 0 ∧ ({ midRender with ncol := 1 }).ncol ≠ 0) ∧
    (({ midRender with ntrail := 65535 }).ncol = 0 ∧ ({ midRender with ntrail := 65535 }).ntrail ≠ 0) ∧
    (midRender.nlead = 0 ∧ midRender.ncol = 0 ∧ midRender.ntrail = 0) := by decide

/-- RecordMemoryReads, RecordWriteThenRead: addresses at the ends of each range. -/
theorem witness_RecordMemory :
    (0 : RecAddr).toNat < 3 ∧ (2 : RecAddr).toNat < 3 ∧ 6 ≤ (6 : RecAddr).toNat ∧ 6 ≤ (7 : RecAddr).toNat ∧
    (4 : RecAddr).toNat ≠ Ops.colorAddr 0 ∧ (0 : RecAddr).toNat ≠ Ops.colorAddr 2 := by decide

/-- StepKeepsMemoryCanonical: a RENDER over a memory that is not empty. -/
theorem witness_StepKeepsMemoryCanonical :
    Memory.wf ({ idleWith 1 0x0300010F8001 0 with eng := { idleEngine 1 with mem := midRender.mem } }).eng.mem = true ∧
    ∃ t, step { idleWith 1 0x0300010F8001 0 with eng := { idleEngine 1 with mem := midRender.mem } } = .next t :=
  ⟨by decide, _, rfl⟩

/-- TxInsideABit, RecordMemoryReads: the first cycle and the last but one of a bit. -/
theorem witness_TxInsideABit :
    (quietState config8 midRender).port.rst = false ∧ midRender.phase = .tx ∧
    Ops.memRead midRender.mem midRender.ptr = .ok 255 ∧
    ({ midRender with cyc := 0 }).cyc.toNat + 1 < config8.sched.tbit ∧
    ({ midRender with cyc := 8 }).cyc.toNat + 1 < config8.sched.tbit := ⟨rfl, rfl, rfl, by decide, by decide⟩

/-- TxNextBitFollows, TxNextByteFollows, TxEndOfAnLed: the last cycle of a bit, of a byte and of an LED. -/
theorem witness_TxLastCycles :
    (quietState config8 lastCycle).port.rst = false ∧ lastCycle.phase = .tx ∧
    Ops.memRead lastCycle.mem lastCycle.ptr = .ok 255 ∧ lastCycle.cyc.toNat + 1 = config8.sched.tbit ∧
    ({ lastCycle with bitIdx := 7 }).bitIdx ≠ 0 ∧ ({ lastCycle with bitIdx := 1 }).bitIdx ≠ 0 ∧
    lastCycle.bitIdx = 0 ∧ 1 < ({ lastCycle with ptr := 4, cnt := 2 }).cnt.toNat ∧ lastCycle.cnt = 1 :=
  ⟨rfl, rfl, rfl, by decide, by decide, by decide, rfl, by decide, rfl⟩

/-- TxEndOfAnLed: each clause: the frame over, no gap with each run next, and a gap. -/
theorem witness_TxEndOfAnLed_clauses :
    (lastCycle.nlead = 0 ∧ lastCycle.ncol = 0 ∧ lastCycle.ntrail = 0) ∧
    (config8.gapCyc = 0 ∧ ({ lastCycle with nlead := 1 }).nlead ≠ 0) ∧
    (({ lastCycle with ncol := 1 }).nlead = 0 ∧ ({ lastCycle with ncol := 1 }).ncol ≠ 0) ∧
    (({ lastCycle with ntrail := 1 }).ncol = 0 ∧ ({ lastCycle with ntrail := 1 }).ntrail ≠ 0) ∧
    (config8Gap.gapCyc ≠ 0 ∧ ¬ (({ lastCycle with ncol := 1 }).nlead = 0 ∧ ({ lastCycle with ncol := 1 }).ncol = 0 ∧
      ({ lastCycle with ncol := 1 }).ntrail = 0)) := by decide

/-- GapCycle: each clause, at `GAPCNT` 2 and 1. -/
theorem witness_GapCycle :
    (quietState config8Gap gapEngine).port.rst = false ∧ gapEngine.phase = .gap ∧
    ¬ (gapEngine.nlead = 0 ∧ gapEngine.ncol = 0 ∧ gapEngine.ntrail = 0) ∧ 1 < gapEngine.gapCnt.toNat ∧
    ({ gapEngine with gapCnt := 1 }).gapCnt.toNat ≤ 1 ∧
    ({ gapEngine with gapCnt := 1, nlead := 1 }).nlead ≠ 0 ∧ (gapEngine.nlead = 0 ∧ gapEngine.ncol ≠ 0) ∧
    (({ gapEngine with ncol := 0, ntrail := 1 }).ncol = 0 ∧ ({ gapEngine with ncol := 0, ntrail := 1 }).ntrail ≠ 0) := by
  decide

/-- GapCycle: the whole gap, with no reset in it. -/
theorem witness_GapCycle_whole :
    let s := { quietState config8Gap gapEngine with script := [CycleInput.quiet] }
    s.eng.phase = .gap ∧ 1 ≤ s.eng.gapCnt.toNat ∧ NoReset s.eng.gapCnt.toNat s ∧
    s.eng.gapCnt.toNat = s.cfg.gapCyc ∧ s.eng.pinLevel = .low ∧ 1 ≤ s.cfg.gapCyc ∧ NoReset s.cfg.gapCyc s :=
  ⟨rfl, by decide, noReset_of_quiet (n := 1) rfl rfl, by decide, rfl, by decide, noReset_of_quiet (n := 1) rfl rfl⟩

/-- ArmRecordsTheTimestamp, WaitComparesModulo: the phases, and the clock just before and at the end of the wait. -/
theorem witness_ArmAndWait :
    ({ midRender with phase := .arm }).phase = .arm ∧ waitEngine.phase = .wait ∧
    (config8.latchUs : Int) ≤ (34 - (waitEngine.t0 : Int)) % (2 ^ config8.usW : Int) ∧
    (33 - (waitEngine.t0 : Int)) % (2 ^ config8.usW : Int) < (config8.latchUs : Int) := by decide

/-- StepStopsOnlyOnAnUnmappedRead: the two addresses that stop, and the last that does not. -/
theorem witness_StepStops :
    step (quietState config8 { midRender with ptr := 6 }) = .fault (.unmappedRecordRead 6) ∧
    step (quietState config8 { midRender with ptr := 7 }) = .fault (.unmappedRecordRead 7) ∧
    ∃ t, step (quietState config8 { midRender with ptr := 5 }) = .next t := ⟨rfl, rfl, _, rfl⟩

/-- StepKeepsInvariant, InvariantStatesNeverStop, TransmissionEnds, GuardWindowBracketsTheFrame: states of phases TX and
GAP that meet the invariant. -/
theorem witness_StateInv_tx : StateInv (quietState config8 midRender) := by
  unfold StateInv EngineInv LevelInv TxInv GapInv WidthInv
  decide

theorem witness_StateInv_lastCycle : StateInv (quietState config8 lastCycle) := by
  unfold StateInv EngineInv LevelInv TxInv GapInv WidthInv
  decide

theorem witness_StateInv_gap : StateInv (quietState config8Gap gapEngine) := by
  unfold StateInv EngineInv LevelInv TxInv GapInv WidthInv
  decide

theorem witness_StateInv_idle : StateInv (idleWith 12 0x030302FF0000 0) := by
  unfold StateInv EngineInv LevelInv TxInv GapInv WidthInv
  decide

/-- GuardWindowBracketsTheFrame: a step that opens the window, one that closes it, and one that closes it by reset. -/
theorem witness_GuardWindow :
    (∃ t, step (idleWith 12 0x030302FF0000 0) = .next t ∧ guardAcquired (idleEngine 12) t.eng = true) ∧
    (∃ t, step (quietState config8 lastCycle) = .next t ∧ guardReleased lastCycle t.eng = true) ∧
    (∃ t, step { quietState config8 midRender with port := { CycleInput.quiet with rst := true } } = .next t ∧
      guardReleased midRender t.eng = true) ∧
    ({ midRender with cyc := 6, pinLevel := .high }).pinLevel = .high :=
  ⟨⟨_, rfl, by decide⟩, ⟨_, rfl, by decide⟩, ⟨_, rfl, by decide⟩, rfl⟩

/-- RegistersChangeOnlyWhereAssigned: a step for each clause in which the register changes. -/
theorem witness_RegistersChange :
    (∃ t, step (idleWith 7 0x020000000000 0) = .next t ∧ t.eng.total ≠ (idleEngine 7).total) ∧
    (∃ t, step { State.reset with port := presents 0x010000000000 } = .next t ∧
      t.eng.pinDir ≠ State.reset.eng.pinDir) ∧
    (∃ t, step (idleWith 0 0x030000010203 0) = .next t ∧ t.eng.mem ≠ (idleEngine 0).mem) ∧
    (∃ t, step { quietState config8 { midRender with phase := .arm } with port := quietAt 30 } = .next t ∧
      t.eng.t0 ≠ midRender.t0) ∧
    (∃ t, step (quietState config8Gap gapEngine) = .next t ∧ t.eng.gapCnt ≠ gapEngine.gapCnt) ∧
    (quietState config8Gap gapEngine).port.rst = false :=
  ⟨⟨_, rfl, by decide⟩, ⟨_, rfl, by decide⟩, ⟨_, rfl, by decide⟩, ⟨_, rfl, by decide⟩, ⟨_, rfl, by decide⟩, rfl⟩

/-- RegistersChangeOnlyWhereAssigned: a step for each of the other clauses: the level, the phase, a run counter and the
position at the start of an LED. -/
theorem witness_RegistersChange_session :
    (∃ t, step (idleWith 12 0x030302FF0000 0) = .next t ∧ t.eng.pinLevel ≠ (idleEngine 12).pinLevel ∧
      t.eng.phase ≠ (idleEngine 12).phase ∧ t.eng.nlead ≠ (idleEngine 12).nlead ∧
      t.eng.cnt ≠ (idleEngine 12).cnt) ∧
    (∃ t, step (quietState config8Gap { gapEngine with gapCnt := 1 }) = .next t ∧ t.eng.ncol ≠ gapEngine.ncol ∧
      t.eng.ptr ≠ gapEngine.ptr ∧ t.eng.bitIdx ≠ gapEngine.bitIdx) ∧
    (∃ t, step (quietState config8 { lastCycle with ntrail := 1 }) = .next t ∧ t.eng.ntrail ≠ 1 ∧
      t.eng.cyc ≠ lastCycle.cyc) ∧
    (∃ t, step (quietState config8Gap { lastCycle with ncol := 1 }) = .next t ∧ t.eng.gapCnt ≠ lastCycle.gapCnt ∧
      t.eng.phase = .gap) :=
  ⟨⟨_, rfl, by decide⟩, ⟨_, rfl, by decide⟩, ⟨_, rfl, by decide⟩, ⟨_, rfl, by decide⟩⟩

/-- TransmissionFrame: each of the three ways not to be at the end of an LED, and the end of one. -/
theorem witness_TransmissionFrame :
    (midRender.phase = .tx ∧ midRender.cyc.toNat + 1 < config8.sched.tbit) ∧
    ({ lastCycle with bitIdx := 1 }).bitIdx ≠ 0 ∧ 1 < ({ lastCycle with ptr := 4, cnt := 2 }).cnt.toNat ∧
    (∃ t, step (quietState config8 midRender) = .next t) ∧ (∃ t, step (quietState config8 lastCycle) = .next t) :=
  ⟨by decide, by decide, by decide, ⟨_, rfl⟩, ⟨_, rfl⟩⟩

/-- PinStaysAnOutput: a run of one step. -/
theorem witness_PinStaysAnOutput :
    NoReset 1 (idleWith 1 0x030001000000 0) ∧ (idleWith 1 0x030001000000 0).eng.pinDir = .output ∧
    ∃ t, runFor 1 (idleWith 1 0x030001000000 0) = .next t :=
  ⟨noReset_of_quiet rfl rfl, rfl, _, rfl⟩

/-- ClockReadOnlyByTheLatchTimer. -/
theorem witness_ClockReadOnly : midRender.phase ≠ .arm ∧ midRender.phase ≠ .wait ∧
    gapEngine.phase ≠ .arm ∧ gapEngine.phase ≠ .wait ∧ (idleEngine 0).phase ≠ .arm ∧ (idleEngine 0).phase ≠ .wait := by
  decide

/-- SymbolOnTheLine: the first cycle of a bit, with quiet cycles to its end. -/
theorem witness_SymbolOnTheLine :
    let s := { quietState config8 { midRender with cyc := 0, pinLevel := .high } with
      script := List.replicate 8 CycleInput.quiet }
    s.eng.phase = .tx ∧ s.eng.cyc = 0 ∧ s.eng.pinLevel = .high ∧ Ops.memRead s.eng.mem s.eng.ptr = .ok 255 ∧
    NoReset (s.cfg.sched.tbit - 1) s :=
  ⟨rfl, rfl, rfl, rfl, noReset_of_quiet rfl rfl⟩

/-- FrameWaveformOnTheLine: a frame of one LED, `W` = 240, and the empty frame, `W` = 0. -/
theorem witness_FrameWaveformOnTheLine :
    (let s := idleWith 0 0x0300010F8001 241
     s.eng.phase = .idle ∧ s.port.cmdValid = true ∧ decode s.port.cmd = .ok (.render 0 1 0x0F 0x80 0x01) ∧
     NoReset (windowCycles s.cfg (frameLeds s.eng.total 0 1) + 2) s ∧ frameLeds s.eng.total 0 1 = 1) ∧
    (let s := idleWith 0 0x030000010203 1
     s.eng.phase = .idle ∧ s.port.cmdValid = true ∧ decode s.port.cmd = .ok (.render 0 0 1 2 3) ∧
     NoReset (windowCycles s.cfg (frameLeds s.eng.total 0 0) + 2) s ∧ frameLeds s.eng.total 0 0 = 0) ∧
    (∃ l, (levels (frameWave config8 (frameRecords 0 0 1 0x0F 0x80 0x01)))[0]? = some l) :=
  ⟨⟨rfl, rfl, rfl, noReset_of_quiet rfl rfl, rfl⟩, ⟨rfl, rfl, rfl, noReset_of_quiet rfl rfl, rfl⟩, _, rfl⟩

/-- WaveformShape, TransmissionReadsBytesInOrder: the ends of the ranges of `j` and of `base + n`. -/
theorem witness_WaveformShape :
    0 < 8 * [(0x80 : Byte)].length ∧ 7 < 8 * [(0x80 : Byte)].length ∧ (0 : RecAddr).toNat + 6 ≤ 6 ∧
    (6 : RecAddr).toNat + 0 ≤ 6 ∧ ¬ (7 : RecAddr).toNat + 0 ≤ 6 := by decide

/-- BitPeriodWithinTolerance. -/
theorem witness_BitPeriod :
    (config8.periodNs = 1250 ∧ config8.tolNs = 150 ∧ config8.fClk = 8000000) ∧
    (config16.periodNs = 1250 ∧ config16.tolNs = 150 ∧ config16.fClk = 16000000) := by decide

/-- UnsupportedClockFailsToBuild: frequencies beside the two supported ones. -/
theorem witness_UnsupportedClock :
    (7999999 : Nat) ≠ 8000000 ∧ (7999999 : Nat) ≠ 16000000 ∧ (0 : Nat) ≠ 8000000 ∧ (0 : Nat) ≠ 16000000 := by decide

/-- IllFormedScheduleFailsToBuild: a set of parameters that is built and one that is not, both at a supported clock. -/
theorem witness_IllFormedSchedule :
    ((defaultRaw 8000000 (scheduleOf 11)).fClk = 8000000 ∧
      ∃ c, Config.build (defaultRaw 8000000 (scheduleOf 11)) = .ok c) ∧
    ((defaultRaw 8000000 (scheduleOf 12)).fClk = 8000000 ∧
      ¬ ∃ c, Config.build (defaultRaw 8000000 (scheduleOf 12)) = .ok c) := by
  refine ⟨⟨rfl, _, rfl⟩, rfl, ?_⟩
  rintro ⟨c, h⟩
  have h' : (Except.error ConfigError.badSchedule : Except ConfigError Config) = .ok c := h
  cases h'

/-- IllFormedScheduleFailsToBuild: constants that are admitted, and a well-formed schedule with one that is not. -/
theorem witness_IllFormedSchedule_parameters :
    (defaultRaw 8000000 (scheduleOf 11)).parametersAdmitted = true ∧
    ({ defaultRaw 8000000 schedule8 with chW := 7 }).parametersAdmitted = false ∧
    ({ defaultRaw 8000000 schedule8 with chW := 7 }).scheduleAdmitted = true := by decide

/-- FrameLengthIsTheMaximum: the largest total of the smallest and of the default width. -/
theorem witness_FrameLength_width : 511 < 2 ^ configNarrow.totalW ∧ 65535 < 2 ^ config8.totalW := by decide

/-- TransmissionEnds: a frame one cycle from its end, with no reset in it. -/
theorem witness_TransmissionEnds :
    StateInv (quietState config8 lastCycle) ∧ (quietState config8 lastCycle).eng.phase = .tx ∧
    NoReset 1 (quietState config8 lastCycle) ∧
    StateInv (quietState config8Gap gapEngine) ∧ (quietState config8Gap gapEngine).eng.phase = .gap :=
  ⟨witness_StateInv_lastCycle, rfl, noReset_of_quiet rfl rfl, witness_StateInv_gap, rfl⟩

/-- WaitEndsWhenTheClockSaysSo: one cycle of waiting at clock 33, the end at clock 34. -/
theorem witness_WaitEnds :
    let s := { quietState config8 waitEngine with port := quietAt 33, script := [quietAt 34] }
    LatchClockStalled 1 s ∧ NoReset 2 s ∧ s.cfg.latchUs ≤ elapsed s.cfg (Ops.inputAt s 1).usNow s.eng.t0 := by
  refine ⟨⟨rfl, ?_⟩, ?_, by decide⟩
  · intro m hm
    have : m = 0 := by omega
    subst this
    decide
  · intro k hk
    rcases k with _ | _ | k
    · rfl
    · rfl
    · omega

/-- RenderReturnsWhenTheClockAdvances: the empty frame, the clock at 0 in the ARM cycle and at 50 in the next. -/
theorem witness_RenderReturns :
    let s := { idleWith 0 0x030000010203 0 with script := [quietAt 0, quietAt 50] }
    s.eng.phase = .idle ∧ s.port.cmdValid = true ∧ decode s.port.cmd = .ok (.render 0 0 1 2 3) ∧
    windowCycles s.cfg (frameLeds s.eng.total 0 0) = 0 ∧ ClockAdvances s 1 2 ∧ NoReset 3 s := by
  refine ⟨rfl, rfl, rfl, rfl, ⟨by decide, by decide⟩, ?_⟩
  intro k hk
  rcases k with _ | _ | _ | k
  · rfl
  · rfl
  · rfl
  · omega

/-- BusyFallsOnlyAfterTheLatchWait: a step in which `busy` falls. -/
theorem witness_BusyFalls :
    ∃ t, step { quietState config8 waitEngine with port := quietAt 34 } = .next t ∧ busy waitEngine = true ∧
      busy t.eng = false := ⟨_, rfl, by decide, by decide⟩

/-- ReferenceClockWait: the ARM cycle itself, and the last cycle before the clock could come round. -/
theorem witness_ReferenceClockWait :
    7 ≤ 7 ∧ 7 - 7 < 2 ^ 32 ∧ 7 ≤ 7 + 4294967295 ∧ 7 + 4294967295 - 7 < 2 ^ 32 := by decide

/-- ReferenceClockWait: the machine from ARM cycle 7 with `LATCH_US` = 1: WAIT in cycle 8, IDLE in cycle 9. -/
theorem witness_ReferenceClockWait_run :
    let s := { quietState configNarrow { midRender with phase := .arm } with script := [quietAt 1] }
    s.eng.phase = .arm ∧ 1 ≤ s.cfg.latchUs ∧ s.cfg.cycPerUs * (7 / s.cfg.cycPerUs + s.cfg.latchUs) = 8 ∧
    8 - 7 < 2 ^ s.cfg.usW ∧ NoReset (8 - 7 + 1) s ∧
    (∀ k, k ≤ 8 - 7 → (Ops.inputAt s k).usNow = refClock s.cfg 0 (7 + k)) := by
  refine ⟨rfl, by decide, by decide, by decide, ?_, ?_⟩
  · intro k hk
    rcases k with _ | _ | k
    · rfl
    · rfl
    · omega
  · intro k hk
    rcases k with _ | _ | k
    · rfl
    · rfl
    · omega

/-- SessionRegistersAreDeadInIdle: two engines in IDLE with different session registers, and a run of one step. -/
theorem witness_SessionRegisters :
    let s := idleWith 1 0x030001000000 0
    let e := { midRender with phase := .idle }
    s.eng.phase = .idle ∧ e.phase = .idle ∧ e.total = s.eng.total ∧ e.pinDir = s.eng.pinDir ∧
    e.pinLevel = s.eng.pinLevel ∧ e ≠ s.eng ∧ ∃ t, runFor 1 s = .next t :=
  ⟨rfl, rfl, rfl, rfl, rfl, by decide, _, rfl⟩

/-- DutifulFramesReachThePin: a dutiful step of a RENDER after INIT. -/
theorem witness_DutifulFrames :
    DutifulRun 1 (idleWith 1 0x030001000000 0) ∧ (idleWith 1 0x030001000000 0).eng.pinDir = .output ∧
    ∃ t, runFor 1 (idleWith 1 0x030001000000 0) = .next t ∧ t.eng.phase = .tx := by
  refine ⟨?_, rfl, _, rfl, rfl⟩
  intro k hk t ht
  have : k = 0 := by omega
  subst this
  rw [runFor_zero] at ht
  cases ht
  rfl

/-- GuardedStepStopsOnBreaches: a command withdrawn, and one changed, while the engine is busy. -/
theorem witness_GuardedStep_busy :
    (let s := { quietState config8 midRender with port := presents 0x010000000000, script := [quietAt 0] }
     s.port.rst = false ∧ s.port.cmdValid = true ∧ s.eng.phase ≠ .idle ∧ (Ops.inputAt s 1).rst = false ∧
     (Ops.inputAt s 1).cmdValid = false) ∧
    (let s := { quietState config8 midRender with port := presents 0x010000000000, script := [presents 0x020000000001] }
     (Ops.inputAt s 1).rst = false ∧ (Ops.inputAt s 1).cmd ≠ s.port.cmd) :=
  ⟨⟨rfl, rfl, by decide, rfl, rfl⟩, rfl, by decide⟩

/-- GuardedStepStopsOnBreaches: a reserved word, a RENDER before INIT, a step without a breach. -/
theorem witness_GuardedStep :
    (∃ e, Ops.accepted (idleWith 0 0 0) = some 0 ∧ decode 0 = .error e) ∧
    (∃ (s : State) (w : CmdWord), Ops.accepted s = some w ∧ decode w = .ok (.render 0 1 0 0 0) ∧ s.eng.pinDir = .input) ∧
    (∃ t, guardedStep (idleWith 1 0x030001000000 0) = .next t) ∧
    breach (idleWith 1 0x030001000000 0) = none :=
  ⟨⟨_, rfl, rfl⟩, ⟨{ State.reset with port := presents 0x030001000000 }, _, rfl, rfl, rfl⟩, ⟨_, rfl⟩, rfl⟩

end Sys2Proof.Tests
end

section
/-! The record memory (20_memory.md): what a read answers at every address, and how phase TX reads it. -/

namespace Sys2Proof.Machine

/-! ### A read at each range of addresses -/

theorem memRead_zeroRecord (m : Memory) {a : RecAddr} (h : a.toNat < 3) : Ops.memRead m a = .ok 0x00 :=
  if_pos h

theorem memRead_colorAddr (m : Memory) {a : RecAddr} {i : Fin 3} (h : a.toNat = Ops.colorAddr i) :
    Ops.memRead m a = .ok (Ops.color m i) := by
  have hlow : ¬ Ops.colorAddr i < 3 := by simp only [Ops.colorAddr]; omega
  have hhigh : Ops.colorAddr i ≤ 5 := by simp only [Ops.colorAddr]; omega
  simp only [Ops.memRead, h, hlow, hhigh, if_false, if_true, Ops.color]

theorem memRead_unmapped (m : Memory) {a : RecAddr} (h : 6 ≤ a.toNat) :
    Ops.memRead m a = .error (.unmappedRecordRead a) := by
  rcases memRead_cases m a with ⟨hlow, _⟩ | ⟨i, hi, _⟩ | ⟨_, hread⟩
  · omega
  · simp only [Ops.colorAddr] at hi
    omega
  · exact hread

/-- The three addresses of the colour record fit an address of the record memory. -/
theorem toNat_ofNat_colorAddr (i : Fin 3) : (BitVec.ofNat 3 (Ops.colorAddr i)).toNat = Ops.colorAddr i :=
  Nat.mod_eq_of_lt (by simp only [Ops.colorAddr]; omega)

/-! ### The step of phase TX -/

theorem step_tx_fault {s : State} {f : Fault} (hr : s.port.rst = false) (hp : s.eng.phase = .tx)
    (hread : Ops.memRead s.eng.mem s.eng.ptr = .error f) : step s = .fault f := by
  rw [step_busy hr (by simp [hp])]
  simp [quietCycle, phaseArm, hp, txArm, hread, Ops.finish]

/-- Settles O24: the three ranges of addresses one by one, and the step of phase TX split on what its read answers
(R62). -/
theorem recordMemoryReads : Obligations.RecordMemoryReads := by
  unfold Obligations.RecordMemoryReads
  refine ⟨fun s hr hp => ?_, fun m => ⟨?_, ?_, ?_⟩⟩
  · cases hread : Ops.memRead s.eng.mem s.eng.ptr with
    | ok byte => exact step_tx hr hp hread
    | error f => exact step_tx_fault hr hp hread
  · exact fun _ => memRead_zeroRecord m
  · exact fun i => memRead_colorAddr m (toNat_ofNat_colorAddr i)
  · exact fun _ => memRead_unmapped m

end Sys2Proof.Machine
end

section
/-! The command words (30_encoding.md, R82 to R84): which words decode to each command, by their fields and by their
match and mask. -/

namespace Sys2Proof

/-! ### Fields and masks of a word as numbers -/

theorem toNat_opInit : opInit.toNat = 1 := rfl
theorem toNat_opConfig : opConfig.toNat = 2 := rfl
theorem toNat_opRender : opRender.toNat = 3 := rfl

/-- `op` is the top of the word (R80), so as a number it is a quotient with nothing cut off above. -/
theorem opField_eq_iff (w : CmdWord) (op : Byte) : opField w = op ↔ w.toNat / 2 ^ 40 = op.toNat := by
  have hw := w.isLt
  rw [opField, ← BitVec.toNat_inj, toNat_field]
  omega

theorem field_eq_zero_iff (w : CmdWord) (lo n : Nat) : field w lo n = 0 ↔ w.toNat / 2 ^ lo % 2 ^ n = 0 := by
  rw [← BitVec.toNat_inj, toNat_field, BitVec.ofNat_eq_ofNat, BitVec.toNat_ofNat, Nat.zero_mod]

/-- A mask of the bits from `lo` up clears the bits below `lo`. -/
theorem toNat_and_highMask (w : CmdWord) (lo : Nat) :
    (w &&& BitVec.allOnes 48 <<< lo).toNat = w.toNat / 2 ^ lo * 2 ^ lo := by
  have hle := Nat.div_mul_le_self w.toNat (2 ^ lo)
  rw [← BitVec.shiftLeft_ushiftRight, BitVec.toNat_shiftLeft, BitVec.toNat_ushiftRight, Nat.shiftLeft_eq,
    Nat.shiftRight_eq_div_pow, Nat.mod_eq_of_lt (hle.trans_lt w.isLt)]

theorem and_highMask_eq_iff (w v : CmdWord) (lo : Nat) :
    w &&& BitVec.allOnes 48 <<< lo = v ↔ w.toNat / 2 ^ lo * 2 ^ lo = v.toNat := by
  rw [← BitVec.toNat_inj, toNat_and_highMask]

/-! ### The words of each command -/

/-- The words that are commands, and the command of each, by the operation code and the fields (R81 to R84). -/
theorem decode_eq_ok_iff (w : CmdWord) (i : Instr) : decode w = .ok i ↔
    (opField w = opInit ∧ field w 0 40 = 0 ∧ .init = i) ∨
    (opField w = opConfig ∧ field w 16 24 = 0 ∧ .config (field w 0 16) = i) ∨
    (opField w = opRender ∧
      .render (field w 32 8) (field w 24 8) (field w 16 8) (field w 8 8) (field w 0 8) = i) := by
  simp only [opField_eq_iff, field_eq_zero_iff, toNat_opInit, toNat_opConfig, toNat_opRender, pow_zero, Nat.div_one]
  rcases decode_cases w with ⟨hop, hrest, hd⟩ | ⟨hop, hrest, hd⟩ | ⟨hop, hhigh, hd⟩ | ⟨hop, hhigh, hd⟩ | ⟨hop, hd⟩ |
    ⟨hinit, hconfig, hrender, hd⟩ <;> simp [-Nat.reducePow, *]

theorem decode_eq_init_iff (w : CmdWord) : decode w = .ok .init ↔ w = 0x010000000000 := by
  have hword : (0x010000000000 : CmdWord).toNat = 1 * 2 ^ 40 := rfl
  simp only [decode_eq_ok_iff, reduceCtorEq, and_true, and_false, or_false]
  rw [opField_eq_iff, field_eq_zero_iff, toNat_opInit, ← BitVec.toNat_inj, hword]
  omega

theorem decode_eq_config_iff (w : CmdWord) (total : Total) :
    decode w = .ok (.config total) ↔ opField w = opConfig ∧ field w 16 24 = 0 ∧ field w 0 16 = total := by
  simp [decode_eq_ok_iff]

theorem decode_eq_render_iff (w : CmdWord) (lead count red green blue : Byte) :
    decode w = .ok (.render lead count red green blue) ↔
      opField w = opRender ∧ field w 32 8 = lead ∧ field w 24 8 = count ∧
        field w 16 8 = red ∧ field w 8 8 = green ∧ field w 0 8 = blue := by
  simp [decode_eq_ok_iff]

/-! ### Match and mask -/

theorem decode_init_iff_masked (w : CmdWord) :
    decode w = .ok .init ↔ w &&& 0xFFFFFFFFFFFF = 0x010000000000 := by
  have hmask : (0xFFFFFFFFFFFF : CmdWord) = BitVec.allOnes 48 := rfl
  rw [decode_eq_init_iff, hmask, BitVec.and_allOnes]

theorem decode_config_iff_masked (w : CmdWord) :
    (∃ total, decode w = .ok (.config total)) ↔ w &&& 0xFFFFFFFF0000 = 0x020000000000 := by
  have hmask : (0xFFFFFFFF0000 : CmdWord) = BitVec.allOnes 48 <<< 16 := rfl
  have hmatch : (0x020000000000 : CmdWord).toNat = 2 * 2 ^ 40 := rfl
  simp only [decode_eq_config_iff, exists_and_left, exists_eq', and_true]
  rw [opField_eq_iff, field_eq_zero_iff, hmask, and_highMask_eq_iff, toNat_opConfig, hmatch]
  omega

theorem decode_render_iff_masked (w : CmdWord) :
    (∃ lead count red green blue, decode w = .ok (.render lead count red green blue)) ↔
      w &&& 0xFF0000000000 = 0x030000000000 := by
  have hmask : (0xFF0000000000 : CmdWord) = BitVec.allOnes 48 <<< 40 := rfl
  have hmatch : (0x030000000000 : CmdWord).toNat = 3 * 2 ^ 40 := rfl
  simp only [decode_eq_render_iff, exists_and_left, exists_eq', and_true]
  rw [opField_eq_iff, hmask, and_highMask_eq_iff, toNat_opRender, hmatch]
  omega

/-- Settles O2: for each command the words that decode to it, by their fields (R82 to R84) and under their mask. -/
theorem commandWordFields : Obligations.CommandWordFields := by
  unfold Obligations.CommandWordFields
  exact fun w => ⟨decode_eq_init_iff w, decode_init_iff_masked w, decode_eq_config_iff w, decode_config_iff_masked w,
    decode_eq_render_iff w, decode_render_iff_masked w⟩

end Sys2Proof
end

section
/-! The Timing Engine (40_timing_engine.md): what a step of phase TX leaves unchanged (R115), and a symbol on the machine
(R104 to R106). -/

namespace Sys2Proof.Machine

open Sys2Proof.Safety

/-! ### The frame of phase TX -/

/-- Inside an LED the TX arm is in one of R196 to R198, and none of these writes a counter or leaves the phase. -/
theorem txBit_frame_inside_led (c : Config) (bit : Bool) (e : Engine)
    (hinside : e.cyc.toNat + 1 < c.sched.tbit ∨ e.bitIdx ≠ 0 ∨ 1 < e.cnt.toNat) :
    (txBit c bit e).nlead = e.nlead ∧ (txBit c bit e).ncol = e.ncol ∧ (txBit c bit e).ntrail = e.ntrail ∧
      (txBit c bit e).gapCnt = e.gapCnt ∧ (txBit c bit e).phase = e.phase := by
  rcases txBit_cases c bit e with ⟨_, h⟩ | ⟨_, _, h⟩ | ⟨_, _, _, h⟩ | ⟨hcyc, hbit, hcnt, _⟩
  · simp [h]
  · simp [h]
  · simp [h]
  · rcases hinside with hlt | hne | hgt
    · omega
    · exact absurd hbit hne
    · omega

/-- A step of phase TX that does not fault is one `txBit`, for the bit the cursor reads. -/
theorem step_tx_next {s t : State} (hr : s.port.rst = false) (hp : s.eng.phase = .tx) (h : step s = .next t) :
    ∃ bit, t.eng = txBit s.cfg bit s.eng := by
  cases hread : Ops.memRead s.eng.mem s.eng.ptr with
  | ok byte =>
    rw [step_tx hr hp hread] at h
    cases h
    exact ⟨_, rfl⟩
  | error f =>
    rw [step_tx_fault hr hp hread] at h
    cases h

/-- Settles O40: a step of phase TX is one `txBit`, whose frame holds everywhere for the session registers, and inside an
LED for the counters (R115). -/
theorem transmissionFrame : Obligations.TransmissionFrame := by
  unfold Obligations.TransmissionFrame
  intro s t hr hp hstep
  obtain ⟨bit, heng⟩ := step_tx_next hr hp hstep
  obtain ⟨hmem, htotal, hdir, ht0⟩ := txBit_frame s.cfg bit s.eng
  rw [heng, ← hp]
  exact ⟨htotal, hdir, hmem, ht0, txBit_frame_inside_led s.cfg bit s.eng⟩

/-! ### A symbol on the machine -/

/-- The registers in cycle `j` of a bit that begins with the registers `e` (R104, R105): only `CYC` and `PIN_LEVEL` move. -/
def symbolCycle (c : Config) (bit : Bool) (e : Engine) (j : Nat) : Engine :=
  { e with cyc := BitVec.ofNat 5 j, pinLevel := if j < highCycles c bit then .high else .low }

theorem symbolCycle_zero (c : Config) (bit : Bool) {e : Engine} (hcyc : e.cyc = 0) (hlevel : e.pinLevel = .high) :
    symbolCycle c bit e 0 = e := by
  have hhigh : 0 < highCycles c bit := (segments c bit).1
  have hfirst : BitVec.ofNat 5 0 = e.cyc := hcyc.symm
  rw [symbolCycle, if_pos hhigh, hfirst, ← hlevel]

/-- `CYC` has room for every cycle of a bit (R110). -/
theorem symbolCycle_cyc_toNat {c : Config} {j : Nat} (bit : Bool) (e : Engine) (hj : j < c.sched.tbit) :
    (symbolCycle c bit e j).cyc.toNat = j := by
  have hwidth : c.sched.tbit ≤ 32 := (config_facts c).2.2.2.2.2.2.1
  exact Nat.mod_eq_of_lt (by omega)

theorem txBit_symbolCycle {c : Config} {j : Nat} (bit : Bool) (e : Engine) (hj : j + 1 < c.sched.tbit) :
    txBit c bit (symbolCycle c bit e j) = symbolCycle c bit e (j + 1) := by
  have hcyc := symbolCycle_cyc_toNat bit e (Nat.lt_of_succ_lt hj)
  rcases txBit_cases c bit (symbolCycle c bit e j) with ⟨_, h⟩ | ⟨hlast, _⟩ | ⟨hlast, _⟩ | ⟨hlast, _⟩
  · rw [h, txWithinBit, hcyc]
    simp [symbolCycle, BitVec.ofNat_add]
  all_goals omega

/-- From the first cycle of a bit the machine runs through the cycles of its symbol, one step each. -/
theorem runFor_symbol {s : State} {byte : Byte} (hp : s.eng.phase = .tx) (hcyc : s.eng.cyc = 0)
    (hlevel : s.eng.pinLevel = .high) (hread : Ops.memRead s.eng.mem s.eng.ptr = .ok byte)
    (hquiet : NoReset (s.cfg.sched.tbit - 1) s) {j : Nat} (hj : j < s.cfg.sched.tbit) :
    ∃ t, runFor j s = .next t ∧ t.cfg = s.cfg ∧
      t.eng = symbolCycle s.cfg (bitOf byte s.eng.bitIdx) s.eng j := by
  induction j with
  | zero => exact ⟨s, rfl, rfl, (symbolCycle_zero _ _ hcyc hlevel).symm⟩
  | succ j ih =>
    obtain ⟨u, hrun, hcfg, heng⟩ := ih (by omega)
    have hport : u.port = Ops.inputAt s j := by simpa [Ops.inputAt] using runFor_inputAt hrun 0
    have hr : u.port.rst = false := by rw [hport]; exact hquiet j (by omega)
    have hstep := step_tx (s := u) (byte := byte) hr (by rw [heng]; exact hp) (by rw [heng]; exact hread)
    refine ⟨_, (runFor_succ_end hrun).trans hstep, hcfg, ?_⟩
    rw [advance_eng, hcfg, heng]
    exact txBit_symbolCycle _ _ hj

/-- Settles O44: the registers along a bit are those of `symbolCycle`, and every admitted schedule has the order and the
sums of R104 to R106. -/
theorem symbolOnTheLine : Obligations.SymbolOnTheLine := by
  unfold Obligations.SymbolOnTheLine
  constructor
  · intro s byte hp hcyc hlevel hread hquiet j hj
    obtain ⟨t, hrun, -, heng⟩ := runFor_symbol hp hcyc hlevel hread hquiet hj
    refine ⟨t, hrun, ?_⟩
    rw [heng]
    exact ⟨hp, rfl, rfl, symbolCycle_cyc_toNat _ _ hj, rfl⟩
  · intro c
    obtain ⟨ht0h, hzero, hone, ht1l, hsum0, hsum1, -, -⟩ := config_facts c
    exact ⟨hone, ht1l, ht0h, hzero, hsum1, hsum0⟩

end Sys2Proof.Machine
end

section
/-! The Frame Sequencer (42_frame_sequencer.md): the trailing count (R143), the order of the runs (R146), what `SEQ.LOAD`
assigns (R145), and who writes the colour record (R142). -/

namespace Sys2Proof.Machine

/-! ### The trailing count -/

theorem satSub_of_le {a b : Nat} (h : b ≤ a) : satSub a b = a - b := if_pos h

theorem satSub_of_lt {a b : Nat} (h : a < b) : satSub a b = 0 := if_neg (Nat.not_le.2 h)

theorem satSub_le (a b : Nat) : satSub a b ≤ a := by
  rcases Nat.lt_or_ge a b with h | h
  · rw [satSub_of_lt h]
    exact Nat.zero_le a
  · rw [satSub_of_le h]
    exact Nat.sub_le a b

/-- The sum of two bytes is at most 510, so 17 bits hold it. -/
theorem toNat_runSum (lead count : Byte) : (runSum lead count).toNat = lead.toNat + count.toNat := by
  have hlead := lead.isLt
  have hcount := count.isLt
  rw [runSum, BitVec.toNat_add, BitVec.toNat_setWidth_of_le (by omega), BitVec.toNat_setWidth_of_le (by omega)]
  exact Nat.mod_eq_of_lt (by omega)

/-- The comparison in 17 bits is the comparison of the numbers. -/
theorem runSum_le_iff (total : BitVec 16) (lead count : Byte) :
    runSum lead count ≤ total.setWidth 17 ↔ lead.toNat + count.toNat ≤ total.toNat := by
  rw [BitVec.le_def, toNat_runSum, BitVec.toNat_setWidth_of_le (by omega)]

/-- In the first case of R143 the difference is not negative and fits 16 bits, so nothing is cut off; in the second both
sides are 0. -/
theorem toNat_trailRegister (total : BitVec 16) (lead count : Byte) :
    (trailRegister total lead count).toNat = trailCount total.toNat lead count := by
  by_cases h : lead.toNat + count.toNat ≤ total.toNat
  · have hle := (runSum_le_iff total lead count).2 h
    have htotal := total.isLt
    rw [trailRegister, if_pos hle, BitVec.toNat_setWidth, BitVec.toNat_sub_of_le hle, toNat_runSum,
      BitVec.toNat_setWidth_of_le (by omega), trailCount, satSub_of_le h]
    exact Nat.mod_eq_of_lt (by omega)
  · rw [trailRegister, if_neg (mt (runSum_le_iff total lead count).1 h), trailCount, satSub_of_lt (Nat.not_le.1 h)]
    rfl

/-- Settles O20: the integer form is `satSub` itself, and the registers of R143 compute it. -/
theorem trailingCountSaturates : Obligations.TrailingCountSaturates := by
  unfold Obligations.TrailingCountSaturates
  exact ⟨fun total lead count => ⟨rfl, satSub_le total _⟩,
    fun total lead count => ⟨toNat_runSum lead count, toNat_trailRegister total lead count⟩⟩

/-! ### `SEQ.NEXT`, run by run -/

theorem seqNext_lead {e : Engine} (hlead : e.nlead ≠ 0) :
    seqNext e = ({ e with nlead := e.nlead - 1 }, some zeroBase) := by
  rcases seqNext_cases e with ⟨_, h⟩ | ⟨h0, _⟩ | ⟨h0, _⟩ | ⟨h0, _⟩
  · exact h
  all_goals exact absurd h0 hlead

theorem seqNext_colored {e : Engine} (hlead : e.nlead = 0) (hcol : e.ncol ≠ 0) :
    seqNext e = ({ e with ncol := e.ncol - 1 }, some colorBase) := by
  rcases seqNext_cases e with ⟨h, _⟩ | ⟨_, _, h⟩ | ⟨_, h0, _⟩ | ⟨_, h0, _⟩
  · exact absurd hlead h
  · exact h
  all_goals exact absurd h0 hcol

theorem seqNext_trail {e : Engine} (hlead : e.nlead = 0) (hcol : e.ncol = 0) (htrail : e.ntrail ≠ 0) :
    seqNext e = ({ e with ntrail := e.ntrail - 1 }, some zeroBase) := by
  rcases seqNext_cases e with ⟨h, _⟩ | ⟨_, h, _⟩ | ⟨_, _, _, h⟩ | ⟨_, _, h0, _⟩
  · exact absurd hlead h
  · exact absurd hcol h
  · exact h
  · exact absurd h0 htrail

theorem seqNext_end {e : Engine} (hlead : e.nlead = 0) (hcol : e.ncol = 0) (htrail : e.ntrail = 0) :
    seqNext e = (e, none) := by
  rcases seqNext_cases e with ⟨h, _⟩ | ⟨_, h, _⟩ | ⟨_, _, h, _⟩ | ⟨_, _, _, h⟩
  · exact absurd hlead h
  · exact absurd hcol h
  · exact absurd htrail h
  · exact h

/-- Settles O22: one equation of `SEQ.NEXT` for each run, with the counter it takes from not wrapping (R146). -/
theorem sequencerTakesTheRunsInOrder : Obligations.SequencerTakesTheRunsInOrder := by
  unfold Obligations.SequencerTakesTheRunsInOrder
  intro e
  refine ⟨fun hlead => ?_, fun hlead hcol => ?_, fun hlead hcol htrail => ?_, seqNext_end⟩
  · exact ⟨seqNext_lead hlead, toNat_pred hlead⟩
  · exact ⟨seqNext_colored hlead hcol, toNat_pred hcol⟩
  · exact ⟨seqNext_trail hlead hcol htrail, Nat.succ_pred_eq_of_ne_zero htrail⟩

/-- Settles O23: the colour record by the laws of `loadColor`, the other registers by `SEQ.LOAD` itself (R145). -/
theorem sequencerLoad : Obligations.SequencerLoad := by
  unfold Obligations.SequencerLoad
  intro lead count red green blue e
  exact ⟨loadColor_green .., loadColor_red .., loadColor_blue .., seqLoad_nlead .., seqLoad_ncol .., seqLoad_ntrail ..,
    rfl⟩

/-! ### The colour record -/

/-- The registers no cycle without a command touches, whatever the phase. -/
theorem phaseArm_frame {c : Config} {us : Nat} {e e' : Engine} (h : phaseArm c us e = .ok e') :
    e'.mem = e.mem ∧ e'.total = e.total ∧ e'.pinDir = e.pinDir := by
  rcases phaseArm_ok h with ⟨_, rfl⟩ | ⟨_, byte, _, rfl⟩ | ⟨_, rfl⟩ | ⟨_, rfl⟩ | ⟨_, rfl⟩
  · exact ⟨rfl, rfl, rfl⟩
  · obtain ⟨hmem, htotal, hdir, _⟩ := txBit_frame c (bitOf byte e.bitIdx) e
    exact ⟨hmem, htotal, hdir⟩
  · obtain ⟨hmem, htotal, hdir, _⟩ := gapArm_frame c e
    exact ⟨hmem, htotal, hdir⟩
  · exact ⟨rfl, rfl, rfl⟩
  · rcases waitArm_cases c us e with ⟨_, hw⟩ | ⟨_, hw⟩ <;> rw [hw] <;> exact ⟨rfl, rfl, rfl⟩

/-- The one command that writes the colour record is RENDER. -/
theorem render_of_commandEffect_mem_ne {c : Config} {i : Instr} {e : Engine} (h : (commandEffect c i e).mem ≠ e.mem) :
    ∃ lead count red green blue, i = .render lead count red green blue := by
  cases i with
  | init => exact absurd (initEffect_mem e) h
  | config total => exact absurd (configEffect_mem c total e) h
  | render lead count red green blue => exact ⟨lead, count, red, green, blue, rfl⟩

/-- Without reset, only a step that accepts a RENDER changes the colour record. -/
theorem accepted_render_of_mem_ne {s t : State} (hr : s.port.rst = false) (hstep : step s = .next t)
    (hmem : t.eng.mem ≠ s.eng.mem) :
    ∃ w lead count red green blue, Ops.accepted s = some w ∧ decode w = .ok (.render lead count red green blue) := by
  rcases step_eng_cases hstep with ⟨hrst, _⟩ | ⟨w, i, hacc, hdec, heng⟩ | ⟨_, _, _, _, heng⟩ | ⟨_, _, harm⟩
  · rw [hr] at hrst
    cases hrst
  · rw [heng] at hmem
    obtain ⟨lead, count, red, green, blue, rfl⟩ := render_of_commandEffect_mem_ne hmem
    exact ⟨w, lead, count, red, green, blue, hacc, hdec⟩
  · exact absurd (congrArg Engine.mem heng) hmem
  · exact absurd (phaseArm_frame harm).1 hmem

/-- A RENDER stores its colour whichever LED comes first, for the start of an LED leaves the memory alone. -/
@[simp] theorem renderEffect_mem (c : Config) (lead count red green blue : Byte) (e : Engine) :
    (renderEffect c lead count red green blue e).mem = loadColor e.mem red green blue :=
  (firstLed_frame c _).1

/-- An accepted command ends its cycle with its effect. -/
theorem exec_idle_eng {s t : State} {i : Instr} (hr : s.port.rst = false) (hp : s.eng.phase = .idle)
    (h : exec i s = .next t) : t.eng = commandEffect s.cfg i s.eng := by
  rw [exec_eq_present, presentCommand_idle _ hr hp] at h
  cases h
  rfl

/-- Settles O16: the memory after an accepted RENDER is `loadColor`, read at each of its three bytes; and every other step
keeps the memory (R142). -/
theorem renderStoresWireOrder : Obligations.RenderStoresWireOrder := by
  unfold Obligations.RenderStoresWireOrder
  refine ⟨fun s t => accepted_render_of_mem_ne, fun s t lead count red green blue hr hp hexec => ?_⟩
  have hmem : t.eng.mem = loadColor s.eng.mem red green blue := by
    rw [exec_idle_eng hr hp hexec]
    exact renderEffect_mem ..
  rw [hmem, memRead_colorAddr (a := 3) (i := 0) _ rfl, memRead_colorAddr (a := 4) (i := 1) _ rfl,
    memRead_colorAddr (a := 5) (i := 2) _ rfl, loadColor_green, loadColor_red, loadColor_blue]
  exact ⟨rfl, rfl, rfl, rfl, rfl, rfl⟩

end Sys2Proof.Machine
end

section
/-! The host operations (44_host_operations.md): the cycle of an accepted command (R193), and CONFIG (R173). -/

namespace Sys2Proof.Machine

/-- A command accepted in phase IDLE completes in its cycle, with its effect on the registers (R193). -/
theorem exec_idle (i : Instr) {s : State} (hr : s.port.rst = false) (hp : s.eng.phase = .idle) :
    exec i s = .next (Ops.advance s (commandEffect s.cfg i s.eng)) := by
  rw [exec_eq_present, presentCommand_idle _ hr hp]

/-- Every operand of CONFIG fits a `TOTAL_W` of at least 16 bits (R83). -/
theorem operand_fits_of_wide {c : Config} (total : Total) (h : 16 ≤ c.totalW) : total.toNat < 2 ^ c.totalW :=
  total.isLt.trans_le (Nat.pow_le_pow_right Nat.zero_lt_two h)

/-- CONFIG at acceptance, for an operand that fits `TOTAL`. -/
theorem configEffect_of_fits {c : Config} {total : Total} (e : Engine) (h : total.toNat < 2 ^ c.totalW) :
    configEffect c total e = { e with total := total.toNat } := by
  rw [configEffect, storedTotal_of_fits h]

/-- Settles O14: CONFIG accepted ends its cycle with `configEffect`, which writes `TOTAL` alone, and writes the operand
where it fits (R173): by the width of the register, or by the premise itself. -/
theorem configSetsTheTotal : Obligations.ConfigSetsTheTotal := by
  unfold Obligations.ConfigSetsTheTotal
  intro s total hr hp
  refine ⟨_, exec_idle (.config total) hr hp, rfl, hp, fun hwidth => ?_⟩
  have hfits : total.toNat < 2 ^ s.cfg.totalW := hwidth.elim (operand_fits_of_wide total) id
  exact configEffect_of_fits s.eng hfits

end Sys2Proof.Machine
end

section
/-! The start of an LED (45_cycle_machine.md, R194, R195): the position registers it writes, and an accepted RENDER
register by register. -/

namespace Sys2Proof.Machine

/-- `StartLed` with the constants of R9 read off: three bytes, from bit 7 of the first (R195). -/
theorem startLed_eq (c : Config) (base : RecAddr) (e : Engine) :
    startLed c base e = { e with
      ptr := base, cnt := 3, bitIdx := 7, cyc := 0, phase := .tx, pinLevel := .high } := by
  simp [startLed]

/-- Settles O15: the registers after the accepted RENDER are those of `firstLed` after `SEQ.LOAD`, read off run by run
(R194, R195). -/
theorem renderAcceptance : Obligations.RenderAcceptance := by
  unfold Obligations.RenderAcceptance
  intro s lead count red green blue hr hp nt
  have hmem := renderEffect_mem s.cfg lead count red green blue s.eng
  refine ⟨_, exec_idle (.render lead count red green blue) hr hp, ?_⟩
  simp only [advance_eng, commandEffect, hmem]
  refine ⟨loadColor_green .., loadColor_red .., loadColor_blue .., fun hlead => ?_, fun hlead hcol => ?_,
    fun hlead hcol htrail => ?_, fun hlead hcol htrail => ?_⟩
  · exact (firstLed_lead _ hlead).trans (startLed_eq ..)
  · subst hlead
    exact (firstLed_colored _ rfl hcol).trans (startLed_eq ..)
  · subst hlead hcol
    exact (firstLed_trail _ rfl rfl htrail).trans (startLed_eq ..)
  · subst hlead hcol
    have hcount : trailCount s.eng.total 0 0 = 0 := htrail
    rw [renderEffect, firstLed_end _ rfl rfl hcount, seqLoad, hcount]

end Sys2Proof.Machine
end

section
/-! The dispatch of a step (45_cycle_machine.md, R191 to R193): reset, the acceptance of a command, the IDLE arm, and
the command port of a busy engine. -/

namespace Sys2Proof.Machine

/-! ### Reset -/

theorem step_reset {s : State} (h : s.port.rst = true) : step s = Ops.resetCycle s := if_pos h

theorem exec_reset (i : Instr) {s : State} (h : s.port.rst = true) : exec i s = Ops.resetCycle s := by
  rw [exec_eq_present, presentCommand_reset _ h]

theorem accepted_reset {s : State} (h : s.port.rst = true) : Ops.accepted s = none := by
  simp [Ops.accepted, Ops.accept, h]

/-- Settles O7: the step and every `exec` are the reset cycle, and `accept` is false (R191). -/
theorem resetWinsOverEverything : Obligations.ResetWinsOverEverything := by
  unfold Obligations.ResetWinsOverEverything
  intro s hr
  refine ⟨⟨_, step_reset hr, rfl, rfl⟩, accepted_reset hr, fun i => ?_⟩
  rw [exec_reset i hr, step_reset hr]

/-! ### The IDLE arm -/

theorem accepted_eq_some_iff (s : State) (w : CmdWord) :
    Ops.accepted s = some w ↔
      s.port.rst = false ∧ s.port.cmdValid = true ∧ s.eng.phase = .idle ∧ s.port.cmd = w := by
  constructor
  · exact accepted_eq_some
  · rintro ⟨hr, hv, hp, rfl⟩
    exact accepted_of hr hv hp

theorem phaseArm_idle {c : Config} {us : Nat} {e : Engine} (hp : e.phase = .idle) : phaseArm c us e = .ok e := by
  rw [phaseArm, hp]

/-- An IDLE engine with no command keeps its registers (R193). -/
theorem step_idle_no_command {s : State} (hp : s.eng.phase = .idle) (hr : s.port.rst = false)
    (hv : s.port.cmdValid = false) : step s = .next (Ops.advance s s.eng) := by
  have hacc : Ops.accepted s = none := by simp [Ops.accepted, Ops.accept, hv]
  simp [step, hr, hacc, quietCycle, phaseArm_idle hp, Ops.finish]

/-- The step that accepts a command is that command (R193). -/
theorem step_accepted {s : State} {w : CmdWord} {i : Instr} (hacc : Ops.accepted s = some w)
    (hdec : decode w = .ok i) : step s = exec i s := by
  simp [step, (accepted_eq_some hacc).1, hacc, hdec]

/-- The step that accepts a reserved word keeps the registers (R86, R193). -/
theorem step_reserved {s : State} {w : CmdWord} {r : Reserved} (hacc : Ops.accepted s = some w)
    (hdec : decode w = .error r) : step s = .next (Ops.advance s s.eng) := by
  simp [step, (accepted_eq_some hacc).1, hacc, hdec, reservedCycle]

/-- RENDER is the one command whose acceptance leaves IDLE (R193). -/
theorem commandEffect_phase {c : Config} {i : Instr} {e : Engine}
    (h : ∀ lead count red green blue, i ≠ .render lead count red green blue) :
    (commandEffect c i e).phase = e.phase := by
  cases i with
  | init => exact initEffect_phase e
  | config total => exact configEffect_phase c total e
  | render lead count red green blue => exact absurd rfl (h lead count red green blue)

/-- An IDLE engine leaves IDLE only by a RENDER. -/
theorem step_idle_phase {s t : State} (hr : s.port.rst = false) (hp : s.eng.phase = .idle) (hstep : step s = .next t)
    (hcmd : ∀ lead count red green blue, decode s.port.cmd ≠ .ok (.render lead count red green blue)) :
    t.eng.phase = .idle := by
  rcases step_eng_cases hstep with ⟨hrst, _⟩ | ⟨w, i, hacc, hdec, heng⟩ | ⟨_, _, _, _, heng⟩ | ⟨_, _, harm⟩
  · exact absurd hrst (by simp [hr])
  · obtain ⟨-, -, -, rfl⟩ := accepted_eq_some hacc
    rw [heng, commandEffect_phase, hp]
    rintro lead count red green blue rfl
    exact hcmd lead count red green blue hdec
  · rw [heng, hp]
  · rw [phaseArm_idle hp] at harm
    rw [← Except.ok.inj harm, hp]

/-- Settles O10: an IDLE step without a command, with one, and with a reserved word; the registers are those of the
command's effect (R193). -/
theorem idleArm : Obligations.IdleArm := by
  unfold Obligations.IdleArm
  intro s hr hp
  refine ⟨fun hv => ⟨_, step_idle_no_command hp hr hv, rfl⟩, fun hv i hdec => ?_,
    fun hv r hdec => ⟨_, step_reserved (accepted_of hr hv hp) hdec, rfl⟩, fun t => step_idle_phase hr hp⟩
  have hstep := step_accepted (accepted_of hr hv hp) hdec
  refine ⟨hstep, _, hstep.trans (exec_idle i hr hp), ?_, ?_, ?_⟩
  · rintro rfl
    rfl
  · rintro total rfl hfits
    exact configEffect_of_fits s.eng hfits
  · rintro lead count red green blue rfl
    rfl

/-! ### A busy engine -/

theorem exec_busy (i : Instr) {s : State} (hr : s.port.rst = false) (hp : s.eng.phase ≠ .idle) :
    exec i s = quietCycle s := by
  rw [exec_eq_present, presentCommand_busy _ hr hp]

/-- The state with `cmd_valid` and `cmd` replaced in this cycle. -/
def State.withCommand (s : State) (v : Bool) (w : CmdWord) : State :=
  { s with port := { s.port with cmdValid := v, cmd := w } }

/-- Neither reset nor the arm of a phase reads the command port (R191, R192). -/
theorem step_withCommand_busy {s : State} (hp : s.eng.phase ≠ .idle) (v : Bool) (w : CmdWord) :
    step (s.withCommand v w) = step s := by
  cases hr : s.port.rst with
  | true => exact (step_reset (s := s.withCommand v w) hr).trans (step_reset hr).symm
  | false => exact (step_busy (s := s.withCommand v w) hr hp).trans (step_busy hr hp).symm

theorem exec_eq_step_busy (i : Instr) {s : State} (hp : s.eng.phase ≠ .idle) : exec i s = step s := by
  cases hr : s.port.rst with
  | true => rw [exec_reset i hr, step_reset hr]
  | false => rw [exec_busy i hr hp, step_busy hr hp]

/-- Settles O11: `accept` is its three conditions, and a busy step is reset or the arm of its phase, neither of which
reads the command port (R192). -/
theorem commandsAreHeldOffWhileBusy : Obligations.CommandsAreHeldOffWhileBusy := by
  unfold Obligations.CommandsAreHeldOffWhileBusy
  refine ⟨accepted_eq_some_iff, fun e => ?_, fun s hp => ⟨step_withCommand_busy hp, fun i => exec_eq_step_busy i hp⟩⟩
  rw [cmdReady, decide_eq_true_eq]

end Sys2Proof.Machine
end

section
/-! Phase TX, cycle by cycle (45_cycle_machine.md, R196 to R199): a cycle inside a bit, and the last cycle of a bit, of a
byte and of an LED. -/

namespace Sys2Proof.Machine

/-! ### The arm of phase TX, case by case -/

theorem txBit_within {c : Config} (bit : Bool) {e : Engine} (hcyc : e.cyc.toNat + 1 < c.sched.tbit) :
    txBit c bit e = txWithinBit c bit e := if_pos hcyc

theorem txBit_nextBit {c : Config} (bit : Bool) {e : Engine} (hcyc : c.sched.tbit ≤ e.cyc.toNat + 1)
    (hidx : e.bitIdx ≠ 0) : txBit c bit e = txNextBit e := by
  rcases txBit_cases c bit e with ⟨hlt, _⟩ | ⟨_, _, h⟩ | ⟨_, h0, _⟩ | ⟨_, h0, _⟩
  · omega
  · exact h
  all_goals exact absurd h0 hidx

theorem txBit_nextByte {c : Config} (bit : Bool) {e : Engine} (hcyc : c.sched.tbit ≤ e.cyc.toNat + 1)
    (hidx : e.bitIdx = 0) (hcnt : 1 < e.cnt.toNat) : txBit c bit e = txNextByte c e := by
  rcases txBit_cases c bit e with ⟨hlt, _⟩ | ⟨_, hne, _⟩ | ⟨_, _, _, h⟩ | ⟨_, _, hle, _⟩
  · omega
  · exact absurd hidx hne
  · exact h
  · omega

theorem txBit_endLed {c : Config} (bit : Bool) {e : Engine} (hcyc : c.sched.tbit ≤ e.cyc.toNat + 1)
    (hidx : e.bitIdx = 0) (hcnt : e.cnt.toNat ≤ 1) : txBit c bit e = txEndLed c e := by
  rcases txBit_cases c bit e with ⟨hlt, _⟩ | ⟨_, hne, _⟩ | ⟨_, _, hgt, _⟩ | ⟨_, _, _, h⟩
  · omega
  · exact absurd hidx hne
  · omega
  · exact h

/-- Inside a bit `CYC` does not wrap, for a bit has at most 32 cycles (R110). -/
theorem toNat_cyc_succ {c : Config} {e : Engine} (hcyc : e.cyc.toNat + 1 < c.sched.tbit) :
    (e.cyc + 1).toNat = e.cyc.toNat + 1 := by
  obtain ⟨-, -, -, -, -, -, htbit, -⟩ := config_facts c
  bv_omega

/-- Settles O27: the arm is `txWithinBit`, and `CYC` has room for the next cycle (R196). -/
theorem txInsideABit : Obligations.TxInsideABit := by
  unfold Obligations.TxInsideABit
  intro s byte hr hp hread hcyc th
  refine ⟨_, step_tx hr hp hread, ?_⟩
  rw [advance_eng, txBit_within _ hcyc]
  exact ⟨rfl, toNat_cyc_succ hcyc⟩

/-- Settles O28: the arm is `txNextBit` (R197). -/
theorem txNextBitFollows : Obligations.TxNextBitFollows := by
  unfold Obligations.TxNextBitFollows
  intro s byte hr hp hread hcyc hidx
  exact ⟨_, step_tx hr hp hread, txBit_nextBit _ hcyc.ge hidx⟩

/-- The start of the next byte with the width of a channel value read off (R198). -/
theorem txNextByte_eq (c : Config) (e : Engine) :
    txNextByte c e = { e with cyc := 0, bitIdx := 7, ptr := e.ptr + 1, cnt := e.cnt - 1, pinLevel := .high } := by
  simp [txNextByte]

/-- Settles O29: the arm is `txNextByte` (R198). -/
theorem txNextByteFollows : Obligations.TxNextByteFollows := by
  unfold Obligations.TxNextByteFollows
  intro s byte hr hp hread hcyc hidx hcnt
  exact ⟨_, step_tx hr hp hread, (txBit_nextByte _ hcyc.ge hidx hcnt).trans (txNextByte_eq _ _)⟩

/-! ### The end of an LED -/

theorem nextLed_lead (c : Config) {e : Engine} (hlead : e.nlead ≠ 0) :
    nextLed c e = startLed c 0 { e with nlead := e.nlead - 1 } := by
  rw [nextLed, seqNext_lead hlead, zeroBase]

theorem nextLed_colored (c : Config) {e : Engine} (hlead : e.nlead = 0) (hcol : e.ncol ≠ 0) :
    nextLed c e = startLed c 3 { e with ncol := e.ncol - 1 } := by
  rw [nextLed, seqNext_colored hlead hcol, colorBase]

theorem nextLed_trail (c : Config) {e : Engine} (hlead : e.nlead = 0) (hcol : e.ncol = 0) (htrail : e.ntrail ≠ 0) :
    nextLed c e = startLed c 0 { e with ntrail := e.ntrail - 1 } := by
  rw [nextLed, seqNext_trail hlead hcol htrail, zeroBase]

theorem txEndLed_frameOver (c : Config) {e : Engine} (hnone : e.nlead = 0 ∧ e.ncol = 0 ∧ e.ntrail = 0) :
    txEndLed c e = frameOver { e with cnt := 0, cyc := 0 } := if_pos hnone

theorem txEndLed_nextLed {c : Config} {e : Engine} (hsome : ¬ (e.nlead = 0 ∧ e.ncol = 0 ∧ e.ntrail = 0))
    (hgap : c.gapCyc = 0) : txEndLed c e = nextLed c { e with cnt := 0, cyc := 0 } := by
  rw [txEndLed, if_neg hsome, if_pos hgap]

theorem txEndLed_gap {c : Config} {e : Engine} (hsome : ¬ (e.nlead = 0 ∧ e.ncol = 0 ∧ e.ntrail = 0))
    (hgap : c.gapCyc ≠ 0) :
    txEndLed c e = { e with
      cnt := 0, cyc := 0, phase := .gap, gapCnt := BitVec.ofNat 8 c.gapCyc, pinLevel := .low } := by
  rw [txEndLed, if_neg hsome, if_neg hgap]

/-- `GAPCNT` has room for every admitted gap (R34, R110). -/
theorem toNat_ofNat_gapCyc (c : Config) : (BitVec.ofNat 8 c.gapCyc).toNat = c.gapCyc := by
  obtain ⟨-, -, -, -, -, -, -, hgap⟩ := config_facts c
  exact Nat.mod_eq_of_lt (by omega)

/-- Settles O30: the arm is `txEndLed`, which ends the frame, starts the next LED of the first run that is not empty, or
enters the gap (R199). -/
theorem txEndOfAnLed : Obligations.TxEndOfAnLed := by
  unfold Obligations.TxEndOfAnLed
  intro s byte hr hp hread hcyc hidx hcnt
  refine ⟨_, step_tx hr hp hread, ?_⟩
  rw [advance_eng, txBit_endLed _ hcyc.ge hidx (by rw [hcnt]; decide)]
  refine ⟨fun hlead hcol htrail => ?_, fun hgap hlead => ?_, fun hgap hlead hcol => ?_,
    fun hgap hlead hcol htrail => ?_, fun hgap hsome => ?_⟩
  · exact txEndLed_frameOver _ ⟨hlead, hcol, htrail⟩
  · rw [txEndLed_nextLed (fun h => hlead h.1) hgap, nextLed_lead, startLed_eq]
    exact hlead
  · rw [txEndLed_nextLed (fun h => hcol h.2.1) hgap, nextLed_colored, startLed_eq]
    exacts [hlead, hcol]
  · rw [txEndLed_nextLed (fun h => htrail h.2.2) hgap, nextLed_trail, startLed_eq]
    exacts [hlead, hcol, htrail]
  · rw [txEndLed_gap hsome hgap]
    exact ⟨rfl, toNat_ofNat_gapCyc _⟩

end Sys2Proof.Machine
end

section
/-! The declared clock frequency (60_exceptions.md, R231): when `Config.build` refuses it, and the two that have a default
engine. -/

namespace Sys2Proof.Machine

theorem clockSupported_iff (raw : RawConfig) :
    raw.clockSupported = true ↔ raw.fClk = 8000000 ∨ raw.fClk = 16000000 := decide_eq_true_iff

/-- The clock is the first check of `Config.build`, and the later two refuse under other names. -/
theorem build_eq_unsupportedClock_iff (raw : RawConfig) :
    Config.build raw = .error .unsupportedClock ↔ ¬ raw.clockSupported = true := by
  unfold Config.build
  split
  next hclock =>
    refine iff_of_false ?_ (not_not_intro hclock)
    split
    · split
      · exact nofun
      · exact nofun
    · exact nofun
  next hclock => exact iff_of_true rfl hclock

/-- R231 on the frequency itself. -/
theorem build_eq_unsupportedClock_iff_fClk (raw : RawConfig) :
    Config.build raw = .error .unsupportedClock ↔ raw.fClk ≠ 8000000 ∧ raw.fClk ≠ 16000000 := by
  rw [build_eq_unsupportedClock_iff, clockSupported_iff, not_or]

/-- An admitted configuration is built as it stands. -/
theorem build_toRawConfig (c : Config) : Config.build c.toRawConfig = .ok c := by
  rw [Config.build, dif_pos c.clockOk, dif_pos c.scheduleOk, dif_pos c.parametersOk]

/-- Settles O51: the clock is checked first and under its own name (R231), every `Config` carries the check, and the two
default engines are built from their own parameters. -/
theorem unsupportedClockFailsToBuild : Obligations.UnsupportedClockFailsToBuild := by
  unfold Obligations.UnsupportedClockFailsToBuild
  exact ⟨build_eq_unsupportedClock_iff_fClk, fun c => (clockSupported_iff c.toRawConfig).1 c.clockOk,
    fun _ h8 h16 => (build_eq_unsupportedClock_iff_fClk _).2 ⟨h8, h16⟩,
    build_toRawConfig config8, build_toRawConfig config16⟩

end Sys2Proof.Machine
end

section
/-! The command word and the textual command (30_encoding.md): decode and encode agree (R80 to R88), the reserved words
(R86), and the operands the assembler takes (R85, R89). -/

namespace Sys2Proof

open Sys2Proof.Machine

/-! ### Decode and encode -/

theorem field_eq_iff (w : CmdWord) (lo n : Nat) (v : BitVec n) : field w lo n = v ↔ w.toNat / 2 ^ lo % 2 ^ n = v.toNat := by
  rw [← BitVec.toNat_inj, toNat_field]

theorem eq_encode_iff (w : CmdWord) (i : Instr) : w = encode i ↔ w.toNat = Laws.WordValue.value i := by
  have hvalue : (encode i).toNat = Laws.WordValue.value i := by
    cases i with
    | init => exact Laws.WordValue.init
    | config total => exact Laws.WordValue.config total
    | render lead count red green blue => exact Laws.WordValue.render lead count red green blue
  rw [← BitVec.toNat_inj, hvalue]

/-- Settles O1: for each command, the fields that decode to it (R82 to R84) are the digits of the number that its word is,
so both sides say the same of the word. -/
theorem decodeEncodeAgree : Obligations.DecodeEncodeAgree := by
  unfold Obligations.DecodeEncodeAgree
  intro w i
  rw [eq_encode_iff]
  have hw := w.isLt
  cases i with
  | init =>
    have hword : (0x010000000000 : CmdWord).toNat = 1 * 2 ^ 40 := rfl
    rw [decode_eq_init_iff, ← BitVec.toNat_inj, hword, Laws.WordValue.value]
  | config total =>
    have htotal := total.isLt
    rw [decode_eq_config_iff, opField_eq_iff, field_eq_zero_iff, field_eq_iff, toNat_opConfig, Laws.WordValue.value]
    omega
  | render lead count red green blue =>
    have hlead := lead.isLt
    have hcount := count.isLt
    have hred := red.isLt
    have hgreen := green.isLt
    have hblue := blue.isLt
    rw [decode_eq_render_iff, opField_eq_iff, toNat_opRender, Laws.WordValue.value]
    simp only [field_eq_iff]
    omega

/-! ### Reserved words -/

/-- The words that decoding refuses, by the operation code and the fields that must be zero (R86). -/
theorem decode_eq_error_iff (w : CmdWord) : (∃ r, decode w = .error r) ↔
    (opField w = 0x00 ∨ 4 ≤ (opField w).toNat) ∨ (opField w = 0x01 ∧ field w 0 40 ≠ 0) ∨
      (opField w = 0x02 ∧ field w 16 24 ≠ 0) := by
  have hw := w.isLt
  have hop : (opField w).toNat = w.toNat / 2 ^ 40 := by rw [opField, toNat_field]; omega
  have h0 : (0x00 : Byte).toNat = 0 := rfl
  have h1 : (0x01 : Byte).toNat = 1 := rfl
  have h2 : (0x02 : Byte).toNat = 2 := rfl
  rw [hop, ne_eq, ne_eq, field_eq_zero_iff, field_eq_zero_iff, opField_eq_iff, opField_eq_iff, opField_eq_iff, h0, h1, h2]
  rcases decode_cases w with ⟨_, _, hd⟩ | ⟨_, _, hd⟩ | ⟨_, _, hd⟩ | ⟨_, _, hd⟩ | ⟨_, hd⟩ | ⟨_, _, _, hd⟩
  · exact iff_of_false (by simp [hd]) (by omega)
  · exact iff_of_true ⟨_, hd⟩ (by omega)
  · exact iff_of_false (by simp [hd]) (by omega)
  · exact iff_of_true ⟨_, hd⟩ (by omega)
  · exact iff_of_false (by simp [hd]) (by omega)
  · exact iff_of_true ⟨_, hd⟩ (by omega)

/-- Settles O3: the reserved words by their fields, and the step that accepts one, which keeps the registers (R86, R193). -/
theorem reservedWordsAreRefusedAndChangeNothing : Obligations.ReservedWordsAreRefusedAndChangeNothing := by
  unfold Obligations.ReservedWordsAreRefusedAndChangeNothing
  refine ⟨decode_eq_error_iff, fun s r hr hv hp hdec => ?_⟩
  exact ⟨_, step_reserved (accepted_of hr hv hp) hdec, rfl⟩

/-- Settles O4: ten closed words, each decoded by evaluation (95_test_vectors.md section 2.1). -/
theorem sampleWordsDecode : Obligations.SampleWordsDecode := by
  unfold Obligations.SampleWordsDecode
  exact ⟨rfl, rfl, rfl, rfl, rfl, rfl, rfl, rfl, rfl, rfl⟩

/-! ### The assembler -/

theorem byteOperandOk_iff (n : Nat) : byteOperandOk n = true ↔ n < 2 ^ 8 := by
  rw [byteOperandOk, decide_eq_true_eq]
  omega

theorem totalOperandOk_iff (n : Nat) : totalOperandOk n = true ↔ n < 2 ^ 16 := by
  rw [totalOperandOk, decide_eq_true_eq]
  omega

/-- A numeral in range is the value of exactly one register content. -/
theorem ofNat_eq_iff_of_lt {n m : Nat} (h : m < 2 ^ n) (v : BitVec n) : v = BitVec.ofNat n m ↔ v.toNat = m := by
  rw [← BitVec.toNat_inj, BitVec.toNat_ofNat, Nat.mod_eq_of_lt h]

theorem check_render_eq_none_iff (lead count red green blue : Nat) :
    (TextCommand.render lead count red green blue).check = none ↔
      lead < 2 ^ 8 ∧ count < 2 ^ 8 ∧ red < 2 ^ 8 ∧ green < 2 ^ 8 ∧ blue < 2 ^ 8 := by
  simp only [← byteOperandOk_iff, TextCommand.check]
  split_ifs <;> simp_all

theorem assemble_config_iff (total : Nat) (i : Instr) :
    (TextCommand.config total).assemble = .ok i ↔ ∃ t : Total, i = .config t ∧ t.toNat = total := by
  by_cases h : totalOperandOk total = true
  · have hlt := (totalOperandOk_iff total).1 h
    simp only [TextCommand.assemble, TextCommand.check, h, if_true, Except.ok.injEq, ← ofNat_eq_iff_of_lt hlt,
      exists_eq_right]
    exact eq_comm
  · refine iff_of_false (by simp [TextCommand.assemble, TextCommand.check, h]) ?_
    rintro ⟨t, _, rfl⟩
    exact h ((totalOperandOk_iff _).2 t.isLt)

theorem assemble_render_iff (lead count red green blue : Nat) (i : Instr) :
    (TextCommand.render lead count red green blue).assemble = .ok i ↔
      ∃ l c r g b : Byte, i = .render l c r g b ∧ l.toNat = lead ∧ c.toNat = count ∧ r.toNat = red ∧
        g.toNat = green ∧ b.toNat = blue := by
  cases h : (TextCommand.render lead count red green blue).check with
  | none =>
    obtain ⟨hl, hc, hr, hg, hb⟩ := (check_render_eq_none_iff ..).1 h
    simp only [TextCommand.assemble, h, Except.ok.injEq, ← ofNat_eq_iff_of_lt hl, ← ofNat_eq_iff_of_lt hc,
      ← ofNat_eq_iff_of_lt hr, ← ofNat_eq_iff_of_lt hg, ← ofNat_eq_iff_of_lt hb]
    constructor
    · rintro rfl
      exact ⟨_, _, _, _, _, rfl, rfl, rfl, rfl, rfl, rfl⟩
    · rintro ⟨_, _, _, _, _, rfl, rfl, rfl, rfl, rfl, rfl⟩
      rfl
  | some err =>
    refine iff_of_false (by simp [TextCommand.assemble, h]) ?_
    rintro ⟨l, c, r, g, b, _, rfl, rfl, rfl, rfl, rfl⟩
    have hnone := (check_render_eq_none_iff ..).2 ⟨l.isLt, c.isLt, r.isLt, g.isLt, b.isLt⟩
    rw [hnone] at h
    cases h

/-- Settles O5: an operand in range is the value of one register content, and the check refuses every other (R85, R89). -/
theorem assemblerNeverTruncates : Obligations.AssemblerNeverTruncates := by
  unfold Obligations.AssemblerNeverTruncates
  exact ⟨assemble_config_iff, assemble_render_iff⟩

end Sys2Proof
end

section
/-! The invariant of the reachable states (10_state.md section 10): every step keeps it, reset meets it, and no step from
a state that meets it stops. -/

namespace Sys2Proof.Machine

open Sys2Proof.Safety

/-! ### The configuration and the canonical memory -/

theorem step_cfg {s t : State} (h : step s = .next t) : t.cfg = s.cfg := by
  rw [step_next_advance h, advance_cfg]

theorem step_tick {s t : State} (h : step s = .next t) : t.tick = s.tick + 1 := by
  rw [step_next_advance h, advance_tick]

theorem wf_commandEffect (c : Config) (i : Instr) {e : Engine} (h : Memory.wf e.mem = true) :
    Memory.wf (commandEffect c i e).mem = true := by
  cases i with
  | init => exact h
  | config total => exact h
  | render lead count red green blue =>
    rw [commandEffect, renderEffect_mem]
    exact wf_loadColor h red green blue

/-- Settles O26: only a RENDER writes the memory, byte by byte, and each write keeps the form (R142, R63). -/
theorem stepKeepsMemoryCanonical : Obligations.StepKeepsMemoryCanonical := by
  unfold Obligations.StepKeepsMemoryCanonical
  intro s t hwf hstep
  rcases step_eng_cases hstep with ⟨_, heng⟩ | ⟨_, i, _, _, heng⟩ | ⟨_, _, _, _, heng⟩ | ⟨_, _, harm⟩
  · rw [heng]
    exact wf_reset s.cfg
  · rw [heng]
    exact wf_commandEffect s.cfg i hwf
  · rwa [heng]
  · rwa [(phaseArm_frame harm).1]

/-! ### The widths of the registers -/

theorem firstLed_ntrail_le (c : Config) (e : Engine) : (firstLed c e).ntrail ≤ e.ntrail := by
  rcases firstLed_cases c e with ⟨_, h⟩ | ⟨_, _, h⟩ | ⟨_, _, _, h⟩ | ⟨_, _, _, h⟩ <;> simp [h]

theorem nextLed_ntrail_le (c : Config) (e : Engine) : (nextLed c e).ntrail ≤ e.ntrail := by
  rcases nextLed_cases c e with ⟨_, h⟩ | ⟨_, _, h⟩ | ⟨_, _, _, h⟩ | ⟨_, _, _, h⟩ <;> simp [h]

theorem txBit_ntrail_le (c : Config) (bit : Bool) (e : Engine) : (txBit c bit e).ntrail ≤ e.ntrail := by
  rcases txBit_cases c bit e with ⟨_, h⟩ | ⟨_, _, h⟩ | ⟨_, _, _, h⟩ | ⟨_, _, _, h⟩ <;> rw [h]
  · exact le_rfl
  · exact le_rfl
  · exact le_rfl
  · rcases txEndLed_cases c e with ⟨_, _, _, hend⟩ | ⟨_, _, hend⟩ | ⟨_, _, hend⟩ <;> rw [hend]
    · exact le_rfl
    · exact nextLed_ntrail_le c _

theorem gapArm_ntrail_le (c : Config) (e : Engine) : (gapArm c e).ntrail ≤ e.ntrail := by
  rcases gapArm_cases c e with ⟨_, h⟩ | ⟨_, h⟩ <;> rw [h]
  exact nextLed_ntrail_le c _

/-- The wait writes the phase and nothing else (R202). -/
theorem waitArm_frame (c : Config) (us : Nat) (e : Engine) :
    waitArm c us e = { e with phase := (waitArm c us e).phase } := by
  rcases waitArm_cases c us e with ⟨_, h⟩ | ⟨_, h⟩ <;> rw [h]

theorem widthInv_phaseArm {c : Config} {us : Nat} {e e' : Engine} (h : phaseArm c us e = .ok e') (hw : WidthInv c e) :
    WidthInv c e' := by
  obtain ⟨htotal, hntrail, ht0⟩ := hw
  unfold WidthInv
  rw [(phaseArm_frame h).2.1]
  rcases phaseArm_ok h with ⟨_, rfl⟩ | ⟨_, byte, _, rfl⟩ | ⟨_, rfl⟩ | ⟨_, rfl⟩ | ⟨_, rfl⟩
  · exact ⟨htotal, hntrail, ht0⟩
  · rw [(txBit_frame c _ e).2.2.2]
    exact ⟨htotal, (txBit_ntrail_le c _ e).trans_lt hntrail, ht0⟩
  · rw [(gapArm_frame c e).2.2.2]
    exact ⟨htotal, (gapArm_ntrail_le c e).trans_lt hntrail, ht0⟩
  · exact ⟨htotal, hntrail, clockValue_lt c us⟩
  · rw [waitArm_frame]
    exact ⟨htotal, hntrail, ht0⟩

theorem widthInv_commandEffect {c : Config} (i : Instr) {e : Engine} (hw : WidthInv c e) :
    WidthInv c (commandEffect c i e) := by
  obtain ⟨htotal, hntrail, ht0⟩ := hw
  cases i with
  | init => exact ⟨htotal, hntrail, ht0⟩
  | config total => exact ⟨storedTotal_lt c total, hntrail, ht0⟩
  | render lead count red green blue =>
    obtain ⟨_, hrtotal, _, hrt0, _⟩ := firstLed_frame c (seqLoad lead count red green blue e)
    have htrail := (firstLed_ntrail_le c (seqLoad lead count red green blue e)).trans (satSub_le e.total _)
    exact ⟨hrtotal.trans_lt htotal, htrail.trans_lt htotal, hrt0.trans_lt ht0⟩

/-! ### The level, the position and the gap -/

/-- The clauses of R44 on the level and on the registers that a phase of the frame uses. -/
def PositionInv (c : Config) (e : Engine) : Prop := LevelInv c e ∧ TxInv c e ∧ GapInv c e

theorem engineInv_iff (c : Config) (e : Engine) :
    EngineInv c e ↔ Memory.wf e.mem = true ∧ PositionInv c e ∧ WidthInv c e := by
  simp only [EngineInv, PositionInv, and_assoc]

theorem level_low_of_levelInv {c : Config} {e : Engine} (h : LevelInv c e) (hp : e.phase ≠ .tx) : e.pinLevel = .low := by
  cases hl : e.pinLevel with
  | low => rfl
  | high => exact absurd (h.1 hl).1 hp

/-- Outside phase TX the line is LOW, and nothing but the gap has more to say. -/
theorem positionInv_of_not_tx {c : Config} {e : Engine} (hp : e.phase ≠ .tx) (hl : e.pinLevel = .low)
    (hg : GapInv c e) : PositionInv c e :=
  ⟨iff_of_false (by simp [hl]) (fun h => hp h.1), fun h => absurd h hp, hg⟩

theorem gapInv_of_ne {c : Config} {e : Engine} (hp : e.phase ≠ .gap) : GapInv c e := fun h => absurd h hp

/-- The cursor of a state of phase TX is on a byte that exists. -/
theorem memRead_of_cursor (m : Memory) {p : RecAddr} {n : BitVec 2} (hn : 1 ≤ n.toNat)
    (hptr : p.toNat = 3 - n.toNat ∨ p.toNat = 3 + (3 - n.toNat)) : ∃ byte, Ops.memRead m p = .ok byte := by
  rcases memRead_cases m p with ⟨_, h⟩ | ⟨_, _, h⟩ | ⟨hhigh, _⟩
  · exact ⟨_, h⟩
  · exact ⟨_, h⟩
  · omega

theorem symbolHigh_iff {c : Config} {e : Engine} {byte : Byte} (hread : Ops.memRead e.mem e.ptr = .ok byte) :
    symbolHigh c e = true ↔ e.cyc.toNat < highCycles c (bitOf byte e.bitIdx) := by
  rw [symbolHigh, hread, decide_eq_true_eq]

/-- The first cycle of a bit: the line is HIGH and `CYC` is 0 (R195, R197, R198). -/
theorem positionInv_firstCycle {c : Config} {e : Engine} (hp : e.phase = .tx) (hl : e.pinLevel = .high)
    (hcyc : e.cyc = 0) (hcnt : 1 ≤ e.cnt.toNat)
    (hptr : e.ptr.toNat = 3 - e.cnt.toNat ∨ e.ptr.toNat = 3 + (3 - e.cnt.toNat)) : PositionInv c e := by
  obtain ⟨byte, hread⟩ := memRead_of_cursor e.mem hcnt hptr
  have hcyc0 : e.cyc.toNat = 0 := by rw [hcyc]; rfl
  obtain ⟨hhigh, _, hsum⟩ := segments c (bitOf byte e.bitIdx)
  have hsym : symbolHigh c e = true := (symbolHigh_iff hread).2 (by omega)
  exact ⟨iff_of_true hl ⟨hp, hsym⟩, fun _ => ⟨by omega, hcnt, hptr⟩, gapInv_of_ne (by simp [hp])⟩

theorem positionInv_startLed (c : Config) (e : Engine) {base : RecAddr} (hbase : base = 0 ∨ base = 3) :
    PositionInv c (startLed c base e) := by
  refine positionInv_firstCycle rfl rfl rfl (by rw [startLed_cnt]; decide) ?_
  rw [startLed_cnt, startLed_ptr]
  rcases hbase with rfl | rfl
  · exact .inl rfl
  · exact .inr rfl

theorem positionInv_frameOver (c : Config) (e : Engine) : PositionInv c (frameOver e) :=
  positionInv_of_not_tx (by simp) rfl (gapInv_of_ne (by simp))

theorem positionInv_nextLed (c : Config) (e : Engine) : PositionInv c (nextLed c e) := by
  rcases nextLed_cases c e with ⟨_, h⟩ | ⟨_, _, h⟩ | ⟨_, _, _, h⟩ | ⟨_, _, _, h⟩ <;> rw [h]
  · exact positionInv_startLed c _ (.inl rfl)
  · exact positionInv_startLed c _ (.inr rfl)
  · exact positionInv_startLed c _ (.inl rfl)
  · exact positionInv_frameOver c e

theorem positionInv_txEndLed (c : Config) (e : Engine) : PositionInv c (txEndLed c e) := by
  rcases txEndLed_cases c e with ⟨_, _, _, h⟩ | ⟨_, _, h⟩ | ⟨hsome, hgap, h⟩ <;> rw [h]
  · exact positionInv_frameOver c _
  · exact positionInv_nextLed c _
  · have hcnt := toNat_ofNat_gapCyc c
    refine positionInv_of_not_tx (by simp) rfl (fun _ => ⟨?_, hcnt.le, ?_⟩)
    · exact Nat.one_le_iff_ne_zero.2 (hcnt.trans_ne hgap)
    · simpa only [not_and_or] using hsome

/-- The next byte of an LED: the cursor goes up as the count goes down, so its base is the same (R198). -/
theorem positionInv_txNextByte {c : Config} {e : Engine} (hp : e.phase = .tx) (hinv : TxInv c e)
    (hcnt : 1 < e.cnt.toNat) : PositionInv c (txNextByte c e) := by
  obtain ⟨_, _, hptr⟩ := hinv hp
  have hcnt' : (e.cnt - 1).toNat = e.cnt.toNat - 1 := by bv_omega
  have hptr' : (e.ptr + 1).toNat = e.ptr.toNat + 1 := by bv_omega
  refine positionInv_firstCycle hp rfl rfl ?_ ?_
  · rw [txNextByte_cnt, hcnt']
    omega
  · rw [txNextByte_cnt, txNextByte_ptr, hcnt', hptr']
    omega

theorem positionInv_txBit {c : Config} {e : Engine} {byte : Byte} (hp : e.phase = .tx) (hinv : TxInv c e)
    (hread : Ops.memRead e.mem e.ptr = .ok byte) : PositionInv c (txBit c (bitOf byte e.bitIdx) e) := by
  obtain ⟨_, hcnt, hptr⟩ := hinv hp
  rcases txBit_cases c (bitOf byte e.bitIdx) e with ⟨hlt, h⟩ | ⟨_, _, h⟩ | ⟨_, _, hgt, h⟩ | ⟨_, _, _, h⟩ <;> rw [h]
  · have hcyc := toNat_cyc_succ hlt
    have hsym := symbolHigh_iff (c := c) (e := txWithinBit c (bitOf byte e.bitIdx) e) hread
    rw [txWithinBit_cyc, hcyc, txWithinBit_bitIdx] at hsym
    refine ⟨?_, fun _ => ⟨?_, hcnt, hptr⟩, gapInv_of_ne (by simp [hp])⟩
    · rw [LevelInv, hsym, txWithinBit_pinLevel, txWithinBit_phase]
      simp [hp]
    · rw [txWithinBit_cyc, hcyc]
      exact hlt
  · exact positionInv_firstCycle hp rfl rfl hcnt hptr
  · exact positionInv_txNextByte hp hinv hgt
  · exact positionInv_txEndLed c e

theorem positionInv_gapArm {c : Config} {e : Engine} (hp : e.phase = .gap) (hinv : PositionInv c e) :
    PositionInv c (gapArm c e) := by
  obtain ⟨hlevel, _, hgap⟩ := hinv
  rcases gapArm_cases c e with ⟨hgt, h⟩ | ⟨_, h⟩ <;> rw [h]
  · obtain ⟨_, hle, hsome⟩ := hgap hp
    have hpred : (e.gapCnt - 1).toNat = e.gapCnt.toNat - 1 := by bv_omega
    refine positionInv_of_not_tx (by simp [hp]) (level_low_of_levelInv hlevel (by simp [hp])) (fun _ => ?_)
    exact ⟨hpred ▸ by omega, hpred ▸ by omega, hsome⟩
  · exact positionInv_nextLed c _

theorem positionInv_phaseArm {c : Config} {us : Nat} {e e' : Engine} (h : phaseArm c us e = .ok e')
    (hinv : PositionInv c e) : PositionInv c e' := by
  rcases phaseArm_ok h with ⟨_, rfl⟩ | ⟨hp, byte, hread, rfl⟩ | ⟨hp, rfl⟩ | ⟨hp, rfl⟩ | ⟨hp, rfl⟩
  · exact hinv
  · exact positionInv_txBit hp hinv.2.1 hread
  · exact positionInv_gapArm hp hinv
  · have hlow := level_low_of_levelInv hinv.1 (by simp [hp])
    exact positionInv_of_not_tx (by simp) hlow (gapInv_of_ne (by simp))
  · have hlow := level_low_of_levelInv hinv.1 (by simp [hp])
    rcases waitArm_cases c us e with ⟨_, hw⟩ | ⟨_, hw⟩ <;> rw [hw]
    · exact positionInv_of_not_tx (by simp) hlow (gapInv_of_ne (by simp))
    · exact hinv

theorem positionInv_commandEffect {c : Config} (i : Instr) {e : Engine} (hp : e.phase = .idle)
    (hinv : PositionInv c e) : PositionInv c (commandEffect c i e) := by
  have hlow := level_low_of_levelInv hinv.1 (by simp [hp])
  cases i with
  | init => exact positionInv_of_not_tx (by simp [commandEffect, hp]) rfl (gapInv_of_ne (by simp [commandEffect, hp]))
  | config total =>
    exact positionInv_of_not_tx (by simp [commandEffect, hp]) hlow (gapInv_of_ne (by simp [commandEffect, hp]))
  | render lead count red green blue =>
    rw [commandEffect, renderEffect]
    rcases firstLed_cases c (seqLoad lead count red green blue e) with ⟨_, h⟩ | ⟨_, _, h⟩ | ⟨_, _, _, h⟩ | ⟨_, _, _, h⟩
      <;> rw [h]
    · exact positionInv_startLed c _ (.inl rfl)
    · exact positionInv_startLed c _ (.inr rfl)
    · exact positionInv_startLed c _ (.inl rfl)
    · exact positionInv_of_not_tx (by simp) hlow (gapInv_of_ne (by simp))

/-! ### The invariant -/

theorem engineInv_reset (c : Config) : EngineInv c (Engine.reset c) := by
  obtain ⟨_, _, hinit, _⟩ := config_parameters c
  rw [engineInv_iff]
  refine ⟨wf_reset c, positionInv_of_not_tx (by simp [Engine.reset]) rfl (gapInv_of_ne (by simp [Engine.reset])), ?_⟩
  exact ⟨hinit, Nat.two_pow_pos _, Nat.two_pow_pos _⟩

/-- Settles O36: the registers of R43 are LOW, in IDLE, with the memory empty and `TOTAL_INIT` in its width. -/
theorem resetMeetsInvariant : Obligations.ResetMeetsInvariant := by
  unfold Obligations.ResetMeetsInvariant
  exact ⟨engineInv_reset, engineInv_reset config8⟩

theorem engineInv_step {s t : State} (hinv : EngineInv s.cfg s.eng) (hstep : step s = .next t) :
    EngineInv s.cfg t.eng := by
  have hmem := stepKeepsMemoryCanonical s t hinv.1 hstep
  rw [engineInv_iff] at hinv ⊢
  obtain ⟨_, hpos, hwidth⟩ := hinv
  rcases step_eng_cases hstep with ⟨_, heng⟩ | ⟨w, i, hacc, _, heng⟩ | ⟨_, _, _, _, heng⟩ | ⟨_, _, harm⟩
  · rw [heng]
    exact (engineInv_iff ..).1 (engineInv_reset s.cfg)
  · have hp := (accepted_eq_some hacc).2.2.1
    rw [heng] at hmem ⊢
    exact ⟨hmem, positionInv_commandEffect i hp hpos, widthInv_commandEffect i hwidth⟩
  · rw [heng] at hmem ⊢
    exact ⟨hmem, hpos, hwidth⟩
  · exact ⟨hmem, positionInv_phaseArm harm hpos, widthInv_phaseArm harm hwidth⟩

/-- Settles O35: the canonical memory, the clauses on the level and the position, and the widths are each kept by reset,
by the effect of a command and by the arm of every phase (R44). -/
theorem stepKeepsInvariant : Obligations.StepKeepsInvariant := by
  unfold Obligations.StepKeepsInvariant
  intro s t hinv hstep
  rw [StateInv, step_cfg hstep]
  exact engineInv_step hinv hstep

/-- In a state of the invariant the arm of the phase succeeds: the cursor of phase TX is mapped (R68). -/
theorem phaseArm_total {c : Config} {e : Engine} (hinv : TxInv c e) (us : Nat) : ∃ e', phaseArm c us e = .ok e' := by
  cases h : phaseArm c us e with
  | ok e' => exact ⟨e', rfl⟩
  | error f =>
    obtain ⟨hp, hfault⟩ := phaseArm_error h
    obtain ⟨_, hcnt, hptr⟩ := hinv hp
    obtain ⟨byte, hread⟩ := memRead_of_cursor e.mem hcnt hptr
    rw [hread] at hfault
    cases hfault

/-- Settles O37: reset and an accepted word always complete, and the arm of the phase does so under R44 (c). -/
theorem invariantStatesNeverStop : Obligations.InvariantStatesNeverStop := by
  unfold Obligations.InvariantStatesNeverStop
  intro s hinv
  obtain ⟨_, _, htx, _, _⟩ := hinv
  rcases step_cases s with ⟨_, h⟩ | ⟨_, _, _, _, h⟩ | ⟨_, _, _, _, h⟩ | ⟨_, _, h⟩
  · exact ⟨_, h⟩
  · exact ⟨_, h⟩
  · exact ⟨_, h⟩
  · obtain ⟨e', harm⟩ := phaseArm_total htx s.port.usNow
    rw [quietCycle, harm] at h
    exact ⟨_, h⟩

end Sys2Proof.Machine
end

section
/-! The host's side (10_state.md section 7, 44_host_operations.md, 60_exceptions.md): what a reset engine shows, the output
ports, the frames of the three commands, and the guarded step. -/

namespace Sys2Proof.Machine

open Sys2Proof.Safety

/-! ### The presented command -/

/-- Settles O6: under reset both sides are the reset cycle, in IDLE the step accepts the command, and a busy engine takes
the arm of its phase (R191 to R193). -/
theorem stepRunsDecodedInstruction : Obligations.StepRunsDecodedInstruction := by
  unfold Obligations.StepRunsDecodedInstruction
  intro s i hv hdec
  by_cases hp : s.eng.phase = .idle
  · cases hr : s.port.rst with
    | true => rw [step_reset hr, exec_reset i hr]
    | false => exact step_accepted (accepted_of hr hv hp) hdec
  · exact (exec_eq_step_busy i hp).symm

theorem decode_encode (i : Instr) : decode (encode i) = .ok i := (decodeEncodeAgree _ i).2 rfl

/-- Settles O8: the registers of `Engine.reset` one by one (R43). -/
theorem resetRegisterValues : Obligations.ResetRegisterValues := by
  unfold Obligations.ResetRegisterValues
  intro c e
  exact ⟨rfl, rfl, rfl, rfl, rfl, rfl, rfl, rfl, rfl, rfl, rfl, rfl, rfl, rfl, rfl, rfl, rfl, rfl, rfl, rfl⟩

/-- Settles O9: the reset state is IDLE without reset on its port, so the command on it is accepted (R261). -/
theorem cycleZeroIsReady : Obligations.CycleZeroIsReady := by
  unfold Obligations.CycleZeroIsReady
  intro c i s s0
  have haccepted : Ops.accepted s0 = some (encode i) := accepted_of rfl rfl rfl
  exact ⟨rfl, haccepted, step_accepted haccepted (decode_encode i)⟩

/-! ### The output ports -/

theorem irqInhibit_iff (e : Engine) : irqInhibit e = true ↔ e.phase = .tx ∨ e.phase = .gap := decide_eq_true_iff

theorem busy_iff (e : Engine) : busy e = true ↔ e.phase ≠ .idle := decide_eq_true_iff

theorem cmdReady_iff (e : Engine) : cmdReady e = true ↔ e.phase = .idle := decide_eq_true_iff

theorem lineLevel_of_output {s : State} (h : s.eng.pinDir = .output) : lineLevel s = s.eng.pinLevel := by
  rw [lineLevel, h]

theorem pinDir_bit_eq_one_iff (d : PinDir) : d.bit = 1 ↔ d = .output := by cases d <;> decide

theorem level_bit_eq_one_iff (l : Level) : l.bit = 1 ↔ l = .high := by cases l <;> decide

theorem effectiveEnable_iff (hostEnable : Bool) (e : Engine) :
    effectiveEnable hostEnable e = true ↔ hostEnable = true ∧ irqInhibit e = false := by
  rw [effectiveEnable, Bool.and_eq_true, Bool.not_eq_true']

/-- Settles O12: each port by its equation on the registers (R41, R131). -/
theorem outputPorts : Obligations.OutputPorts := by
  unfold Obligations.OutputPorts
  exact ⟨fun _ => lineLevel_of_output, fun e => ⟨cmdReady_iff e, busy_iff e, pinDir_bit_eq_one_iff _,
    level_bit_eq_one_iff _, irqInhibit_iff e, fun hostEnable => effectiveEnable_iff hostEnable e⟩⟩

/-! ### The frames of the commands -/

/-- Settles O13: INIT ends its cycle with `initEffect`, which writes what it finds the second time (R171, R172). -/
theorem initMakesThePinAnOutput : Obligations.InitMakesThePinAnOutput := by
  unfold Obligations.InitMakesThePinAnOutput
  intro s hr hp
  refine ⟨_, exec_idle .init hr hp, rfl, rfl, rfl, hp, rfl, fun hr' => ?_⟩
  exact ⟨_, exec_idle .init hr' hp, rfl⟩

theorem memRead_memWrite_other (m : Memory) {i : Fin 3} (v : Byte) {a : RecAddr} (h : a.toNat ≠ Ops.colorAddr i) :
    Ops.memRead (Ops.memWrite m i v) a = Ops.memRead m a := by
  rw [Ops.memRead, Ops.memWrite, lookup_put_other m v h, Ops.memRead]

/-- Settles O25: a byte put at an address is read back there and nowhere else (R62, R63). -/
theorem recordWriteThenRead : Obligations.RecordWriteThenRead := by
  unfold Obligations.RecordWriteThenRead
  exact fun m i v => ⟨color_memWrite_self m i v, fun _ => memRead_memWrite_other m v⟩

theorem memRead_loadColor_other (m : Memory) (red green blue : Byte) {a : RecAddr}
    (h : ∀ i : Fin 3, a.toNat ≠ Ops.colorAddr i) : Ops.memRead (loadColor m red green blue) a = Ops.memRead m a := by
  rw [loadColor, memRead_memWrite_other _ _ (h 2), memRead_memWrite_other _ _ (h 1), memRead_memWrite_other _ _ (h 0)]

theorem toNat_eq_zero_iff {w : Nat} (x : BitVec w) : x.toNat = 0 ↔ x = 0 := by
  rw [← BitVec.toNat_inj, BitVec.ofNat_eq_ofNat, BitVec.toNat_ofNat, Nat.zero_mod]

/-- A frame of no LEDs has no LED in any of its runs. -/
theorem frameLeds_eq_zero_iff (total : Nat) (lead count : Byte) :
    frameLeds total lead count = 0 ↔ lead = 0 ∧ count = 0 ∧ trailCount total lead count = 0 := by
  simp only [frameLeds, Nat.add_eq_zero_iff, and_assoc, toNat_eq_zero_iff]

/-- The empty frame goes straight to ARM (R194). -/
theorem renderEffect_empty (c : Config) {lead count : Byte} (red green blue : Byte) {e : Engine}
    (h : frameLeds e.total lead count = 0) : renderEffect c lead count red green blue e =
      { seqLoad lead count red green blue e with phase := .arm } := by
  obtain ⟨hlead, hcount, htrail⟩ := (frameLeds_eq_zero_iff ..).1 h
  exact firstLed_end c (e := seqLoad lead count red green blue e) hlead hcount htrail

/-- Settles O17: `SEQ.LOAD` writes the memory and the counters only, the start of an LED only the position registers, and
the empty frame starts none (R194, R195). -/
theorem renderFrame : Obligations.RenderFrame := by
  unfold Obligations.RenderFrame
  intro s t lead count red green blue hr hp hexec
  rw [exec_idle _ hr hp] at hexec
  cases hexec
  obtain ⟨hmem, htotal, hdir, ht0, hgap⟩ := firstLed_frame s.cfg (seqLoad lead count red green blue s.eng)
  refine ⟨htotal, hdir, ht0, hgap, rfl, fun a ha => ?_, fun hempty => ?_⟩
  · rw [advance_eng, commandEffect, renderEffect, hmem]
    exact memRead_loadColor_other _ red green blue ha
  · rw [advance_eng, commandEffect, renderEffect_empty s.cfg red green blue hempty]
    exact ⟨rfl, rfl, rfl, rfl, rfl⟩

/-- Settles O18: INIT and CONFIG end their cycle with an effect that writes no other register and no memory (R171, R173). -/
theorem initAndConfigFrame : Obligations.InitAndConfigFrame := by
  unfold Obligations.InitAndConfigFrame
  intro s t i hr hp hnot hexec
  rw [exec_idle i hr hp] at hexec
  cases hexec
  cases i with
  | init => exact ⟨rfl, rfl, rfl, rfl, rfl, rfl, rfl, rfl, rfl, rfl, rfl, fun _ => rfl, fun _ => rfl, nofun⟩
  | config total =>
    exact ⟨rfl, rfl, rfl, rfl, rfl, rfl, rfl, rfl, rfl, rfl, rfl, fun _ => rfl, nofun, fun _ _ => ⟨rfl, rfl⟩⟩
  | render lead count red green blue => exact absurd rfl (hnot lead count red green blue)

/-! ### The guarded step -/

theorem breach_reserved {s : State} {w : CmdWord} {r : Reserved} (hacc : Ops.accepted s = some w)
    (hdec : decode w = .error r) : breach s = some (.reservedCommand w) := by
  simp [breach, (accepted_eq_some hacc).1, hacc, hdec]

theorem breach_render {s : State} {w : CmdWord} {lead count red green blue : Byte} (hacc : Ops.accepted s = some w)
    (hdec : decode w = .ok (.render lead count red green blue)) :
    breach s = if s.eng.pinDir = .input then some .renderBeforeInit else none := by
  simp [breach, (accepted_eq_some hacc).1, hacc, hdec]

theorem accepted_busy {s : State} (hp : s.eng.phase ≠ .idle) : Ops.accepted s = none := by
  simp [Ops.accepted, Ops.accept, hp]

/-- A command that is not held on the port of a busy engine is a breach (R236, R268; log 7). -/
theorem breach_busy {s : State} (hr : s.port.rst = false) (hv : s.port.cmdValid = true) (hp : s.eng.phase ≠ .idle)
    (hheld : commandHeld s = false) : breach s = some .commandWhileBusy := by
  simp [breach, hr, accepted_busy hp, (busy_iff s.eng).2 hp, hv, hheld]

theorem commandHeld_eq_false {s : State} (hr : (Ops.inputAt s 1).rst = false)
    (h : (Ops.inputAt s 1).cmdValid = false ∨ (Ops.inputAt s 1).cmd ≠ s.port.cmd) : commandHeld s = false := by
  rcases h with h | h <;> simp [commandHeld, hr, h]

theorem guardedStep_of_no_breach {s : State} (h : breach s = none) : guardedStep s = step s := by
  rw [guardedStep, h]

/-- The guarded step goes on only where no duty is broken. -/
theorem step_of_guardedStep_next {s t : State} (h : guardedStep s = .next t) : step s = .next t := by
  cases hb : breach s with
  | none => rwa [guardedStep_of_no_breach hb] at h
  | some b =>
    rw [guardedStep, hb] at h
    cases b <;> cases h

/-- Settles O60: each breach by its name, and the machine's own step without one (D5, D16, D17). -/
theorem guardedStepStopsOnBreaches : Obligations.GuardedStepStopsOnBreaches := by
  unfold Obligations.GuardedStepStopsOnBreaches
  intro s
  refine ⟨fun w r hacc hdec => ?_, fun w lead count red green blue hacc hdec hin => ?_, fun hr hv hp hr' hchange => ?_,
    fun t => step_of_guardedStep_next, guardedStep_of_no_breach⟩
  · rw [guardedStep, breach_reserved hacc hdec]
  · rw [guardedStep, breach_render hacc hdec, if_pos hin]
  · rw [guardedStep, breach_busy hr hv hp (commandHeld_eq_false hr' hchange)]

end Sys2Proof.Machine
end

section
/-! Steps and runs (45_cycle_machine.md section 2): where a step stops, the ARM and WAIT cycles, what reads the clock, and
what holds along every run. -/

namespace Sys2Proof.Machine

open Sys2Proof.Safety

/-! ### Where the step stops -/

theorem memRead_eq_error_iff (m : Memory) (a : RecAddr) (f : Fault) :
    Ops.memRead m a = .error f ↔ 6 ≤ a.toNat ∧ f = .unmappedRecordRead a := by
  rcases memRead_cases m a with ⟨hlow, h⟩ | ⟨i, hi, h⟩ | ⟨hhigh, h⟩
  · exact iff_of_false (by simp [h]) (by omega)
  · simp only [Ops.colorAddr] at hi
    exact iff_of_false (by simp [h]) (by omega)
  · rw [h, Except.error.injEq]
    exact ⟨fun hf => ⟨hhigh, hf.symm⟩, fun hf => hf.2.symm⟩

/-- A step that faults is the arm of phase TX at a cursor that is not mapped. -/
theorem step_eq_fault {s : State} {f : Fault} (h : step s = .fault f) :
    s.port.rst = false ∧ s.eng.phase = .tx ∧ Ops.memRead s.eng.mem s.eng.ptr = .error f := by
  rcases step_cases s with ⟨_, hs⟩ | ⟨_, _, _, _, hs⟩ | ⟨_, _, _, _, hs⟩ | ⟨hr, _, hs⟩ <;> rw [hs] at h
  · cases h
  · cases h
  · cases h
  · exact ⟨hr, phaseArm_error (finish_eq_fault h)⟩

theorem step_ne_refused (s : State) (r : Refusal) : step s ≠ .refused r := by
  intro h
  rcases step_cases s with ⟨_, hs⟩ | ⟨_, _, _, _, hs⟩ | ⟨_, _, _, _, hs⟩ | ⟨_, _, hs⟩ <;> rw [hs] at h
  · cases h
  · cases h
  · cases h
  · exact finish_ne_refused _ _ r h

/-- Settles O34: the one arm that can fail is the read of phase TX, and it fails at 6 and 7 only (R62; log 8). -/
theorem stepStopsOnlyOnAnUnmappedRead : Obligations.StepStopsOnlyOnAnUnmappedRead := by
  unfold Obligations.StepStopsOnlyOnAnUnmappedRead
  refine fun s => ⟨fun f => ?_, step_ne_refused s⟩
  rw [← memRead_eq_error_iff s.eng.mem]
  exact ⟨step_eq_fault, fun ⟨hr, hp, hread⟩ => step_tx_fault hr hp hread⟩

/-! ### The arm of each busy phase -/

theorem phaseArm_tx {c : Config} {e : Engine} {byte : Byte} (hp : e.phase = .tx)
    (hread : Ops.memRead e.mem e.ptr = .ok byte) (us : Nat) :
    phaseArm c us e = .ok (txBit c (bitOf byte e.bitIdx) e) := by
  simp [phaseArm, hp, txArm, hread]

theorem phaseArm_gap {c : Config} {e : Engine} (hp : e.phase = .gap) (us : Nat) :
    phaseArm c us e = .ok (gapArm c e) := by
  rw [phaseArm, hp]

theorem phaseArm_arm {c : Config} {e : Engine} (hp : e.phase = .arm) (us : Nat) :
    phaseArm c us e = .ok (armArm c us e) := by
  rw [phaseArm, hp]

theorem phaseArm_wait {c : Config} {e : Engine} (hp : e.phase = .wait) (us : Nat) :
    phaseArm c us e = .ok (waitArm c us e) := by
  rw [phaseArm, hp]

theorem step_arm {s : State} (hr : s.port.rst = false) (hp : s.eng.phase = .arm) :
    step s = .next (Ops.advance s (armArm s.cfg s.port.usNow s.eng)) :=
  step_busy_ok hr (by simp [hp]) (phaseArm_arm hp _)

theorem step_wait {s : State} (hr : s.port.rst = false) (hp : s.eng.phase = .wait) :
    step s = .next (Ops.advance s (waitArm s.cfg s.port.usNow s.eng)) :=
  step_busy_ok hr (by simp [hp]) (phaseArm_wait hp _)

theorem step_gap {s : State} (hr : s.port.rst = false) (hp : s.eng.phase = .gap) :
    step s = .next (Ops.advance s (gapArm s.cfg s.eng)) :=
  step_busy_ok hr (by simp [hp]) (phaseArm_gap hp _)

theorem waitArm_done {c : Config} {us : Nat} {e : Engine} (h : c.latchUs ≤ elapsed c us e.t0) :
    waitArm c us e = { e with phase := .idle } := by
  rcases waitArm_cases c us e with ⟨_, hw⟩ | ⟨hlt, _⟩
  · exact hw
  · omega

theorem waitArm_stalled {c : Config} {us : Nat} {e : Engine} (h : elapsed c us e.t0 < c.latchUs) :
    waitArm c us e = e := by
  rcases waitArm_cases c us e with ⟨hle, _⟩ | ⟨_, hw⟩
  · omega
  · exact hw

/-- Settles O32: the arm of phase ARM is `armArm` (R201; log 15). -/
theorem armRecordsTheTimestamp : Obligations.ArmRecordsTheTimestamp := by
  unfold Obligations.ArmRecordsTheTimestamp
  exact fun s hr hp => ⟨_, step_arm hr hp, rfl⟩

/-- Settles O33: `elapsed` is the difference of the integers modulo 2^`US_W`, and the wait compares it (R202; log 15). -/
theorem waitComparesModulo : Obligations.WaitComparesModulo := by
  unfold Obligations.WaitComparesModulo
  refine ⟨fun s hr hp => ⟨_, step_wait hr hp, fun hdone => ?_, fun hstalled => ?_⟩, rfl, rfl⟩
  · rw [← elapsed_eq_emod] at hdone
    exact waitArm_done (by exact_mod_cast hdone)
  · rw [← elapsed_eq_emod] at hstalled
    exact waitArm_stalled (by exact_mod_cast hstalled)

/-! ### The phase after a step -/

/-- Inside a frame the next phase is TX, GAP or ARM, and neither IDLE nor WAIT. -/
theorem nextLed_phase_ne (c : Config) (e : Engine) : (nextLed c e).phase ≠ .idle ∧ (nextLed c e).phase ≠ .wait := by
  rcases nextLed_cases c e with ⟨_, h⟩ | ⟨_, _, h⟩ | ⟨_, _, _, h⟩ | ⟨_, _, _, h⟩ <;> simp [h]

theorem txEndLed_phase_ne (c : Config) (e : Engine) : (txEndLed c e).phase ≠ .idle ∧ (txEndLed c e).phase ≠ .wait := by
  rcases txEndLed_cases c e with ⟨_, _, _, h⟩ | ⟨_, _, h⟩ | ⟨_, _, h⟩ <;> rw [h]
  · simp
  · exact nextLed_phase_ne c _
  · simp

theorem txBit_phase_ne (c : Config) (bit : Bool) {e : Engine} (hp : e.phase = .tx) :
    (txBit c bit e).phase ≠ .idle ∧ (txBit c bit e).phase ≠ .wait := by
  rcases txBit_cases c bit e with ⟨_, h⟩ | ⟨_, _, h⟩ | ⟨_, _, _, h⟩ | ⟨_, _, _, h⟩ <;> rw [h]
  · simp [hp]
  · simp [hp]
  · simp [hp]
  · exact txEndLed_phase_ne c e

theorem gapArm_phase_ne (c : Config) {e : Engine} (hp : e.phase = .gap) :
    (gapArm c e).phase ≠ .idle ∧ (gapArm c e).phase ≠ .wait := by
  rcases gapArm_cases c e with ⟨_, h⟩ | ⟨_, h⟩ <;> rw [h]
  · simp [hp]
  · exact nextLed_phase_ne c _

/-- The one arm that leads back to IDLE is that of phase WAIT. -/
theorem wait_of_phaseArm_idle {c : Config} {us : Nat} {e e' : Engine} (h : phaseArm c us e = .ok e')
    (hbusy : e.phase ≠ .idle) (hidle : e'.phase = .idle) : e.phase = .wait ∧ c.latchUs ≤ elapsed c us e.t0 := by
  rcases phaseArm_ok h with ⟨hp, _⟩ | ⟨hp, byte, _, rfl⟩ | ⟨hp, rfl⟩ | ⟨hp, rfl⟩ | ⟨hp, rfl⟩
  · exact absurd hp hbusy
  · exact absurd hidle (txBit_phase_ne c _ hp).1
  · exact absurd hidle (gapArm_phase_ne c hp).1
  · simp at hidle
  · rcases waitArm_cases c us e with ⟨hdone, _⟩ | ⟨_, hw⟩
    · exact ⟨hp, hdone⟩
    · rw [hw] at hidle
      exact absurd hidle hbusy

/-- Settles O56: a busy engine without reset takes the arm of its phase, and only that of WAIT ends in IDLE (R165). -/
theorem busyFallsOnlyAfterTheLatchWait : Obligations.BusyFallsOnlyAfterTheLatchWait := by
  unfold Obligations.BusyFallsOnlyAfterTheLatchWait
  intro s t hr hstep
  refine ⟨fun hbusy hidle => ?_, fun hp hdone => ?_⟩
  · rw [busy_iff] at hbusy
    have hidle : t.eng.phase = .idle := by simpa [busy] using hidle
    rw [step_busy hr hbusy] at hstep
    obtain ⟨e, harm, rfl⟩ := finish_eq_next hstep
    exact wait_of_phaseArm_idle harm hbusy hidle
  · rw [step_wait hr hp, waitArm_done hdone] at hstep
    cases hstep
    rfl

/-! ### What reads the clock -/

theorem phaseArm_clock_irrelevant {e : Engine} (harm : e.phase ≠ .arm) (hwait : e.phase ≠ .wait) (c : Config)
    (us us' : Nat) : phaseArm c us e = phaseArm c us' e := by
  unfold phaseArm
  cases hp : e.phase with
  | idle => rfl
  | tx => rfl
  | gap => rfl
  | arm => exact absurd hp harm
  | wait => exact absurd hp hwait

/-- The state with another clock value on the port of this cycle. -/
def State.withClock (s : State) (us : Nat) : State := { s with port := { s.port with usNow := us } }

theorem step_quiet {s : State} (hr : s.port.rst = false) (hacc : Ops.accepted s = none) : step s = quietCycle s := by
  simp [step, hr, hacc]

/-- Settles O42: reset and an accepted word do not look at the clock, and neither do the arms of IDLE, TX and GAP (R203). -/
theorem clockReadOnlyByTheLatchTimer : Obligations.ClockReadOnlyByTheLatchTimer := by
  unfold Obligations.ClockReadOnlyByTheLatchTimer
  intro s us harm hwait
  change step (s.withClock us) = step s
  rcases step_cases s with ⟨hr, h⟩ | ⟨w, i, hacc, hdec, h⟩ | ⟨w, r, hacc, hdec, h⟩ | ⟨hr, hacc, h⟩ <;> rw [h]
  · exact step_reset (s := s.withClock us) hr
  · obtain ⟨hr, _, hp, _⟩ := accepted_eq_some hacc
    exact (step_accepted (s := s.withClock us) hacc hdec).trans (exec_idle i hr hp)
  · exact step_reserved (s := s.withClock us) hacc hdec
  · rw [step_quiet (s := s.withClock us) hr hacc, quietCycle, quietCycle,
      ← phaseArm_clock_irrelevant harm hwait s.cfg us s.port.usNow]
    cases hphase : phaseArm s.cfg us s.eng with
    | ok e => exact congrArg (Ops.finish _) hphase
    | error f => exact congrArg (Ops.finish _) hphase

/-! ### Along a run -/

/-- The port in cycle `n` of a run is what the environment gives for that cycle. -/
theorem runFor_port {n : Nat} {s t : State} (h : runFor n s = .next t) : t.port = Ops.inputAt s n := by
  simpa [Ops.inputAt] using runFor_inputAt h 0

/-- What holds in cycle 0 and is passed on by every step of a run holds in its last cycle. -/
theorem runFor_induction {P : Nat → State → Prop} {s : State} {n : Nat} (hstart : P 0 s)
    (hpass : ∀ k u v, k < n → runFor k s = .next u → P k u → step u = .next v → P (k + 1) v) {t : State}
    (hrun : runFor n s = .next t) : P n t := by
  induction n generalizing t with
  | zero =>
    cases hrun
    exact hstart
  | succ n ih =>
    obtain ⟨u, hu, hstep⟩ := runFor_succ_end_cases hrun
    have hPu := ih (fun k u v hk => hpass k u v (by omega)) hu
    exact hpass n u t (Nat.lt_succ_self n) hu hPu hstep

theorem runFor_cfg {n : Nat} {s t : State} (h : runFor n s = .next t) : t.cfg = s.cfg :=
  runFor_induction (P := fun _ u => u.cfg = s.cfg) rfl (fun _ _ _ _ _ hu hstep => (step_cfg hstep).trans hu) h

theorem runFor_tick {n : Nat} {s t : State} (h : runFor n s = .next t) : t.tick = s.tick + n := by
  refine runFor_induction (P := fun k u => u.tick = s.tick + k) rfl (fun k u v _ _ hu hstep => ?_) h
  rw [step_tick hstep, hu]
  omega

/-- Settles O38: a step keeps the configuration and adds one to the cycle number, so a run of `n` adds `n`. -/
theorem configurationIsFixed : Obligations.ConfigurationIsFixed := by
  unfold Obligations.ConfigurationIsFixed
  exact fun n s t h => ⟨runFor_cfg h, runFor_tick h⟩

theorem pinDir_commandEffect (c : Config) (i : Instr) (e : Engine) :
    (i = .init ∧ (commandEffect c i e).pinDir = .output) ∨ (i ≠ .init ∧ (commandEffect c i e).pinDir = e.pinDir) := by
  cases i with
  | init => exact .inl ⟨rfl, rfl⟩
  | config total => exact .inr ⟨nofun, rfl⟩
  | render lead count red green blue =>
    exact .inr ⟨nofun, (firstLed_frame c (seqLoad lead count red green blue e)).2.2.1⟩

/-- Without reset a step writes `PIN_DIR` only to make the pin an output, when it accepts an INIT (R22, R171). -/
theorem step_pinDir {s t : State} (hr : s.port.rst = false) (hstep : step s = .next t) :
    t.eng.pinDir = s.eng.pinDir ∨
      (t.eng.pinDir = .output ∧ ∃ w, Ops.accepted s = some w ∧ decode w = .ok .init) := by
  rcases step_eng_cases hstep with ⟨hrst, _⟩ | ⟨w, i, hacc, hdec, heng⟩ | ⟨_, _, _, _, heng⟩ | ⟨_, _, harm⟩
  · exact absurd hrst (by simp [hr])
  · rcases pinDir_commandEffect s.cfg i s.eng with ⟨rfl, hdir⟩ | ⟨_, hdir⟩ <;> rw [heng, hdir]
    · exact .inr ⟨rfl, w, hacc, hdec⟩
    · exact .inl rfl
  · exact .inl (by rw [heng])
  · exact .inl (phaseArm_frame harm).2.2

/-- Settles O41: no step without reset makes an output pin an input. -/
theorem pinStaysAnOutput : Obligations.PinStaysAnOutput := by
  unfold Obligations.PinStaysAnOutput
  intro n s t hquiet hout hrun
  refine runFor_induction (P := fun _ u => u.eng.pinDir = .output) hout (fun k u v hk hu hdir hstep => ?_) hrun
  have hr : u.port.rst = false := by rw [runFor_port hu]; exact hquiet k hk
  rcases step_pinDir hr hstep with h | ⟨h, _⟩
  · rw [h, hdir]
  · exact h

/-- A step in which no duty is broken keeps the pin an output while a render is in progress: a RENDER that is accepted
finds it an output (R178, R236). -/
theorem output_or_idle_step {s t : State} (hduty : breach s = none) (h : s.eng.pinDir = .output ∨ s.eng.phase = .idle)
    (hstep : step s = .next t) : t.eng.pinDir = .output ∨ t.eng.phase = .idle := by
  rcases step_eng_cases hstep with ⟨_, heng⟩ | ⟨w, i, hacc, hdec, heng⟩ | ⟨_, _, _, _, heng⟩ | ⟨_, _, harm⟩
  · exact .inr (by rw [heng]; rfl)
  · have hp := (accepted_eq_some hacc).2.2.1
    rw [heng]
    rcases pinDir_commandEffect s.cfg i s.eng with ⟨_, hdir⟩ | ⟨hinit, hdir⟩
    · exact .inl hdir
    · cases i with
      | init => exact absurd rfl hinit
      | config total => exact .inr hp
      | render lead count red green blue =>
        rw [hdir]
        rw [breach_render hacc hdec] at hduty
        cases hin : s.eng.pinDir with
        | output => exact .inl rfl
        | input => simp [hin] at hduty
  · rwa [heng]
  · rcases h with hout | hp
    · exact .inl ((phaseArm_frame harm).2.2.trans hout)
    · rw [phaseArm_idle hp] at harm
      exact .inr (by rw [← Except.ok.inj harm, hp])

/-- Settles O59: every dutiful step keeps the pin an output or the phase IDLE. -/
theorem dutifulFramesReachThePin : Obligations.DutifulFramesReachThePin := by
  unfold Obligations.DutifulFramesReachThePin
  intro n s t hduty h hrun
  exact runFor_induction (P := fun _ u => u.eng.pinDir = .output ∨ u.eng.phase = .idle) h
    (fun k u v hk hu hPu hstep => output_or_idle_step (hduty k hk u hu) hPu hstep) hrun

end Sys2Proof.Machine
end

section
/-! Waiting on the machine (43_latch_timer.md, 45_cycle_machine.md section 2): the whole gap, the wait of the Latch Timer,
and the wait on the reference clock. -/

namespace Sys2Proof.Machine

open Sys2Proof.Safety

/-- In a run without reset no step of it is one. -/
theorem runFor_noReset {n k : Nat} {s u : State} (hquiet : NoReset n s) (hk : k < n) (h : runFor k s = .next u) :
    u.port.rst = false := by
  rw [runFor_port h]
  exact hquiet k hk

theorem noReset_mono {m n : Nat} {s : State} (h : NoReset n s) (hle : m ≤ n) : NoReset m s :=
  fun k hk => h k (hk.trans_le hle)

/-! ### The gap -/

theorem gapArm_counting (c : Config) {e : Engine} (h : 1 < e.gapCnt.toNat) :
    gapArm c e = { e with gapCnt := e.gapCnt - 1 } := by
  rcases gapArm_cases c e with ⟨_, hg⟩ | ⟨hle, _⟩
  · exact hg
  · omega

theorem gapArm_over (c : Config) {e : Engine} (h : e.gapCnt.toNat ≤ 1) : gapArm c e = nextLed c { e with gapCnt := 0 } := by
  rcases gapArm_cases c e with ⟨hgt, _⟩ | ⟨_, hg⟩
  · omega
  · exact hg

theorem nextLed_end (c : Config) {e : Engine} (hlead : e.nlead = 0) (hcol : e.ncol = 0) (htrail : e.ntrail = 0) :
    nextLed c e = frameOver e := by
  rw [nextLed, seqNext_end hlead hcol htrail]

/-- The registers of the first cycle of an LED, with its base left open (R195). -/
def StartsLed (e : Engine) : Prop :=
  e.phase = .tx ∧ (e.ptr = 0 ∨ e.ptr = 3) ∧ e.cnt = 3 ∧ e.bitIdx = 7 ∧ e.cyc = 0 ∧ e.pinLevel = .high

theorem startsLed_startLed (c : Config) {base : RecAddr} (hbase : base = 0 ∨ base = 3) (e : Engine) :
    StartsLed (startLed c base e) := ⟨rfl, hbase, startLed_cnt c base e, startLed_bitIdx c base e, rfl, rfl⟩

/-- With an LED left, `SEQ.NEXT` starts one (R146, R195). -/
theorem startsLed_nextLed (c : Config) {e : Engine} (hsome : ¬ (e.nlead = 0 ∧ e.ncol = 0 ∧ e.ntrail = 0)) :
    StartsLed (nextLed c e) := by
  rcases nextLed_cases c e with ⟨_, h⟩ | ⟨_, _, h⟩ | ⟨_, _, _, h⟩ | ⟨hlead, hcol, htrail, _⟩
  · exact h ▸ startsLed_startLed c (.inl rfl) _
  · exact h ▸ startsLed_startLed c (.inr rfl) _
  · exact h ▸ startsLed_startLed c (.inl rfl) _
  · exact absurd ⟨hlead, hcol, htrail⟩ hsome

/-- A gap of `GAPCNT` cycles counts down and writes no other register. -/
theorem runFor_gap {s : State} (hp : s.eng.phase = .gap) (hquiet : NoReset s.eng.gapCnt.toNat s) {k : Nat}
    (hk : k < s.eng.gapCnt.toNat) :
    ∃ t, runFor k s = .next t ∧ t.eng = { s.eng with gapCnt := BitVec.ofNat 8 (s.eng.gapCnt.toNat - k) } := by
  induction k with
  | zero => exact ⟨s, rfl, by simp⟩
  | succ k ih =>
    obtain ⟨u, hrun, heng⟩ := ih (by omega)
    have hr := runFor_noReset hquiet (by omega) hrun
    have hcnt : u.eng.gapCnt.toNat = s.eng.gapCnt.toNat - k := by
      rw [heng]
      exact Nat.mod_eq_of_lt (by omega)
    refine ⟨_, (runFor_succ_end hrun).trans (step_gap hr (by rw [heng]; exact hp)), ?_⟩
    have hpred : u.eng.gapCnt - 1 = BitVec.ofNat 8 (s.eng.gapCnt.toNat - (k + 1)) := by bv_omega
    rw [advance_eng, gapArm_counting _ (by omega), hpred, heng]

/-- The cycle after the gap is the first of an LED. -/
theorem runFor_gap_over {s : State} (hp : s.eng.phase = .gap)
    (hsome : ¬ (s.eng.nlead = 0 ∧ s.eng.ncol = 0 ∧ s.eng.ntrail = 0)) (hcnt : 1 ≤ s.eng.gapCnt.toNat)
    (hquiet : NoReset s.eng.gapCnt.toNat s) :
    ∃ t, runFor s.eng.gapCnt.toNat s = .next t ∧ t.eng.phase = .tx ∧ t.eng.pinLevel = .high := by
  obtain ⟨u, hrun, heng⟩ := runFor_gap hp hquiet (k := s.eng.gapCnt.toNat - 1) (by omega)
  have hr := runFor_noReset hquiet (by omega) hrun
  have hone : u.eng.gapCnt.toNat ≤ 1 := by
    rw [heng, show s.eng.gapCnt.toNat - (s.eng.gapCnt.toNat - 1) = 1 by omega]
    exact le_rfl
  have hstep := step_gap hr (by rw [heng]; exact hp)
  have hlast := runFor_succ_end hrun
  rw [show s.eng.gapCnt.toNat - 1 + 1 = s.eng.gapCnt.toNat by omega, hstep] at hlast
  refine ⟨_, hlast, ?_⟩
  rw [advance_eng, gapArm_over _ hone]
  obtain ⟨htx, _, _, _, _, hhigh⟩ := startsLed_nextLed u.cfg (e := { u.eng with gapCnt := 0 }) (by rw [heng]; exact hsome)
  exact ⟨htx, hhigh⟩

/-- Settles O31: one cycle is `gapArm`; the whole gap is its countdown, during which the level stays as it was (R200). -/
theorem gapCycle : Obligations.GapCycle := by
  unfold Obligations.GapCycle
  intro s hp hsome
  refine ⟨fun hr => ⟨_, step_gap hr hp, gapArm_counting s.cfg, fun hle hlead => ?_, fun hle hlead hcol => ?_,
    fun hle hlead hcol => ?_⟩, fun hcnt hquiet => ⟨fun k hk => ?_, runFor_gap_over hp hsome hcnt hquiet⟩,
    fun hcyc hlow hpos hquiet => ?_⟩
  · rw [advance_eng, gapArm_over _ hle, nextLed_lead, startLed_eq]
    exact hlead
  · rw [advance_eng, gapArm_over _ hle, nextLed_colored, startLed_eq]
    exacts [hlead, hcol]
  · have htrail : s.eng.ntrail ≠ 0 := fun h => hsome ⟨hlead, hcol, h⟩
    rw [advance_eng, gapArm_over _ hle, nextLed_trail, startLed_eq]
    exacts [hlead, hcol, htrail]
  · obtain ⟨t, hrun, heng⟩ := runFor_gap hp hquiet hk
    exact ⟨t, hrun, heng, by rw [heng]; exact (irqInhibit_iff _).2 (.inr hp)⟩
  · rw [← hcyc] at hpos hquiet ⊢
    refine ⟨fun k hk => ?_, runFor_gap_over hp hsome hpos hquiet⟩
    obtain ⟨t, hrun, heng⟩ := runFor_gap hp hquiet hk
    refine ⟨t, hrun, ?_⟩
    rw [heng]
    exact ⟨hp, hlow, (irqInhibit_iff _).2 (.inr hp)⟩

/-! ### The wait -/

/-- While the clock is stalled the wait writes no register (R163, R202). -/
theorem runFor_stalled {m : Nat} {s : State} (hstalled : LatchClockStalled m s) (hquiet : NoReset m s) :
    ∃ t, runFor m s = .next t ∧ t.eng = s.eng := by
  induction m with
  | zero => exact ⟨s, rfl, rfl⟩
  | succ m ih =>
    obtain ⟨hp, hclock⟩ := hstalled
    obtain ⟨u, hrun, heng⟩ := ih ⟨hp, fun k hk => hclock k (by omega)⟩ (noReset_mono hquiet (by omega))
    have hr := runFor_noReset hquiet (Nat.lt_succ_self m) hrun
    refine ⟨_, (runFor_succ_end hrun).trans (step_wait hr (by rw [heng]; exact hp)), ?_⟩
    have hlate : elapsed u.cfg u.port.usNow u.eng.t0 < u.cfg.latchUs := by
      rw [runFor_cfg hrun, runFor_port hrun, heng]
      exact hclock m (Nat.lt_succ_self m)
    rw [advance_eng, waitArm_stalled hlate, heng]

/-- Settles O54: a stalled wait keeps the registers, and the first cycle that is not stalled goes to IDLE (R163). -/
theorem waitEndsWhenTheClockSaysSo : Obligations.WaitEndsWhenTheClockSaysSo := by
  unfold Obligations.WaitEndsWhenTheClockSaysSo
  intro s m hstalled
  have hp := hstalled.1
  refine ⟨fun hquiet => ?_, fun hquiet hdone => ?_⟩
  · obtain ⟨t, hrun, heng⟩ := runFor_stalled hstalled hquiet
    refine ⟨t, hrun, heng, ?_⟩
    rw [heng]
    exact ⟨(busy_iff _).2 (by simp [hp]), by simp [cmdReady, hp], by simp [irqInhibit, hp]⟩
  · obtain ⟨u, hrun, heng⟩ := runFor_stalled hstalled (noReset_mono hquiet (Nat.le_succ m))
    have hr := runFor_noReset hquiet (Nat.lt_succ_self m) hrun
    refine ⟨_, (runFor_succ_end hrun).trans (step_wait hr (by rw [heng]; exact hp)), ?_⟩
    have hclock : u.cfg.latchUs ≤ elapsed u.cfg u.port.usNow u.eng.t0 := by
      rwa [runFor_cfg hrun, runFor_port hrun, heng]
    rw [advance_eng, waitArm_done hclock, heng]

/-! ### The reference clock -/

/-- `CYC_PER_US` at the two supported frequencies (R7, R10). -/
theorem cycPerUs_cases (c : Config) : c.cycPerUs = 8 ∨ c.cycPerUs = 16 := by
  rcases (clockSupported_iff c.toRawConfig).1 c.clockOk with h | h
  · exact .inl (by rw [Config.cycPerUs, h])
  · exact .inr (by rw [Config.cycPerUs, h])

theorem elapsed_clockValue (c : Config) (us us0 : Nat) : elapsed c us (clockValue c us0) = elapsed c us us0 := by
  simp only [elapsed, clockValue, Nat.mod_mod]

/-- A clock that has gone on by less than a turn shows the difference itself. -/
theorem elapsed_add {c : Config} {u v : Nat} (hv : v < 2 ^ c.usW) : elapsed c (u + v) u = v := by
  have h := elapsed_eq_emod c (u + v) u
  rw [Nat.cast_add, add_sub_cancel_left, Int.emod_eq_of_lt (Int.natCast_nonneg v) (by exact_mod_cast hv)] at h
  exact_mod_cast h

theorem elapsed_mod_left (c : Config) (us us0 : Nat) : elapsed c (us % 2 ^ c.usW) us0 = elapsed c us us0 := by
  simp only [elapsed, clockValue, Nat.mod_mod]

/-- Two cycles of the reference clock less than a turn apart show the ticks between them (R161). -/
theorem elapsed_refClock (c : Config) (u0 : Nat) {a x : Nat} (hle : a ≤ x) (hturn : x - a < 2 ^ c.usW) :
    elapsed c (refClock c u0 x) (refClock c u0 a) = x / c.cycPerUs - a / c.cycPerUs := by
  have hticks : a / c.cycPerUs ≤ x / c.cycPerUs := Nat.div_le_div_right hle
  have hslow : x / c.cycPerUs - a / c.cycPerUs ≤ x - a := by
    rcases cycPerUs_cases c with h | h <;> rw [h] <;> omega
  rw [refClock, elapsed_mod_left, refClock, ← clockValue, elapsed_clockValue,
    show u0 + x / c.cycPerUs = u0 + a / c.cycPerUs + (x / c.cycPerUs - a / c.cycPerUs) by omega]
  exact elapsed_add (by omega)

/-- The condition of the wait on the reference clock, as a cycle number (R168). -/
theorem latchUs_le_elapsed_refClock_iff (c : Config) (u0 : Nat) {a x : Nat} (hle : a ≤ x) (hturn : x - a < 2 ^ c.usW) :
    c.latchUs ≤ elapsed c (refClock c u0 x) (refClock c u0 a) ↔ c.cycPerUs * (a / c.cycPerUs + c.latchUs) ≤ x := by
  have hpos : 0 < c.cycPerUs := by rcases cycPerUs_cases c with h | h <;> omega
  have hticks : a / c.cycPerUs ≤ x / c.cycPerUs := Nat.div_le_div_right hle
  rw [elapsed_refClock c u0 hle hturn, Nat.mul_comm, ← Nat.le_div_iff_mul_le hpos]
  omega

/-- The machine on the reference clock: WAIT up to the cycle of R168, IDLE in the next. -/
theorem wait_on_refClock {s : State} {u0 a x : Nat}
    (hx : x = s.cfg.cycPerUs * (a / s.cfg.cycPerUs + s.cfg.latchUs)) (hp : s.eng.phase = .arm) (hlt : a < x)
    (hturn : x - a < 2 ^ s.cfg.usW) (hquiet : NoReset (x - a + 1) s)
    (hclock : ∀ k, k ≤ x - a → (Ops.inputAt s k).usNow = refClock s.cfg u0 (a + k)) :
    (∀ k, 1 ≤ k → k ≤ x - a → ∃ t, runFor k s = .next t ∧ t.eng.phase = .wait) ∧
      (∃ t, runFor (x - a + 1) s = .next t ∧ t.eng.phase = .idle) := by
  have hstep := step_arm (hquiet 0 (by omega)) hp
  have hrest : NoReset (x - a) (Ops.advance s (armArm s.cfg s.port.usNow s.eng)) := fun k hk => by
    rw [inputAt_advance]
    exact hquiet (k + 1) (by omega)
  have hnow : ∀ j, j < x - a → (s.cfg.latchUs ≤ elapsed s.cfg (Ops.inputAt s (j + 1)).usNow
      (clockValue s.cfg s.port.usNow) ↔ x ≤ a + (j + 1)) := fun j hj => by
    have hstart : s.port.usNow = refClock s.cfg u0 a := hclock 0 (by omega)
    rw [elapsed_clockValue, hclock (j + 1) (by omega), hstart,
      latchUs_le_elapsed_refClock_iff s.cfg u0 (by omega) (by omega), hx]
  have hstalled : ∀ m, m < x - a → LatchClockStalled m (Ops.advance s (armArm s.cfg s.port.usNow s.eng)) :=
    fun m hm => ⟨rfl, fun j hj => by
      rw [inputAt_advance]
      have hnot := mt (hnow j (by omega)).1 (by omega)
      exact Nat.not_le.1 hnot⟩
  refine ⟨fun k hpos hk => ?_, ?_⟩
  · obtain ⟨t, hrun, heng⟩ := runFor_stalled (hstalled (k - 1) (by omega)) (noReset_mono hrest (by omega))
    refine ⟨t, ?_, by rw [heng]; rfl⟩
    rw [← Nat.sub_add_cancel hpos, runFor_succ_of hstep, hrun]
  · have hwait := (waitEndsWhenTheClockSaysSo _ (x - a - 1) (hstalled (x - a - 1) (by omega))).2
    rw [Nat.sub_add_cancel (by omega : 1 ≤ x - a)] at hwait
    obtain ⟨t, hrun, heng⟩ := hwait hrest (by
      rw [inputAt_advance]
      exact (hnow (x - a - 1) (by omega)).2 (by omega))
    exact ⟨t, by rw [runFor_succ_of hstep, hrun], by rw [heng]⟩

/-- Settles O57: the condition of the wait counts the ticks of the reference clock since the ARM cycle (R168, R179). -/
theorem referenceClockWait : Obligations.ReferenceClockWait := by
  unfold Obligations.ReferenceClockWait
  refine ⟨fun c u0 a x hle hturn => ?_, ?_⟩
  · rw [latchDone, decide_eq_true_eq]
    exact latchUs_le_elapsed_refClock_iff c u0 hle hturn
  · intro s u0 a x hp hpos hturn hquiet hclock
    have hlt : a < x := by
      have hfirst : s.cfg.cycPerUs * (a / s.cfg.cycPerUs + 1) ≤ x := Nat.mul_le_mul_left _ (by omega)
      rcases cycPerUs_cases s.cfg with h | h <;> rw [h] at hfirst <;> omega
    exact ⟨hlt, wait_on_refClock rfl hp hlt hturn hquiet hclock⟩

end Sys2Proof.Machine
end

section
/-! The access table (10_state.md section 11): the inversion of a step without reset, and each row of the table from it. -/

namespace Sys2Proof.Machine

open Sys2Proof.Safety

/-! ### The inversion of a step -/

/-- The word of a RENDER is accepted in this cycle. -/
def AcceptsRender (s : State) : Prop :=
  ∃ w lead count red green blue, Ops.accepted s = some w ∧ decode w = .ok (.render lead count red green blue)

/-- Everything a step without reset can do to the registers: the effect of a command, or the arm of a phase. -/
theorem step_inversion {s t : State} (hr : s.port.rst = false) (hstep : step s = .next t) :
    (∃ w, Ops.accepted s = some w ∧ decode w = .ok .init ∧ t.eng = initEffect s.eng) ∨
    (∃ w total, Ops.accepted s = some w ∧ decode w = .ok (.config total) ∧ t.eng = configEffect s.cfg total s.eng) ∨
    (AcceptsRender s ∧ s.eng.phase = .idle ∧
      ∃ lead count red green blue, t.eng = firstLed s.cfg (seqLoad lead count red green blue s.eng)) ∨
    (s.eng.phase = .idle ∧ t.eng = s.eng) ∨
    (s.eng.phase = .tx ∧ ∃ bit, t.eng = txBit s.cfg bit s.eng) ∨
    (s.eng.phase = .gap ∧ t.eng = gapArm s.cfg s.eng) ∨
    (s.eng.phase = .arm ∧ t.eng = armArm s.cfg s.port.usNow s.eng) ∨
    (s.eng.phase = .wait ∧ t.eng = waitArm s.cfg s.port.usNow s.eng) := by
  rcases step_eng_cases hstep with ⟨hrst, _⟩ | ⟨w, i, hacc, hdec, heng⟩ | ⟨_, _, hacc, _, heng⟩ | ⟨_, _, harm⟩
  · exact absurd hrst (by simp [hr])
  · have hp := (accepted_eq_some hacc).2.2.1
    cases i with
    | init => exact .inl ⟨w, hacc, hdec, heng⟩
    | config total => exact .inr (.inl ⟨w, total, hacc, hdec, heng⟩)
    | render lead count red green blue =>
      exact .inr (.inr (.inl ⟨⟨w, lead, count, red, green, blue, hacc, hdec⟩, hp, lead, count, red, green, blue, heng⟩))
  · exact .inr (.inr (.inr (.inl ⟨(accepted_eq_some hacc).2.2.1, heng⟩)))
  · rcases phaseArm_ok harm with ⟨hp, he⟩ | ⟨hp, byte, _, he⟩ | ⟨hp, he⟩ | ⟨hp, he⟩ | ⟨hp, he⟩
    · exact .inr (.inr (.inr (.inl ⟨hp, he⟩)))
    · exact .inr (.inr (.inr (.inr (.inl ⟨hp, _, he⟩))))
    · exact .inr (.inr (.inr (.inr (.inr (.inl ⟨hp, he⟩)))))
    · exact .inr (.inr (.inr (.inr (.inr (.inr (.inl ⟨hp, he⟩))))))
    · exact .inr (.inr (.inr (.inr (.inr (.inr (.inr ⟨hp, he⟩))))))

/-! ### The counters and the position -/

/-- The two states have the same run counters. -/
def SameCounters (e e' : Engine) : Prop := e'.nlead = e.nlead ∧ e'.ncol = e.ncol ∧ e'.ntrail = e.ntrail

/-- The two states have the same position registers. -/
def SamePosition (e e' : Engine) : Prop := e'.ptr = e.ptr ∧ e'.cnt = e.cnt ∧ e'.bitIdx = e.bitIdx ∧ e'.cyc = e.cyc

/-- `SEQ.NEXT` starts an LED, or the frame is over and only the phase and the level change. -/
theorem nextLed_starts_or_over (c : Config) (e : Engine) : StartsLed (nextLed c e) ∨ nextLed c e = frameOver e := by
  by_cases h : e.nlead = 0 ∧ e.ncol = 0 ∧ e.ntrail = 0
  · obtain ⟨hlead, hcol, htrail⟩ := h
    exact .inr (nextLed_end c hlead hcol htrail)
  · exact .inl (startsLed_nextLed c h)

/-- The end of an LED writes a counter only when it starts the next one (R199). -/
theorem txEndLed_counters (c : Config) (e : Engine) : SameCounters e (txEndLed c e) ∨ StartsLed (txEndLed c e) := by
  rcases txEndLed_cases c e with ⟨_, _, _, h⟩ | ⟨hsome, _, h⟩ | ⟨_, _, h⟩ <;> rw [h]
  · exact .inl ⟨rfl, rfl, rfl⟩
  · exact .inr (startsLed_nextLed c hsome)
  · exact .inl ⟨rfl, rfl, rfl⟩

theorem txBit_counters (c : Config) (bit : Bool) (e : Engine) :
    SameCounters e (txBit c bit e) ∨ StartsLed (txBit c bit e) := by
  rcases txBit_cases c bit e with ⟨_, h⟩ | ⟨_, _, h⟩ | ⟨_, _, _, h⟩ | ⟨_, _, _, h⟩ <;> rw [h]
  · exact .inl ⟨rfl, rfl, rfl⟩
  · exact .inl ⟨rfl, rfl, rfl⟩
  · exact .inl ⟨rfl, rfl, rfl⟩
  · exact txEndLed_counters c e

/-- A cycle of the gap starts an LED or leaves the counters and the position alone (R200). -/
theorem gapArm_session (c : Config) (e : Engine) :
    (SameCounters e (gapArm c e) ∧ SamePosition e (gapArm c e)) ∨ StartsLed (gapArm c e) := by
  rcases gapArm_cases c e with ⟨_, h⟩ | ⟨_, h⟩ <;> rw [h]
  · exact .inl ⟨⟨rfl, rfl, rfl⟩, rfl, rfl, rfl, rfl⟩
  · rcases nextLed_starts_or_over c { e with gapCnt := 0 } with hstart | hover
    · exact .inr hstart
    · rw [hover]
      exact .inl ⟨⟨rfl, rfl, rfl⟩, rfl, rfl, rfl, rfl⟩

/-- The end of an LED writes `GAPCNT` only on the way into the gap (R199). -/
theorem txBit_gapCnt (c : Config) (bit : Bool) (e : Engine) :
    (txBit c bit e).gapCnt = e.gapCnt ∨ (txBit c bit e).phase = .gap := by
  rcases txBit_cases c bit e with ⟨_, h⟩ | ⟨_, _, h⟩ | ⟨_, _, _, h⟩ | ⟨_, _, _, h⟩ <;> rw [h]
  · exact .inl rfl
  · exact .inl rfl
  · exact .inl rfl
  · rcases txEndLed_cases c e with ⟨_, _, _, hend⟩ | ⟨_, _, hend⟩ | ⟨_, _, hend⟩ <;> rw [hend]
    · exact .inl rfl
    · exact .inl (nextLed_frame c { e with cnt := 0, cyc := 0 }).2.2.2.2
    · exact .inr rfl

/-- An accepted RENDER raises the level or leaves it (R194). -/
theorem firstLed_pinLevel (c : Config) (e : Engine) :
    (firstLed c e).pinLevel = .high ∨ (firstLed c e).pinLevel = e.pinLevel := by
  rcases firstLed_cases c e with ⟨_, h⟩ | ⟨_, _, h⟩ | ⟨_, _, _, h⟩ | ⟨_, _, _, h⟩ <;> simp [h]

/-! ### The access table, a row each -/

section AccessTable

variable {s t : State} (hr : s.port.rst = false) (hstep : step s = .next t)

include hr hstep

theorem config_of_total_ne (h : t.eng.total ≠ s.eng.total) :
    ∃ w total, Ops.accepted s = some w ∧ decode w = .ok (.config total) ∧
      (total.toNat < 2 ^ s.cfg.totalW → t.eng.total = total.toNat) := by
  rcases step_inversion hr hstep with ⟨_, _, _, he⟩ | ⟨w, total, hacc, hdec, he⟩ | ⟨_, _, l, n, r, g, b, he⟩ | ⟨_, he⟩ |
    ⟨_, bit, he⟩ | ⟨_, he⟩ | ⟨_, he⟩ | ⟨_, he⟩ <;> rw [he] at h
  · exact absurd rfl h
  · exact ⟨w, total, hacc, hdec, fun hfits => by rw [he, configEffect_of_fits _ hfits]⟩
  · exact absurd (firstLed_frame s.cfg (seqLoad l n r g b s.eng)).2.1 h
  · exact absurd rfl h
  · exact absurd (txBit_frame s.cfg bit s.eng).2.1 h
  · exact absurd (gapArm_frame s.cfg s.eng).2.1 h
  · exact absurd rfl h
  · exact absurd (by rw [waitArm_frame]) h

theorem init_of_pinDir_ne (h : t.eng.pinDir ≠ s.eng.pinDir) :
    (∃ w, Ops.accepted s = some w ∧ decode w = .ok .init) ∧ t.eng.pinDir = .output := by
  rcases step_pinDir hr hstep with hsame | ⟨hout, hinit⟩
  · exact absurd hsame h
  · exact ⟨hinit, hout⟩

theorem cause_of_pinLevel_ne (h : t.eng.pinLevel ≠ s.eng.pinLevel) :
    ((∃ w, Ops.accepted s = some w ∧ decode w = .ok .init) ∧ t.eng.pinLevel = .low) ∨
      (AcceptsRender s ∧ t.eng.pinLevel = .high) ∨ s.eng.phase = .tx ∨ s.eng.phase = .gap := by
  rcases step_inversion hr hstep with ⟨w, hacc, hdec, he⟩ | ⟨_, _, _, _, he⟩ | ⟨hrender, _, l, n, r, g, b, he⟩ | ⟨_, he⟩ |
    ⟨hp, _⟩ | ⟨hp, _⟩ | ⟨_, he⟩ | ⟨_, he⟩
  · exact .inl ⟨⟨w, hacc, hdec⟩, by rw [he]; rfl⟩
  · exact absurd (by rw [he]; rfl) h
  · rcases firstLed_pinLevel s.cfg (seqLoad l n r g b s.eng) with hhigh | hsame
    · exact .inr (.inl ⟨hrender, by rw [he, hhigh]⟩)
    · exact absurd (by rw [he, hsame]; rfl) h
  · exact absurd (by rw [he]) h
  · exact .inr (.inr (.inl hp))
  · exact .inr (.inr (.inr hp))
  · exact absurd (by rw [he]; rfl) h
  · exact absurd (by rw [he, waitArm_frame]) h

theorem render_or_busy_of_phase_ne (h : t.eng.phase ≠ s.eng.phase) : AcceptsRender s ∨ s.eng.phase ≠ .idle := by
  rcases step_inversion hr hstep with ⟨_, _, _, he⟩ | ⟨_, _, _, _, he⟩ | ⟨hrender, _⟩ | ⟨_, he⟩ | ⟨hp, _⟩ | ⟨hp, _⟩ |
    ⟨hp, _⟩ | ⟨hp, _⟩
  · exact absurd (by rw [he]; rfl) h
  · exact absurd (by rw [he]; rfl) h
  · exact .inl hrender
  · exact absurd (by rw [he]) h
  all_goals exact .inr (by simp [hp])

/-- The registers of the frame stay but for an accepted RENDER and in phases TX and GAP. -/
theorem frame_cases :
    (SameCounters s.eng t.eng ∧ SamePosition s.eng t.eng ∧ t.eng.gapCnt = s.eng.gapCnt) ∨
    (AcceptsRender s ∧ t.eng.gapCnt = s.eng.gapCnt) ∨
    (s.eng.phase = .tx ∧ ∃ bit, t.eng = txBit s.cfg bit s.eng) ∨
    (s.eng.phase = .gap ∧ t.eng = gapArm s.cfg s.eng) := by
  have hsame : ∀ e, SameCounters e e ∧ SamePosition e e ∧ e.gapCnt = e.gapCnt :=
    fun _ => ⟨⟨rfl, rfl, rfl⟩, ⟨rfl, rfl, rfl, rfl⟩, rfl⟩
  rcases step_inversion hr hstep with ⟨_, _, _, he⟩ | ⟨_, _, _, _, he⟩ | ⟨hrender, _, l, n, r, g, b, he⟩ | ⟨_, he⟩ |
    htx | hgap | ⟨_, he⟩ | ⟨_, he⟩
  · exact .inl (he ▸ hsame s.eng)
  · exact .inl (he ▸ hsame s.eng)
  · have hgapCnt := (firstLed_frame s.cfg (seqLoad l n r g b s.eng)).2.2.2.2
    exact .inr (.inl ⟨hrender, he ▸ hgapCnt⟩)
  · exact .inl (he ▸ hsame s.eng)
  · exact .inr (.inr (.inl htx))
  · exact .inr (.inr (.inr hgap))
  · exact .inl (he ▸ hsame s.eng)
  · rw [waitArm_frame] at he
    exact .inl (he ▸ hsame s.eng)

/-- The counters stay, or a RENDER is accepted, or an LED starts. -/
theorem counters_cases : SameCounters s.eng t.eng ∨ AcceptsRender s ∨
    ((s.eng.phase = .tx ∨ s.eng.phase = .gap) ∧ StartsLed t.eng) := by
  rcases frame_cases hr hstep with ⟨hsame, _⟩ | ⟨hrender, _⟩ | ⟨hp, bit, he⟩ | ⟨hp, he⟩
  · exact .inl hsame
  · exact .inr (.inl hrender)
  · rw [he]
    exact (txBit_counters s.cfg bit s.eng).imp_right fun hstart => .inr ⟨.inl hp, hstart⟩
  · rw [he]
    exact (gapArm_session s.cfg s.eng).imp And.left fun hstart => .inr ⟨.inr hp, hstart⟩

/-- The position stays, or a RENDER is accepted, or an LED starts, or the phase is TX. -/
theorem position_cases : SamePosition s.eng t.eng ∨ AcceptsRender s ∨
    ((s.eng.phase = .tx ∨ s.eng.phase = .gap) ∧ StartsLed t.eng) ∨ s.eng.phase = .tx := by
  rcases frame_cases hr hstep with ⟨_, hsame, _⟩ | ⟨hrender, _⟩ | ⟨hp, _⟩ | ⟨hp, he⟩
  · exact .inl hsame
  · exact .inr (.inl hrender)
  · exact .inr (.inr (.inr hp))
  · rw [he]
    exact (gapArm_session s.cfg s.eng).imp And.right fun hstart => .inr (.inl ⟨.inr hp, hstart⟩)

theorem gap_of_gapCnt_ne (h : t.eng.gapCnt ≠ s.eng.gapCnt) :
    s.eng.phase = .gap ∨ (s.eng.phase = .tx ∧ t.eng.phase = .gap) := by
  rcases frame_cases hr hstep with ⟨_, _, hsame⟩ | ⟨_, hsame⟩ | ⟨hp, bit, he⟩ | ⟨hp, _⟩
  · exact absurd hsame h
  · exact absurd hsame h
  · rcases txBit_gapCnt s.cfg bit s.eng with hsame | hgap
    · exact absurd (he ▸ hsame) h
    · exact .inr ⟨hp, he ▸ hgap⟩
  · exact .inl hp

theorem arm_of_t0_ne (h : t.eng.t0 ≠ s.eng.t0) :
    s.eng.phase = .arm ∧ t.eng.t0 = s.port.usNow % 2 ^ s.cfg.usW := by
  rcases step_inversion hr hstep with ⟨_, _, _, he⟩ | ⟨_, _, _, _, he⟩ | ⟨_, _, l, n, r, g, b, he⟩ | ⟨_, he⟩ |
    ⟨_, bit, he⟩ | ⟨_, he⟩ | ⟨hp, he⟩ | ⟨_, he⟩
  · exact absurd (by rw [he]; rfl) h
  · exact absurd (by rw [he]; rfl) h
  · exact absurd (by rw [he]; exact (firstLed_frame s.cfg (seqLoad l n r g b s.eng)).2.2.2.1) h
  · exact absurd (by rw [he]) h
  · exact absurd (by rw [he]; exact (txBit_frame s.cfg bit s.eng).2.2.2) h
  · exact absurd (by rw [he]; exact (gapArm_frame s.cfg s.eng).2.2.2) h
  · exact ⟨hp, by rw [he]; rfl⟩
  · exact absurd (by rw [he, waitArm_frame]) h

end AccessTable

/-- Settles O39: the rows of the access table (R45), each from the inversion of the step. -/
theorem registersChangeOnlyWhereAssigned : Obligations.RegistersChangeOnlyWhereAssigned := by
  unfold Obligations.RegistersChangeOnlyWhereAssigned
  intro s t hr hstep render init startsLed
  refine ⟨config_of_total_ne hr hstep, init_of_pinDir_ne hr hstep, cause_of_pinLevel_ne hr hstep,
    render_or_busy_of_phase_ne hr hstep, accepted_render_of_mem_ne hr hstep, fun h => ?_, fun h => ?_,
    gap_of_gapCnt_ne hr hstep, arm_of_t0_ne hr hstep⟩
  · rcases counters_cases hr hstep with ⟨hlead, hcol, htrail⟩ | hcause
    · simp [hlead, hcol, htrail] at h
    · exact hcause
  · rcases position_cases hr hstep with ⟨hptr, hcnt, hidx, hcyc⟩ | hcause
    · simp [hptr, hcnt, hidx, hcyc] at h
    · exact hcause

end Sys2Proof.Machine
end

section
/-! The guard window (41_critical_section_guard.md): the steps that open it and that close it (R132, R133). -/

namespace Sys2Proof.Machine

open Sys2Proof.Safety

theorem irqInhibit_eq_false_iff (e : Engine) : irqInhibit e = false ↔ e.phase ≠ .tx ∧ e.phase ≠ .gap := by
  rw [← Bool.not_eq_true, irqInhibit_iff, not_or]

theorem irqInhibit_congr {e e' : Engine} (h : e'.phase = e.phase) : irqInhibit e' = irqInhibit e := by
  rw [irqInhibit, irqInhibit, h]

/-- The first `SEQ.NEXT` of a render call opens the window with the first HIGH cycle, or goes to ARM outside it. -/
theorem firstLed_phase (c : Config) (e : Engine) :
    ((firstLed c e).phase = .tx ∧ (firstLed c e).pinLevel = .high) ∨ (firstLed c e).phase = .arm := by
  rcases firstLed_cases c e with ⟨_, h⟩ | ⟨_, _, h⟩ | ⟨_, _, _, h⟩ | ⟨_, _, _, h⟩ <;> simp [h]

/-- The window opens with the acceptance of a RENDER only (R132). -/
theorem acquired_render {s t : State} (hr : s.port.rst = false) (hstep : step s = .next t)
    (hout : irqInhibit s.eng = false) (hin : irqInhibit t.eng = true) :
    s.eng.phase = .idle ∧ t.eng.phase = .tx ∧ t.eng.pinLevel = .high ∧ AcceptsRender s := by
  obtain ⟨hntx, hngap⟩ := (irqInhibit_eq_false_iff _).1 hout
  rcases step_inversion hr hstep with ⟨_, _, _, he⟩ | ⟨_, _, _, _, he⟩ | ⟨hrender, hp, l, n, r, g, b, he⟩ | ⟨_, he⟩ |
    ⟨hp, _⟩ | ⟨hp, _⟩ | ⟨_, he⟩ | ⟨hp, he⟩
  · rw [he, irqInhibit_congr (initEffect_phase _), hout] at hin
    cases hin
  · rw [he, irqInhibit_congr (configEffect_phase _ _ _), hout] at hin
    cases hin
  · rcases firstLed_phase s.cfg (seqLoad l n r g b s.eng) with ⟨htx, hhigh⟩ | harm
    · exact ⟨hp, by rw [he, htx], by rw [he, hhigh], hrender⟩
    · simp [he, irqInhibit, harm] at hin
  · rw [he, hout] at hin
    cases hin
  · exact absurd hp hntx
  · exact absurd hp hngap
  · simp [he, irqInhibit] at hin
  · rcases waitArm_cases s.cfg s.port.usNow s.eng with ⟨_, hw⟩ | ⟨_, hw⟩ <;> simp [he, hw, irqInhibit, hp] at hin

/-- The arm of phase TX leaves the window only at the end of the last LED (R133, R199). -/
theorem txBit_leaves_window {c : Config} {bit : Bool} {e : Engine} (hp : e.phase = .tx)
    (hout : irqInhibit (txBit c bit e) = false) :
    c.sched.tbit ≤ e.cyc.toNat + 1 ∧ e.bitIdx = 0 ∧ e.cnt.toNat ≤ 1 ∧ e.nlead = 0 ∧ e.ncol = 0 ∧ e.ntrail = 0 ∧
      (txBit c bit e).phase = .arm := by
  obtain ⟨hntx, hngap⟩ := (irqInhibit_eq_false_iff _).1 hout
  rcases txBit_cases c bit e with ⟨_, h⟩ | ⟨_, _, h⟩ | ⟨_, _, _, h⟩ | ⟨hcyc, hidx, hcnt, h⟩
  · exact absurd (by rw [h]; exact hp) hntx
  · exact absurd (by rw [h]; exact hp) hntx
  · exact absurd (by rw [h]; exact hp) hntx
  · rcases txEndLed_cases c e with ⟨hlead, hcol, htrail, hend⟩ | ⟨hsome, _, hend⟩ | ⟨_, _, hend⟩
    · exact ⟨hcyc, hidx, hcnt, hlead, hcol, htrail, by rw [h, hend]; rfl⟩
    · exact absurd (by rw [h, hend]; exact (startsLed_nextLed c (e := { e with cnt := 0, cyc := 0 }) hsome).1) hntx
    · exact absurd (by rw [h, hend]) hngap

/-- In a state of the invariant the gap leads on to an LED, inside the window. -/
theorem irqInhibit_gapArm {c : Config} {e : Engine} (hp : e.phase = .gap) (hgap : GapInv c e) :
    irqInhibit (gapArm c e) = true := by
  obtain ⟨_, _, hsome⟩ := hgap hp
  rw [irqInhibit_iff]
  rcases gapArm_cases c e with ⟨_, h⟩ | ⟨_, h⟩ <;> rw [h]
  · exact .inr hp
  · refine .inl (startsLed_nextLed c ?_).1
    rwa [not_and_or, not_and_or]

/-- The last cycle of a bit is LOW (R196, R103). -/
theorem level_low_of_last_cycle {c : Config} {e : Engine} (hinv : PositionInv c e) (hp : e.phase = .tx)
    (hlast : e.cyc.toNat + 1 = c.sched.tbit) : e.pinLevel = .low := by
  obtain ⟨hlevel, htx, _⟩ := hinv
  obtain ⟨_, hcnt, hptr⟩ := htx hp
  obtain ⟨byte, hread⟩ := memRead_of_cursor e.mem hcnt hptr
  obtain ⟨_, hlow, hsum⟩ := segments c (bitOf byte e.bitIdx)
  cases hl : e.pinLevel with
  | low => rfl
  | high =>
    have hhigh := (symbolHigh_iff hread).1 (hlevel.1 hl).2
    omega

/-- The window closes at the end of the last LED, the line LOW, into phase ARM (R133). -/
theorem released_end_of_frame {s t : State} (hinv : PositionInv s.cfg s.eng) (hr : s.port.rst = false)
    (hstep : step s = .next t) (hin : irqInhibit s.eng = true) (hout : irqInhibit t.eng = false) :
    s.eng.phase = .tx ∧ s.eng.cyc.toNat + 1 = s.cfg.sched.tbit ∧ s.eng.bitIdx = 0 ∧ s.eng.cnt = 1 ∧
      s.eng.nlead = 0 ∧ s.eng.ncol = 0 ∧ s.eng.ntrail = 0 ∧ s.eng.pinLevel = .low ∧ t.eng.phase = .arm := by
  rcases (irqInhibit_iff _).1 hin with hp | hp
  · obtain ⟨bit, he⟩ := step_tx_next hr hp hstep
    rw [he] at hout ⊢
    obtain ⟨hcyc, hidx, hcnt, hlead, hcol, htrail, harm⟩ := txBit_leaves_window hp hout
    obtain ⟨hlt, hpos, _⟩ := hinv.2.1 hp
    have hlast : s.eng.cyc.toNat + 1 = s.cfg.sched.tbit := by omega
    have hone : s.eng.cnt = 1 := BitVec.eq_of_toNat_eq (le_antisymm hcnt hpos)
    exact ⟨hp, hlast, hidx, hone, hlead, hcol, htrail, level_low_of_last_cycle hinv hp hlast, harm⟩
  · rw [step_gap hr hp] at hstep
    cases hstep
    rw [advance_eng, irqInhibit_gapArm hp hinv.2.2] at hout
    cases hout

/-- Settles O43: the window opens with a RENDER and closes with the last LED or by reset, and only phase TX, inside it,
is HIGH (R132, R133, R135). -/
theorem guardWindowBracketsTheFrame : Obligations.GuardWindowBracketsTheFrame := by
  unfold Obligations.GuardWindowBracketsTheFrame
  intro s t hinv hstep
  obtain ⟨_, hpos, _⟩ := (engineInv_iff ..).1 hinv
  refine ⟨fun hacq => ?_, fun hrel => ?_, fun hhigh => (irqInhibit_iff _).2 (.inl (hpos.1.1 hhigh).1)⟩
  · simp only [guardAcquired, Bool.and_eq_true, Bool.not_eq_true'] at hacq
    obtain ⟨hout, hin⟩ := hacq
    cases hr : s.port.rst with
    | false => exact acquired_render hr hstep hout hin
    | true =>
      rw [step_reset hr] at hstep
      cases hstep
      cases hin
  · simp only [guardReleased, Bool.and_eq_true, Bool.not_eq_true'] at hrel
    obtain ⟨hin, hout⟩ := hrel
    cases hr : s.port.rst with
    | false => exact .inr (released_end_of_frame hpos hr hstep hin hout)
    | true => exact .inl rfl

end Sys2Proof.Machine
end

section
/-! The end of every transmission (45_cycle_machine.md section 4): the cycles left to the end of the frame, one of which each
step inside the guard window takes. -/

namespace Sys2Proof.Machine

open Sys2Proof.Safety

/-- The LEDs of the frame not yet started. -/
def ledsLeft (e : Engine) : Nat := e.nlead.toNat + e.ncol.toNat + e.ntrail

theorem ledsLeft_eq_zero_iff (e : Engine) : ledsLeft e = 0 ↔ e.nlead = 0 ∧ e.ncol = 0 ∧ e.ntrail = 0 := by
  simp only [ledsLeft, Nat.add_eq_zero_iff, and_assoc, toNat_eq_zero_iff]

/-- The start of an LED takes one from the LEDs left (R146). -/
theorem ledsLeft_nextLed (c : Config) {e : Engine} (hsome : ledsLeft e ≠ 0) :
    ledsLeft (nextLed c e) + 1 = ledsLeft e := by
  rcases nextLed_cases c e with ⟨hlead, h⟩ | ⟨_, hcol, h⟩ | ⟨_, _, htrail, h⟩ | ⟨hlead, hcol, htrail, _⟩
  · have hpred := toNat_pred hlead
    simp only [h, ledsLeft, startLed_nlead, startLed_ncol, startLed_ntrail]
    omega
  · have hpred := toNat_pred hcol
    simp only [h, ledsLeft, startLed_nlead, startLed_ncol, startLed_ntrail]
    omega
  · simp only [h, ledsLeft, startLed_nlead, startLed_ncol, startLed_ntrail]
    omega
  · exact absurd ((ledsLeft_eq_zero_iff e).2 ⟨hlead, hcol, htrail⟩) hsome

/-- The cycles up to the end of the frame: those of the LED on the line, or of the gap, and those of the LEDs left with
the gaps before them. -/
def cyclesLeft (c : Config) (e : Engine) : Nat :=
  match e.phase with
  | .tx => c.sched.tbit - e.cyc.toNat + (e.bitIdx.toNat + 8 * (e.cnt.toNat - 1)) * c.sched.tbit +
      ledsLeft e * (24 * c.sched.tbit + c.gapCyc)
  | .gap => e.gapCnt.toNat + ledsLeft e * (24 * c.sched.tbit) + (ledsLeft e - 1) * c.gapCyc
  | _ => 0

theorem cyclesLeft_tx (c : Config) {e : Engine} (hp : e.phase = .tx) :
    cyclesLeft c e = c.sched.tbit - e.cyc.toNat + (e.bitIdx.toNat + 8 * (e.cnt.toNat - 1)) * c.sched.tbit +
      ledsLeft e * (24 * c.sched.tbit + c.gapCyc) := by
  rw [cyclesLeft, hp]

theorem cyclesLeft_gap (c : Config) {e : Engine} (hp : e.phase = .gap) :
    cyclesLeft c e = e.gapCnt.toNat + ledsLeft e * (24 * c.sched.tbit) + (ledsLeft e - 1) * c.gapCyc := by
  rw [cyclesLeft, hp]

/-- An LED that starts has all its cycles left. -/
theorem cyclesLeft_startsLed (c : Config) {e : Engine} (h : StartsLed e) :
    cyclesLeft c e = 24 * c.sched.tbit + ledsLeft e * (24 * c.sched.tbit + c.gapCyc) := by
  obtain ⟨hp, _, hcnt, hidx, hcyc, _⟩ := h
  rw [cyclesLeft_tx c hp, hcnt, hidx, hcyc]
  change c.sched.tbit - 0 + (7 + 8 * (3 - 1)) * c.sched.tbit + _ = _
  omega

/-- A step inside the window takes one cycle from those left: it stays inside with one cycle less, or it was the last
cycle, and leaves the line LOW in phase ARM. -/
def TakesACycle (c : Config) (e e' : Engine) : Prop :=
  (irqInhibit e' = true ∧ cyclesLeft c e' + 1 = cyclesLeft c e) ∨
    (e'.phase = .arm ∧ e'.pinLevel = .low ∧ cyclesLeft c e = 1)

theorem takesACycle_gapArm {c : Config} {e : Engine} (hp : e.phase = .gap) (hgap : GapInv c e) :
    TakesACycle c e (gapArm c e) := by
  have hwindow := irqInhibit_gapArm hp hgap
  obtain ⟨hpos, _, hsome⟩ := hgap hp
  have hleft : ledsLeft e ≠ 0 := fun h => by
    obtain ⟨hlead, hcol, htrail⟩ := (ledsLeft_eq_zero_iff e).1 h
    exact hsome.elim (· hlead) (Or.elim · (· hcol) (· htrail))
  refine .inl ⟨hwindow, ?_⟩
  rw [cyclesLeft_gap c hp]
  rcases gapArm_cases c e with ⟨hgt, h⟩ | ⟨hle, h⟩ <;> rw [h]
  · have hpred : (e.gapCnt - 1).toNat + 1 = e.gapCnt.toNat := by bv_omega
    rw [cyclesLeft_gap c (e := { e with gapCnt := e.gapCnt - 1 }) hp]
    change (e.gapCnt - 1).toNat + ledsLeft e * _ + (ledsLeft e - 1) * _ + 1 = _
    omega
  · have hstart := startsLed_nextLed c (e := { e with gapCnt := 0 }) (fun h => hleft ((ledsLeft_eq_zero_iff e).2 h))
    have hnext : ledsLeft (nextLed c { e with gapCnt := 0 }) + 1 = ledsLeft e :=
      ledsLeft_nextLed c (e := { e with gapCnt := 0 }) hleft
    rw [cyclesLeft_startsLed c hstart, ← hnext, Nat.add_sub_cancel]
    have hone : e.gapCnt.toNat = 1 := by omega
    rw [hone]
    ring

/-- The last cycle of an LED: the frame is over, or the cycles of the LEDs left are still to come (R199). -/
theorem takesACycle_txEndLed {c : Config} {e : Engine} (hp : e.phase = .tx) (hlast : e.cyc.toNat + 1 = c.sched.tbit)
    (hidx : e.bitIdx = 0) (hcnt : e.cnt.toNat = 1) : TakesACycle c e (txEndLed c e) := by
  have hcycles : cyclesLeft c e = 1 + ledsLeft e * (24 * c.sched.tbit + c.gapCyc) := by
    rw [cyclesLeft_tx c hp, hidx, hcnt, ← hlast, Nat.add_sub_cancel_left]
    change 1 + (0 + 8 * (1 - 1)) * _ + _ = _
    omega
  rw [TakesACycle, hcycles]
  rcases txEndLed_cases c e with ⟨hlead, hcol, htrail, h⟩ | ⟨hsome, hgap, h⟩ | ⟨hsome, hgap, h⟩ <;> rw [h]
  · have hnone := (ledsLeft_eq_zero_iff e).2 ⟨hlead, hcol, htrail⟩
    exact .inr ⟨rfl, rfl, by rw [hnone, Nat.zero_mul]⟩
  · have hstart := startsLed_nextLed c (e := { e with cnt := 0, cyc := 0 }) hsome
    have hnext : ledsLeft (nextLed c { e with cnt := 0, cyc := 0 }) + 1 = ledsLeft e :=
      ledsLeft_nextLed c (e := { e with cnt := 0, cyc := 0 }) (fun h => hsome ((ledsLeft_eq_zero_iff e).1 h))
    refine .inl ⟨(irqInhibit_iff _).2 (.inl hstart.1), ?_⟩
    rw [cyclesLeft_startsLed c hstart, ← hnext, hgap]
    ring
  · obtain ⟨leds, hleds⟩ := Nat.exists_eq_succ_of_ne_zero (fun h => hsome ((ledsLeft_eq_zero_iff e).1 h))
    refine .inl ⟨(irqInhibit_iff _).2 (.inr rfl), ?_⟩
    rw [cyclesLeft_gap c rfl]
    change (BitVec.ofNat 8 c.gapCyc).toNat + ledsLeft e * _ + (ledsLeft e - 1) * _ + 1 = _
    rw [toNat_ofNat_gapCyc, hleds, Nat.succ_eq_add_one, Nat.add_sub_cancel]
    ring

theorem takesACycle_txBit {c : Config} (bit : Bool) {e : Engine} (hp : e.phase = .tx) (hinv : TxInv c e) :
    TakesACycle c e (txBit c bit e) := by
  obtain ⟨hlt, hcnt, _⟩ := hinv hp
  rcases txBit_cases c bit e with ⟨hin, h⟩ | ⟨hge, hidx, h⟩ | ⟨hge, hidx, hgt, h⟩ | ⟨hge, hidx, hle, h⟩ <;> rw [h]
  · have hcyc := toNat_cyc_succ hin
    refine .inl ⟨(irqInhibit_iff _).2 (.inl hp), ?_⟩
    rw [cyclesLeft_tx c hp, cyclesLeft_tx c (e := txWithinBit c bit e) hp, txWithinBit_cyc, hcyc, txWithinBit_bitIdx,
      txWithinBit_cnt]
    change _ + ledsLeft e * _ + 1 = _
    omega
  · have hpred := toNat_pred hidx
    refine .inl ⟨(irqInhibit_iff _).2 (.inl hp), ?_⟩
    rw [cyclesLeft_tx c hp, cyclesLeft_tx c (e := txNextBit e) hp, txNextBit_cyc, txNextBit_bitIdx, txNextBit_cnt,
      ← hpred]
    change c.sched.tbit - 0 + _ + ledsLeft e * _ + 1 = _
    have hone : c.sched.tbit - e.cyc.toNat = 1 := by omega
    rw [hone, Nat.sub_zero]
    ring
  · have hpred : (e.cnt - 1).toNat = e.cnt.toNat - 1 := by bv_omega
    refine .inl ⟨(irqInhibit_iff _).2 (.inl hp), ?_⟩
    rw [cyclesLeft_tx c hp, cyclesLeft_tx c (e := txNextByte c e) hp, txNextByte_cyc, txNextByte_bitIdx, txNextByte_cnt,
      hpred, hidx]
    change c.sched.tbit - 0 + (7 + 8 * (e.cnt.toNat - 1 - 1)) * _ + ledsLeft e * _ + 1 =
      _ + (0 + 8 * (e.cnt.toNat - 1)) * _ + _
    have hone : c.sched.tbit - e.cyc.toNat = 1 := by omega
    obtain ⟨n, hn⟩ : ∃ n, e.cnt.toNat = n + 2 := ⟨e.cnt.toNat - 2, by omega⟩
    rw [hone, hn, show n + 2 - 1 - 1 = n by omega, show n + 2 - 1 = n + 1 by omega, Nat.sub_zero]
    ring
  · exact takesACycle_txEndLed hp (by omega) hidx (by omega)

/-- A step without reset inside the window, from a state of the invariant. -/
theorem step_takesACycle {s : State} (hinv : StateInv s) (hin : irqInhibit s.eng = true) (hr : s.port.rst = false) :
    ∃ t, step s = .next t ∧ TakesACycle s.cfg s.eng t.eng := by
  obtain ⟨t, hstep⟩ := invariantStatesNeverStop s hinv
  obtain ⟨_, ⟨_, htx, hgap⟩, _⟩ := (engineInv_iff ..).1 hinv
  refine ⟨t, hstep, ?_⟩
  rcases (irqInhibit_iff _).1 hin with hp | hp
  · obtain ⟨bit, he⟩ := step_tx_next hr hp hstep
    rw [he]
    exact takesACycle_txBit bit hp htx
  · rw [step_gap hr hp] at hstep
    cases hstep
    exact takesACycle_gapArm hp hgap

/-- The window closes after exactly the cycles left. -/
theorem runFor_cyclesLeft {n : Nat} {s : State} (hinv : StateInv s) (hin : irqInhibit s.eng = true)
    (hn : cyclesLeft s.cfg s.eng = n) (hquiet : NoReset n s) :
    ∃ t, runFor n s = .next t ∧ t.eng.phase = .arm ∧ t.eng.pinLevel = .low := by
  induction n generalizing s with
  | zero =>
    obtain ⟨_, ⟨_, htx, hgap⟩, _⟩ := (engineInv_iff ..).1 hinv
    rcases (irqInhibit_iff _).1 hin with hp | hp
    · rw [cyclesLeft_tx _ hp] at hn
      have := (htx hp).1
      omega
    · rw [cyclesLeft_gap _ hp] at hn
      have := (hgap hp).1
      omega
  | succ n ih =>
    obtain ⟨u, hstep, htakes⟩ := step_takesACycle hinv hin (hquiet 0 (Nat.succ_pos n))
    rw [runFor_succ_of hstep]
    rcases htakes with ⟨hin', hless⟩ | ⟨harm, hlow, hone⟩
    · refine ih (stepKeepsInvariant s u hinv hstep) hin' (by rw [step_cfg hstep]; omega) (fun k hk => ?_)
      rw [step_next_advance hstep, inputAt_advance]
      exact hquiet (k + 1) (by omega)
    · obtain rfl : n = 0 := by omega
      exact ⟨u, rfl, harm, hlow⟩

/-- The cycles left are at most those of the LEDs left and one more, each with a gap. -/
theorem cyclesLeft_le {c : Config} {e : Engine} (hinv : PositionInv c e) (hin : irqInhibit e = true) :
    1 ≤ cyclesLeft c e ∧ cyclesLeft c e ≤ (1 + ledsLeft e) * (24 * c.sched.tbit + c.gapCyc) := by
  obtain ⟨_, htx, hgap⟩ := hinv
  rcases (irqInhibit_iff _).1 hin with hp | hp
  · obtain ⟨hlt, hcnt, _⟩ := htx hp
    have hidx := e.bitIdx.isLt
    have hcnt' := e.cnt.isLt
    have hbits : (e.bitIdx.toNat + 8 * (e.cnt.toNat - 1)) * c.sched.tbit ≤ 23 * c.sched.tbit :=
      Nat.mul_le_mul_right _ (by omega)
    rw [cyclesLeft_tx c hp, Nat.add_mul 1, Nat.one_mul]
    omega
  · obtain ⟨hpos, hle, _⟩ := hgap hp
    have hgaps : (ledsLeft e - 1) * c.gapCyc ≤ ledsLeft e * c.gapCyc := Nat.mul_le_mul_right _ (Nat.sub_le _ _)
    rw [cyclesLeft_gap c hp, Nat.add_mul 1, Nat.one_mul, Nat.mul_add]
    omega

/-- Settles O53: each step inside the window takes one of the cycles left, and there are at most as many as the bound
says (45_cycle_machine.md section 4). -/
theorem transmissionEnds : Obligations.TransmissionEnds := by
  unfold Obligations.TransmissionEnds
  intro s hinv hp
  obtain ⟨_, hpos, _⟩ := (engineInv_iff ..).1 hinv
  have hin := (irqInhibit_iff s.eng).2 hp
  obtain ⟨hone, hbound⟩ := cyclesLeft_le hpos hin
  refine ⟨cyclesLeft s.cfg s.eng, hone, ?_, runFor_cyclesLeft hinv hin rfl⟩
  rw [Nat.add_assoc 1, Nat.add_assoc 1]
  exact hbound

end Sys2Proof.Machine
end

section
/-! The registers that do not steer a frame (44_host_operations.md section 3, R178), and the pin's direction along any run. -/

namespace Sys2Proof.Machine

open Sys2Proof.Safety

/-! ### Registers that do not steer a frame -/

/-- The engine with other values in the direction, the memory, `GAPCNT` and `T0`. `SEQ.NEXT` and the bits of a byte do
not look at these; `GAPCNT` is looked at in phase GAP only. -/
def Engine.withRest (d : PinDir) (m : Memory) (g : BitVec 8) (t : Nat) (e : Engine) : Engine :=
  { e with pinDir := d, mem := m, gapCnt := g, t0 := t }

section Rest

variable (c : Config) (d : PinDir) (m : Memory) (g : BitVec 8) (t : Nat) (e : Engine)

theorem seqNext_withRest :
    seqNext (e.withRest d m g t) = ((seqNext e).1.withRest d m g t, (seqNext e).2) := by
  rcases seqNext_cases e with ⟨hlead, h⟩ | ⟨hlead, hcol, h⟩ | ⟨hlead, hcol, htrail, h⟩ | ⟨hlead, hcol, htrail, h⟩ <;>
    rw [h]
  · exact seqNext_lead (e := e.withRest d m g t) hlead
  · exact seqNext_colored (e := e.withRest d m g t) hlead hcol
  · exact seqNext_trail (e := e.withRest d m g t) hlead hcol htrail
  · exact seqNext_end (e := e.withRest d m g t) hlead hcol htrail

theorem nextLed_withRest : nextLed c (e.withRest d m g t) = (nextLed c e).withRest d m g t := by
  rw [nextLed, seqNext_withRest, nextLed]
  rcases seqNext e with ⟨e', _ | base⟩ <;> rfl

theorem firstLed_withRest : firstLed c (e.withRest d m g t) = (firstLed c e).withRest d m g t := by
  rw [firstLed, seqNext_withRest, firstLed]
  rcases seqNext e with ⟨e', _ | base⟩ <;> rfl

/-- The end of an LED passes the other values on, but for the `GAPCNT` it writes on the way into the gap (R199). -/
theorem txEndLed_withRest :
    ((txEndLed c e).phase = .gap ∧
      txEndLed c (e.withRest d m g t) = (txEndLed c e).withRest d m (txEndLed c e).gapCnt t) ∨
    ((txEndLed c e).phase ≠ .gap ∧ (txEndLed c e).gapCnt = e.gapCnt ∧
      txEndLed c (e.withRest d m g t) = (txEndLed c e).withRest d m g t) := by
  rcases txEndLed_cases c e with ⟨hlead, hcol, htrail, h⟩ | ⟨hsome, hgap, h⟩ | ⟨hsome, hgap, h⟩ <;> rw [h]
  · exact .inr ⟨by simp, rfl, txEndLed_frameOver c (e := e.withRest d m g t) ⟨hlead, hcol, htrail⟩⟩
  · have hstart := startsLed_nextLed c (e := { e with cnt := 0, cyc := 0 }) hsome
    refine .inr ⟨by rw [hstart.1]; decide, (nextLed_frame c { e with cnt := 0, cyc := 0 }).2.2.2.2, ?_⟩
    rw [← nextLed_withRest]
    exact txEndLed_nextLed (e := e.withRest d m g t) hsome hgap
  · exact .inl ⟨rfl, txEndLed_gap (e := e.withRest d m g t) hsome hgap⟩

theorem txBit_withRest (bit : Bool) {e : Engine} (hp : e.phase = .tx) :
    ((txBit c bit e).phase = .gap ∧
      txBit c bit (e.withRest d m g t) = (txBit c bit e).withRest d m (txBit c bit e).gapCnt t) ∨
    ((txBit c bit e).phase ≠ .gap ∧ (txBit c bit e).gapCnt = e.gapCnt ∧
      txBit c bit (e.withRest d m g t) = (txBit c bit e).withRest d m g t) := by
  rcases txBit_cases c bit e with ⟨hlt, h⟩ | ⟨hge, hidx, h⟩ | ⟨hge, hidx, hgt, h⟩ | ⟨hge, hidx, hle, h⟩ <;> rw [h]
  · exact .inr ⟨by simp [hp], rfl, txBit_within bit (e := e.withRest d m g t) hlt⟩
  · exact .inr ⟨by simp [hp], rfl, txBit_nextBit bit (e := e.withRest d m g t) hge hidx⟩
  · exact .inr ⟨by simp [hp], rfl, txBit_nextByte bit (e := e.withRest d m g t) hge hidx hgt⟩
  · rw [txBit_endLed bit (e := e.withRest d m g t) hge hidx hle]
    exact txEndLed_withRest c d m g t e

/-- The gap passes the other values on, and counts its own `GAPCNT` (R200). -/
theorem gapArm_withRest :
    gapArm c (e.withRest d m e.gapCnt t) = (gapArm c e).withRest d m (gapArm c e).gapCnt t := by
  rcases gapArm_cases c e with ⟨hgt, h⟩ | ⟨hle, h⟩ <;> rw [h]
  · exact gapArm_counting c (e := e.withRest d m e.gapCnt t) hgt
  · rw [(nextLed_frame c { e with gapCnt := 0 }).2.2.2.2, ← nextLed_withRest]
    exact gapArm_over c (e := e.withRest d m e.gapCnt t) hle

end Rest

/-! ### The pin's direction -/

/-- The engine with another direction of the pin. -/
def Engine.withDir (d : PinDir) (e : Engine) : Engine := { e with pinDir := d }

/-- The machine with another direction of the pin. -/
def State.withDir (d : PinDir) (s : State) : State := { s with eng := s.eng.withDir d }

theorem withRest_eq_withDir {d : PinDir} {m : Memory} {g : BitVec 8} {t : Nat} {e : Engine} (hm : e.mem = m)
    (hg : e.gapCnt = g) (ht : e.t0 = t) : e.withRest d m g t = e.withDir d := by
  subst hm hg ht
  rfl

theorem txBit_withDir (c : Config) (bit : Bool) (d : PinDir) {e : Engine} (hp : e.phase = .tx) :
    txBit c bit (e.withDir d) = (txBit c bit e).withDir d := by
  obtain ⟨hmem, _, _, ht0⟩ := txBit_frame c bit e
  rcases txBit_withRest c d e.mem e.gapCnt e.t0 bit hp with ⟨_, h⟩ | ⟨_, hgap, h⟩
  · exact h.trans (withRest_eq_withDir hmem rfl ht0)
  · exact h.trans (withRest_eq_withDir hmem hgap ht0)

theorem gapArm_withDir (c : Config) (d : PinDir) (e : Engine) : gapArm c (e.withDir d) = (gapArm c e).withDir d := by
  obtain ⟨hmem, _, _, ht0⟩ := gapArm_frame c e
  exact (gapArm_withRest c d e.mem e.t0 e).trans (withRest_eq_withDir hmem rfl ht0)

theorem firstLed_withDir (c : Config) (d : PinDir) (e : Engine) :
    firstLed c (e.withDir d) = (firstLed c e).withDir d := by
  obtain ⟨hmem, _, _, ht0, hgap⟩ := firstLed_frame c e
  exact (firstLed_withRest c d e.mem e.gapCnt e.t0 e).trans (withRest_eq_withDir hmem hgap ht0)

theorem waitArm_withDir (c : Config) (us : Nat) (d : PinDir) (e : Engine) :
    waitArm c us (e.withDir d) = (waitArm c us e).withDir d := by
  rcases waitArm_cases c us e with ⟨hdone, h⟩ | ⟨hstalled, h⟩ <;> rw [h]
  · exact waitArm_done (e := e.withDir d) hdone
  · exact waitArm_stalled (e := e.withDir d) hstalled

theorem phaseArm_withDir {c : Config} {us : Nat} {e e' : Engine} (d : PinDir) (h : phaseArm c us e = .ok e') :
    phaseArm c us (e.withDir d) = .ok (e'.withDir d) := by
  rcases phaseArm_ok h with ⟨hp, rfl⟩ | ⟨hp, byte, hread, rfl⟩ | ⟨hp, rfl⟩ | ⟨hp, rfl⟩ | ⟨hp, rfl⟩
  · exact phaseArm_idle hp
  · rw [← txBit_withDir c _ d hp]
    exact phaseArm_tx (e := e.withDir d) hp hread us
  · rw [← gapArm_withDir]
    exact phaseArm_gap (e := e.withDir d) hp us
  · exact phaseArm_arm (e := e.withDir d) hp us
  · rw [← waitArm_withDir]
    exact phaseArm_wait (e := e.withDir d) hp us

theorem commandEffect_withDir (c : Config) (i : Instr) (d : PinDir) (e : Engine) :
    ∃ d', commandEffect c i (e.withDir d) = (commandEffect c i e).withDir d' := by
  cases i with
  | init => exact ⟨.output, rfl⟩
  | config total => exact ⟨d, rfl⟩
  | render lead count red green blue =>
    exact ⟨d, firstLed_withDir c d (seqLoad lead count red green blue e)⟩

/-- A step of the machine with another direction is the step with another direction (R178). -/
theorem step_withDir {s t : State} (d : PinDir) (hstep : step s = .next t) :
    ∃ d', step (s.withDir d) = .next (t.withDir d') := by
  rw [step_next_advance hstep]
  rcases step_eng_cases hstep with ⟨hr, heng⟩ | ⟨w, i, hacc, hdec, heng⟩ | ⟨w, r, hacc, hdec, heng⟩ | ⟨hr, hacc, harm⟩
  · rw [heng]
    exact ⟨.input, step_reset (s := s.withDir d) hr⟩
  · obtain ⟨hr, _, hp, _⟩ := accepted_eq_some hacc
    obtain ⟨d', heffect⟩ := commandEffect_withDir s.cfg i d s.eng
    have hexec := (step_accepted (s := s.withDir d) hacc hdec).trans (exec_idle i hr hp)
    refine ⟨d', hexec.trans ?_⟩
    rw [heng]
    exact congrArg (fun e => Host.Outcome.next (Ops.advance s e)) heffect
  · rw [heng]
    exact ⟨d, step_reserved (s := s.withDir d) hacc hdec⟩
  · refine ⟨d, (step_quiet (s := s.withDir d) hr hacc).trans ?_⟩
    exact congrArg (Ops.finish s) (phaseArm_withDir d harm)

/-- Settles O19: a step passes on a difference in `PIN_DIR` and makes no other, so a run does (R178; log 5). -/
theorem pinDirectionDoesNotSteerTheEngine : Obligations.PinDirectionDoesNotSteerTheEngine := by
  unfold Obligations.PinDirectionDoesNotSteerTheEngine
  intro n s t d hrun
  refine runFor_induction (P := fun k u => ∃ d', runFor k (s.withDir d) = .next (u.withDir d')) ⟨d, rfl⟩ ?_ hrun
  rintro k u v _ _ ⟨d', hu⟩ hstep
  obtain ⟨d'', hv⟩ := step_withDir d' hstep
  exact ⟨d'', (runFor_succ_end hu).trans hv⟩

end Sys2Proof.Machine
end

section
/-! The session registers of a machine in IDLE (10_state.md section 4, R36): engines that show the same from now on. -/

namespace Sys2Proof.Machine

open Sys2Proof.Safety

/-- Two engines that show the same from now on: what a cycle shows is the same, and so is what the rest of the render call
reads, the timestamp in phase WAIT and the frame's registers inside the window. -/
structure LooksAlike (e e' : Engine) : Prop where
  phase : e'.phase = e.phase
  total : e'.total = e.total
  pinDir : e'.pinDir = e.pinDir
  pinLevel : e'.pinLevel = e.pinLevel
  stamp : e.phase = .wait → e'.t0 = e.t0
  frame : irqInhibit e = true → ∃ m g t, e' = e.withRest e.pinDir m g t ∧
    (∀ i, Ops.color e.mem i = Ops.color m i) ∧ (e.phase = .gap → g = e.gapCnt)

theorem looksAlike_refl (e : Engine) : LooksAlike e e :=
  ⟨rfl, rfl, rfl, rfl, fun _ => rfl, fun _ => ⟨e.mem, e.gapCnt, e.t0, rfl, fun _ => rfl, fun _ => rfl⟩⟩

theorem looksAlike_withRest {e : Engine} (hp : e.phase ≠ .wait) {m : Memory}
    (hm : ∀ i, Ops.color e.mem i = Ops.color m i) {g : BitVec 8} (hg : e.phase = .gap → g = e.gapCnt) (t : Nat) :
    LooksAlike e (e.withRest e.pinDir m g t) :=
  ⟨rfl, rfl, rfl, rfl, fun h => absurd h hp, fun _ => ⟨m, g, t, rfl, hm, hg⟩⟩

theorem LooksAlike.outputs_eq {e e' : Engine} (h : LooksAlike e e') : outputs e' = outputs e := by
  simp only [outputs, cmdReady, busy, irqInhibit, h.phase, h.pinDir, h.pinLevel]

theorem loadColor_color (m m' : Memory) (red green blue : Byte) (i : Fin 3) :
    Ops.color (loadColor m red green blue) i = Ops.color (loadColor m' red green blue) i := by
  match i with
  | 0 => rw [loadColor_green, loadColor_green]
  | 1 => rw [loadColor_red, loadColor_red]
  | 2 => rw [loadColor_blue, loadColor_blue]

theorem LooksAlike.txBit {c : Config} {bit : Bool} {e e' : Engine} (h : LooksAlike e e') (hp : e.phase = .tx) :
    LooksAlike (txBit c bit e) (txBit c bit e') := by
  obtain ⟨m, g, t, rfl, hm, _⟩ := h.frame ((irqInhibit_iff e).2 (.inl hp))
  obtain ⟨hmem, _, hdir, _⟩ := txBit_frame c bit e
  rw [← hmem] at hm
  have hwait := (txBit_phase_ne c bit hp).2
  rcases txBit_withRest c e.pinDir m g t bit hp with ⟨_, hb⟩ | ⟨hgap, _, hb⟩ <;> rw [hb, ← hdir]
  · exact looksAlike_withRest hwait hm (fun _ => rfl) t
  · exact looksAlike_withRest hwait hm (fun h => absurd h hgap) t

theorem LooksAlike.gapArm {c : Config} {e e' : Engine} (h : LooksAlike e e') (hp : e.phase = .gap) :
    LooksAlike (gapArm c e) (gapArm c e') := by
  obtain ⟨m, g, t, rfl, hm, hg⟩ := h.frame ((irqInhibit_iff e).2 (.inr hp))
  obtain ⟨hmem, _, hdir, _⟩ := gapArm_frame c e
  rw [← hmem] at hm
  rw [hg hp, gapArm_withRest, ← hdir]
  exact looksAlike_withRest (gapArm_phase_ne c hp).2 hm (fun _ => rfl) t

/-- Outside the window only what a cycle shows and the timestamp need agree. -/
theorem looksAlike_outside {e e' : Engine} (hphase : e'.phase = e.phase) (htotal : e'.total = e.total)
    (hdir : e'.pinDir = e.pinDir) (hlevel : e'.pinLevel = e.pinLevel) (hstamp : e.phase = .wait → e'.t0 = e.t0)
    (hout : irqInhibit e = false) : LooksAlike e e' :=
  ⟨hphase, htotal, hdir, hlevel, hstamp, fun h => by rw [hout] at h; cases h⟩

theorem LooksAlike.phaseArm {c : Config} {us : Nat} {e e' e1 : Engine} (h : LooksAlike e e')
    (harm : phaseArm c us e = .ok e1) : ∃ e1', phaseArm c us e' = .ok e1' ∧ LooksAlike e1 e1' := by
  rcases phaseArm_ok harm with ⟨hp, rfl⟩ | ⟨hp, byte, hread, rfl⟩ | ⟨hp, rfl⟩ | ⟨hp, rfl⟩ | ⟨hp, rfl⟩
  · exact ⟨e', phaseArm_idle (h.phase.trans hp), h⟩
  · refine ⟨_, ?_, h.txBit hp⟩
    obtain ⟨m, g, t, rfl, hm, _⟩ := h.frame ((irqInhibit_iff e).2 (.inl hp))
    exact phaseArm_tx (e := e.withRest e.pinDir m g t) hp ((memRead_congr hm e.ptr).symm.trans hread) us
  · exact ⟨_, phaseArm_gap (h.phase.trans hp) us, h.gapArm hp⟩
  · refine ⟨_, phaseArm_arm (h.phase.trans hp) us, ?_⟩
    exact looksAlike_outside rfl h.total h.pinDir h.pinLevel (fun _ => rfl) rfl
  · refine ⟨_, phaseArm_wait (h.phase.trans hp) us, ?_⟩
    have hstamp := h.stamp hp
    rcases waitArm_cases c us e with ⟨hdone, hw⟩ | ⟨hstalled, hw⟩ <;> rw [hw]
    · rw [waitArm_done (by rwa [hstamp])]
      exact looksAlike_outside rfl h.total h.pinDir h.pinLevel nofun rfl
    · rwa [waitArm_stalled (by rwa [hstamp])]

/-- The start of an LED writes the whole position, so engines that agree on the counters and what they show differ in
the rest only. -/
theorem startLed_withRest (c : Config) (base : RecAddr) {e e' : Engine} (htotal : e'.total = e.total)
    (hdir : e'.pinDir = e.pinDir) (hlead : e'.nlead = e.nlead) (hcol : e'.ncol = e.ncol) (htrail : e'.ntrail = e.ntrail) :
    startLed c base e' = (startLed c base e).withRest e.pinDir e'.mem e'.gapCnt e'.t0 := by
  simp only [startLed, Engine.withRest, htotal, hdir, hlead, hcol, htrail]

theorem looksAlike_startLed (c : Config) (base : RecAddr) {e e' : Engine} (htotal : e'.total = e.total)
    (hdir : e'.pinDir = e.pinDir) (hlead : e'.nlead = e.nlead) (hcol : e'.ncol = e.ncol) (htrail : e'.ntrail = e.ntrail)
    (hm : ∀ i, Ops.color e.mem i = Ops.color e'.mem i) : LooksAlike (startLed c base e) (startLed c base e') := by
  rw [startLed_withRest c base htotal hdir hlead hcol htrail]
  exact looksAlike_withRest (e := startLed c base e) (by simp) hm (by simp) _

/-- An accepted RENDER reads none of the session registers (R145, R194). -/
theorem LooksAlike.render {c : Config} {e e' : Engine} (h : LooksAlike e e') (lead count red green blue : Byte) :
    LooksAlike (renderEffect c lead count red green blue e) (renderEffect c lead count red green blue e') := by
  have htrail : trailCount e'.total lead count = trailCount e.total lead count := by rw [h.total]
  have hm := loadColor_color e.mem e'.mem red green blue
  rw [renderEffect, renderEffect]
  rcases firstLed_cases c (seqLoad lead count red green blue e) with ⟨hl, k⟩ | ⟨hl, hn, k⟩ | ⟨hl, hn, ht, k⟩ |
    ⟨hl, hn, ht, k⟩ <;> rw [k]
  · rw [firstLed_lead c (e := seqLoad lead count red green blue e') hl]
    exact looksAlike_startLed c 0 h.total h.pinDir rfl rfl htrail hm
  · rw [firstLed_colored c (e := seqLoad lead count red green blue e') hl hn]
    exact looksAlike_startLed c 3 h.total h.pinDir rfl rfl htrail hm
  · rw [firstLed_trail c (e := seqLoad lead count red green blue e') hl hn (htrail.trans_ne ht)]
    exact looksAlike_startLed c 0 h.total h.pinDir rfl rfl (congrArg (· - 1) htrail) hm
  · rw [firstLed_end c (e := seqLoad lead count red green blue e') hl hn (htrail.trans ht)]
    exact looksAlike_outside rfl h.total h.pinDir h.pinLevel nofun rfl

theorem LooksAlike.commandEffect {c : Config} {e e' : Engine} (h : LooksAlike e e') (hp : e.phase = .idle) (i : Instr) :
    LooksAlike (commandEffect c i e) (commandEffect c i e') := by
  have hout : irqInhibit e = false := by simp [irqInhibit, hp]
  cases i with
  | init => exact looksAlike_outside h.phase h.total rfl rfl (fun hw => h.stamp hw) hout
  | config total => exact looksAlike_outside h.phase rfl h.pinDir h.pinLevel (fun hw => h.stamp hw) hout
  | render lead count red green blue => exact h.render lead count red green blue

/-- The machine with other registers. -/
def State.withEng (s : State) (e : Engine) : State := { s with eng := e }

/-- Acceptance depends on the port and the phase (R192). -/
theorem accepted_withEng {s : State} {e : Engine} (hp : e.phase = s.eng.phase) :
    Ops.accepted (s.withEng e) = Ops.accepted s :=
  congrArg (fun p => if (!s.port.rst && s.port.cmdValid && decide (p = Phase.idle)) = true then some s.port.cmd else none)
    hp

/-- A step of machines that look alike leaves them looking alike. -/
theorem LooksAlike.step {s t : State} {e : Engine} (h : LooksAlike s.eng e) (hstep : step s = .next t) :
    ∃ e', step (s.withEng e) = .next (t.withEng e') ∧ LooksAlike t.eng e' := by
  rw [step_next_advance hstep]
  rcases step_eng_cases hstep with ⟨hr, heng⟩ | ⟨w, i, hacc, hdec, heng⟩ | ⟨w, r, hacc, hdec, heng⟩ | ⟨hr, hacc, harm⟩
  · rw [heng]
    exact ⟨_, step_reset (s := s.withEng e) hr, looksAlike_refl _⟩
  · obtain ⟨hr, _, hp, _⟩ := accepted_eq_some hacc
    have hacc' := (accepted_withEng h.phase).trans hacc
    have hexec := (step_accepted hacc' hdec).trans (exec_idle i hr (h.phase.trans hp))
    rw [heng]
    exact ⟨_, hexec, h.commandEffect hp i⟩
  · rw [heng]
    exact ⟨_, step_reserved ((accepted_withEng h.phase).trans hacc) hdec, h⟩
  · obtain ⟨e', harm', hlike⟩ := h.phaseArm harm
    have hacc' : Ops.accepted (s.withEng e) = none := (accepted_withEng h.phase).trans hacc
    refine ⟨e', (step_quiet (s := s.withEng e) hr hacc').trans ?_, hlike⟩
    exact congrArg (Ops.finish s) harm'

/-- Settles O58: two IDLE machines that agree on `TOTAL`, `PIN_DIR` and `PIN_LEVEL` look alike, and stay so along a run
(R36). -/
theorem sessionRegistersAreDeadInIdle : Obligations.SessionRegistersAreDeadInIdle := by
  unfold Obligations.SessionRegistersAreDeadInIdle
  intro s e hp hp' htotal hdir hlevel n t hrun
  have hstart : LooksAlike s.eng e := looksAlike_outside (hp'.trans hp.symm) htotal hdir hlevel (by simp [hp])
    (by simp [irqInhibit, hp])
  obtain ⟨e', hrun', hlike⟩ := runFor_induction
    (P := fun k u => ∃ e', runFor k (s.withEng e) = .next (u.withEng e') ∧ LooksAlike u.eng e') ⟨e, rfl, hstart⟩
    (by
      rintro k u v _ _ ⟨eu, hu, hlike⟩ hstep
      obtain ⟨ev, hv, hlike'⟩ := hlike.step hstep
      exact ⟨ev, (runFor_succ_end hu).trans hv, hlike'⟩) hrun
  exact ⟨_, hrun', hlike.outputs_eq⟩

end Sys2Proof.Machine
end

section
/-! The waveform of a byte list (40_timing_engine.md): the bits of its bytes and their pulses (R118), and the bytes an
invocation reads (R100). -/

namespace Sys2Proof.Machine

open Sys2Proof.Safety

/-! ### Runs of a list of bits -/

/-- The bits of a byte in the order of transmission, most significant first (R101). -/
def byteBits (v : Byte) : List Bool :=
  [v.getLsbD 7, v.getLsbD 6, v.getLsbD 5, v.getLsbD 4, v.getLsbD 3, v.getLsbD 2, v.getLsbD 1, v.getLsbD 0]

/-- The symbols of a list of bits, one after the other (R118). -/
def bitRuns (c : Config) (bits : List Bool) : List Run := bits.flatMap (sym c)

@[simp] theorem bitRuns_nil (c : Config) : bitRuns c [] = [] := rfl

@[simp] theorem bitRuns_cons (c : Config) (b : Bool) (bits : List Bool) :
    bitRuns c (b :: bits) = (.high, highCycles c b) :: (.low, lowCycles c b) :: bitRuns c bits := rfl

theorem bitRuns_append (c : Config) (bits bits' : List Bool) :
    bitRuns c (bits ++ bits') = bitRuns c bits ++ bitRuns c bits' := List.flatMap_append

theorem wave_eq_bitRuns (c : Config) (vs : List Byte) : wave c vs = bitRuns c (vs.flatMap byteBits) := by
  induction vs with
  | nil => rfl
  | cons v vs ih =>
    rw [wave, ih, List.flatMap_cons, bitRuns_append]
    rfl

theorem length_bitRuns (c : Config) (bits : List Bool) : (bitRuns c bits).length = 2 * bits.length := by
  induction bits with
  | nil => rfl
  | cons b bits ih =>
    rw [bitRuns_cons, List.length_cons, List.length_cons, ih, List.length_cons]
    ring

theorem isPulsePairs_bitRuns (c : Config) (bits : List Bool) : isPulsePairs (bitRuns c bits) = true := by
  induction bits with
  | nil => rfl
  | cons b bits ih => simp [isPulsePairs, ih]

theorem runCycles_append (rs rs' : List Run) : runCycles (rs ++ rs') = runCycles rs + runCycles rs' := by
  induction rs with
  | nil => simp [runCycles]
  | cons r rs ih => simp only [List.cons_append, runCycles, ih, Nat.add_assoc]

/-- Every symbol takes `TBIT` cycles (R106). -/
theorem runCycles_bitRuns (c : Config) (bits : List Bool) : runCycles (bitRuns c bits) = bits.length * c.sched.tbit := by
  induction bits with
  | nil => simp [runCycles]
  | cons b bits ih =>
    obtain ⟨_, _, hsum⟩ := segments c b
    rw [bitRuns_cons, runCycles, runCycles, ih, List.length_cons, Nat.add_mul, Nat.one_mul, ← hsum]
    ring

/-- Pulse pair `j` is the symbol of bit `j`. -/
theorem getElem?_bitRuns (c : Config) {bits : List Bool} {j : Nat} {b : Bool} (h : bits[j]? = some b) :
    (bitRuns c bits)[2 * j]? = some (.high, highCycles c b) ∧
      (bitRuns c bits)[2 * j + 1]? = some (.low, lowCycles c b) := by
  induction bits generalizing j with
  | nil => simp at h
  | cons b' bits ih =>
    cases j with
    | zero =>
      obtain rfl : b' = b := by simpa using h
      exact ⟨rfl, rfl⟩
    | succ j => exact ih (by simpa using h)

theorem length_flatMap_byteBits (vs : List Byte) : (vs.flatMap byteBits).length = 8 * vs.length := by
  induction vs with
  | nil => rfl
  | cons v vs ih =>
    rw [List.flatMap_cons, List.length_append, ih, List.length_cons]
    change 8 + _ = _
    ring

/-- Bit `k` of the transmission of a byte is its bit `7 - k` (R101). -/
theorem getElem?_byteBits (v : Byte) {k : Nat} (hk : k < 8) : (byteBits v)[k]? = some (v.getLsbD (7 - k)) := by
  match k with
  | 0 | 1 | 2 | 3 | 4 | 5 | 6 | 7 => rfl
  | k + 8 => omega

/-- Bit `j` of a transmission is bit `7 - j mod 8` of byte `j / 8`. -/
theorem getElem?_flatMap_byteBits (vs : List Byte) {j : Nat} (hj : j < 8 * vs.length) :
    (vs.flatMap byteBits)[j]? = some ((vs.getD (j / 8) 0).getLsbD (7 - j % 8)) := by
  induction vs generalizing j with
  | nil => simp at hj
  | cons v vs ih =>
    have hlen : (byteBits v).length = 8 := rfl
    rw [List.flatMap_cons]
    by_cases hlow : j < 8
    · rw [List.getElem?_append_left (hlen ▸ hlow), getElem?_byteBits v hlow, Nat.div_eq_of_lt hlow,
        Nat.mod_eq_of_lt hlow]
      rfl
    · obtain ⟨i, rfl⟩ := Nat.exists_eq_add_of_le' (Nat.not_lt.1 hlow)
      rw [List.getElem?_append_right (hlen ▸ Nat.le_add_left 8 i), hlen, Nat.add_sub_cancel,
        ih (by rw [List.length_cons] at hj; omega), Nat.add_div_right i (Nat.succ_pos 7), Nat.add_mod_right]
      rfl

/-- Settles O46: the waveform is one symbol for each bit, of which there are eight a byte (R118). -/
theorem waveformShape : Obligations.WaveformShape := by
  unfold Obligations.WaveformShape
  intro c vs
  rw [wave_eq_bitRuns, length_bitRuns, runCycles_bitRuns, length_flatMap_byteBits]
  exact ⟨by ring, isPulsePairs_bitRuns c _, rfl, fun j hj => getElem?_bitRuns c (getElem?_flatMap_byteBits vs hj)⟩

/-! ### The bytes of an invocation -/

/-- Within the record memory every byte of `TX(base, n)` is read, in ascending order (R100). -/
theorem txBytes_mapped (m : Memory) {base : RecAddr} {n : Nat} (h : base.toNat + n ≤ 6) :
    ∃ vs, txBytes m base n = .ok vs ∧ vs.length = n ∧
      ∀ i v, vs[i]? = some v → Ops.memRead m (base + BitVec.ofNat 3 i) = .ok v := by
  induction n generalizing base with
  | zero => exact ⟨[], rfl, rfl, by simp⟩
  | succ n ih =>
    obtain ⟨v, hread⟩ : ∃ v, Ops.memRead m base = .ok v := by
      rcases memRead_cases m base with ⟨_, hread⟩ | ⟨_, _, hread⟩ | ⟨hhigh, _⟩
      · exact ⟨_, hread⟩
      · exact ⟨_, hread⟩
      · omega
    have hnext : (base + 1).toNat = base.toNat + 1 := by bv_omega
    obtain ⟨vs, htx, hlen, hbytes⟩ := ih (base := base + 1) (by omega)
    refine ⟨v :: vs, by rw [txBytes, hread, htx], by rw [List.length_cons, hlen], fun i w hi => ?_⟩
    cases i with
    | zero =>
      obtain rfl : v = w := by simpa using hi
      simpa using hread
    | succ i =>
      have haddr : base + BitVec.ofNat 3 (i + 1) = base + 1 + BitVec.ofNat 3 i := by
        rw [BitVec.ofNat_add, BitVec.add_comm (BitVec.ofNat 3 i), BitVec.add_assoc]
        rfl
      rw [haddr]
      exact hbytes i w (by simpa using hi)

theorem txWave_ok {m : Memory} {base : RecAddr} {n : Nat} {vs : List Byte} (c : Config) (h : txBytes m base n = .ok vs) :
    txWave c m base n = .ok (wave c vs) := by
  rw [txWave, h]

theorem txBytes_zeroRecord (m : Memory) : txBytes m zeroBase 3 = .ok [0x00, 0x00, 0x00] := rfl

theorem txBytes_colorRecord (m : Memory) :
    txBytes m colorBase 3 = .ok [Ops.color m 0, Ops.color m 1, Ops.color m 2] := rfl

/-- Settles O47: the reads of an invocation one by one (R100, R102), and the two records of R61. -/
theorem transmissionReadsBytesInOrder : Obligations.TransmissionReadsBytesInOrder := by
  unfold Obligations.TransmissionReadsBytesInOrder
  intro c m base
  refine ⟨rfl, fun n hn => ?_, txWave_ok c (txBytes_zeroRecord m), txWave_ok c (txBytes_colorRecord m)⟩
  obtain ⟨vs, htx, hlen, hbytes⟩ := txBytes_mapped m hn
  exact ⟨vs, txWave_ok c htx, hlen, hbytes⟩

end Sys2Proof.Machine
end

section
/-! The frame (42_frame_sequencer.md): its length, its pulses and its cycles (R147, R149, R205). -/

namespace Sys2Proof.Machine

open Sys2Proof.Safety

theorem frameLeds_eq_max (total : Nat) (lead count : Byte) :
    frameLeds total lead count = max total (lead.toNat + count.toNat) := by
  rcases Nat.lt_or_ge total (lead.toNat + count.toNat) with h | h
  · rw [frameLeds, trailCount, satSub_of_lt h]
    omega
  · rw [frameLeds, trailCount, satSub_of_le h]
    omega

theorem length_frameRecords (total : Nat) (lead count red green blue : Byte) :
    (frameRecords total lead count red green blue).length = frameLeds total lead count := by
  simp only [frameRecords, frameLeds, List.length_append, List.length_replicate]

theorem length_of_mem_frameRecords {total : Nat} {lead count red green blue : Byte} {r : List Byte}
    (h : r ∈ frameRecords total lead count red green blue) : r.length = 3 := by
  simp only [frameRecords, List.mem_append, List.mem_replicate] at h
  rcases h with (⟨_, rfl⟩ | ⟨_, rfl⟩) | ⟨_, rfl⟩ <;> rfl

theorem length_flatten_of_forall {rs : List (List Byte)} (h : ∀ r ∈ rs, r.length = 3) :
    rs.flatten.length = 3 * rs.length := by
  induction rs with
  | nil => rfl
  | cons r rs ih =>
    rw [List.flatten_cons, List.length_append, h r List.mem_cons_self, ih fun r' hr => h r' (List.mem_cons_of_mem r hr),
      List.length_cons]
    ring

/-- `TOTAL_W` is at least 9, so it has room for every request (D6). -/
theorem frameLeds_lt {c : Config} {total : Nat} (lead count : Byte) (h : total < 2 ^ c.totalW) :
    frameLeds total lead count < 2 ^ c.totalW := by
  obtain ⟨_, hwidth, _, _⟩ := config_parameters c
  have hroom : 2 ^ 9 ≤ 2 ^ c.totalW := Nat.pow_le_pow_right Nat.zero_lt_two hwidth
  have hlead := lead.isLt
  have hcount := count.isLt
  rw [frameLeds_eq_max]
  omega

theorem requestFits_iff (total : Nat) (lead count : Byte) :
    requestFits total lead count = true ↔ lead.toNat + count.toNat ≤ total := decide_eq_true_iff

/-- Settles O21: the two cases of the saturating subtraction make the sum a maximum (R147), and `FrameBytes` has three
bytes for each of the LEDs (R149). -/
theorem frameLengthIsTheMaximum : Obligations.FrameLengthIsTheMaximum := by
  unfold Obligations.FrameLengthIsTheMaximum
  intro c total lead count red green blue
  have hmax := frameLeds_eq_max total lead count
  refine ⟨hmax, frameLeds_lt lead count, length_frameRecords .., ?_, ?_, fun hfits => ?_⟩
  · rw [frameBytes, length_flatten_of_forall fun _ => length_of_mem_frameRecords, length_frameRecords, config_bytesPerLed]
  · rw [requestFits_iff]
    omega
  · have hover := mt (requestFits_iff total lead count).2 (by rw [hfits]; exact Bool.false_ne_true)
    omega

/-! ### The pulses and the cycles of a frame -/

theorem levels_append (rs rs' : List Run) : levels (rs ++ rs') = levels rs ++ levels rs' := by
  induction rs with
  | nil => rfl
  | cons r rs ih => simp only [List.cons_append, levels, ih, List.append_assoc]

theorem length_levels (rs : List Run) : (levels rs).length = runCycles rs := by
  induction rs with
  | nil => rfl
  | cons r rs ih => rw [levels, List.length_append, List.length_replicate, ih, runCycles]

/-- A level that goes on has no edge. -/
theorem risingEdges_replicate_same (l : Level) (n : Nat) (ls : List Level) :
    risingEdges l (List.replicate n l ++ ls) = risingEdges l ls := by
  induction n with
  | zero => rfl
  | succ n ih =>
    rw [List.replicate_succ, List.cons_append, risingEdges, ih]
    cases l <;> simp

/-- A symbol that begins on a LOW line has one edge and ends LOW (R103). -/
theorem risingEdges_bitRuns (c : Config) (bits : List Bool) (ls : List Level) :
    risingEdges .low (levels (bitRuns c bits) ++ ls) = bits.length + risingEdges .low ls := by
  induction bits with
  | nil => simp [levels]
  | cons b bits ih =>
    obtain ⟨hhigh, hlow, _⟩ := segments c b
    obtain ⟨h, hh⟩ := Nat.exists_eq_add_of_le' hhigh
    obtain ⟨l, hl⟩ := Nat.exists_eq_add_of_le' hlow
    rw [bitRuns_cons, levels, levels, hh, hl, List.append_assoc, List.append_assoc, List.replicate_succ, List.cons_append,
      risingEdges, risingEdges_replicate_same, List.replicate_succ, List.cons_append, risingEdges,
      risingEdges_replicate_same, ih, List.length_cons]
    simp only [reduceCtorEq, and_self, if_true, if_false]
    ring

theorem runCycles_gapRun (c : Config) : runCycles (gapRun c) = c.gapCyc := by
  by_cases h : c.gapCyc = 0 <;> simp [gapRun, h, runCycles]

theorem levels_gapRun (c : Config) : levels (gapRun c) = List.replicate c.gapCyc .low := by
  by_cases h : c.gapCyc = 0 <;> simp [gapRun, h, levels]

theorem frameWave_cons_cons (c : Config) (r r' : List Byte) (rs : List (List Byte)) :
    frameWave c (r :: r' :: rs) = wave c r ++ gapRun c ++ frameWave c (r' :: rs) := rfl

/-- The waveform of an LED has 24 pulses. -/
theorem risingEdges_wave (c : Config) {r : List Byte} (h : r.length = 3) (ls : List Level) :
    risingEdges .low (levels (wave c r) ++ ls) = 24 + risingEdges .low ls := by
  rw [wave_eq_bitRuns, risingEdges_bitRuns, length_flatMap_byteBits, h]

theorem runCycles_wave (c : Config) {r : List Byte} (h : r.length = 3) :
    runCycles (wave c r) = 24 * c.sched.tbit := by
  rw [wave_eq_bitRuns, runCycles_bitRuns, length_flatMap_byteBits, h]

theorem risingEdges_frameWave (c : Config) {rs : List (List Byte)} (h : ∀ r ∈ rs, r.length = 3) :
    risingEdges .low (levels (frameWave c rs)) = 24 * rs.length := by
  match rs with
  | [] => rfl
  | [r] =>
    have hr := risingEdges_wave c (h r List.mem_cons_self) []
    rwa [List.append_nil] at hr
  | r :: r' :: rs =>
    have ih := risingEdges_frameWave c (rs := r' :: rs) fun x hx => h x (List.mem_cons_of_mem r hx)
    rw [frameWave_cons_cons, levels_append, levels_append, levels_gapRun, List.append_assoc,
      risingEdges_wave c (h r List.mem_cons_self), risingEdges_replicate_same, ih, List.length_cons (a := r)]
    ring

theorem runCycles_frameWave (c : Config) {rs : List (List Byte)} (h : ∀ r ∈ rs, r.length = 3) :
    runCycles (frameWave c rs) = windowCycles c rs.length := by
  match rs with
  | [] => simp [frameWave, runCycles, windowCycles]
  | [r] =>
    rw [frameWave, runCycles_wave c (h r List.mem_cons_self), windowCycles_eq, List.length_singleton]
    ring
  | r :: r' :: rs =>
    have ih := runCycles_frameWave c (rs := r' :: rs) fun x hx => h x (List.mem_cons_of_mem r hx)
    rw [frameWave_cons_cons, runCycles_append, runCycles_append, runCycles_wave c (h r List.mem_cons_self),
      runCycles_gapRun, ih, windowCycles_eq, windowCycles_eq]
    simp only [List.length_cons, Nat.add_sub_cancel]
    ring

theorem runCycles_frame (c : Config) (total : Nat) (lead count red green blue : Byte) :
    runCycles (frameWave c (frameRecords total lead count red green blue)) =
      windowCycles c (frameLeds total lead count) := by
  rw [runCycles_frameWave c fun _ => length_of_mem_frameRecords, length_frameRecords]

/-- Settles O48: each LED has 24 pulses and each gap none, and the cycles of all are the window (R135, R205). -/
theorem frameHasOnePulsePerBit : Obligations.FrameHasOnePulsePerBit := by
  unfold Obligations.FrameHasOnePulsePerBit
  intro c total lead count red green blue runs leds
  have hedges := risingEdges_frameWave c (rs := frameRecords total lead count red green blue)
    fun _ => length_of_mem_frameRecords
  rw [length_frameRecords] at hedges
  have hcycles := runCycles_frame c total lead count red green blue
  exact ⟨hedges, hcycles, (length_levels runs).trans hcycles⟩

end Sys2Proof.Machine
end

section
/-! The schedules (40_timing_engine.md sections 2 and 3): the two default ones, the tolerance of the bit period, and when
`Config.build` refuses one (R107, R110, R111). -/

namespace Sys2Proof.Machine

open Sys2Proof.Safety

theorem bitRuns_config16 (bits : List Bool) : bitRuns config16 bits = doubled (bitRuns config8 bits) := by
  induction bits with
  | nil => rfl
  | cons b bits ih =>
    rw [bitRuns_cons, bitRuns_cons, doubled, doubled, ih]
    cases b <;> rfl

theorem nanoseconds_config8 (cycles : Nat) : config8.nanoseconds cycles = 125 * (cycles : Rat) := by
  have hf : config8.fActual = 8000000 := rfl
  rw [Config.nanoseconds, hf]
  push_cast
  ring

theorem nanoseconds_config16 (cycles : Nat) : config16.nanoseconds (2 * cycles) = 125 * (cycles : Rat) := by
  have hf : config16.fActual = 16000000 := rfl
  rw [Config.nanoseconds, hf]
  push_cast
  ring

/-- Settles O49: the symbols of S16 are those of S8 doubled (D8), and so are the cycles of a duration. -/
theorem scheduleS16DoublesS8 : Obligations.ScheduleS16DoublesS8 := by
  unfold Obligations.ScheduleS16DoublesS8
  refine ⟨fun vs => ?_, fun cycles => ?_, nanoseconds_config8⟩
  · rw [wave_eq_bitRuns, wave_eq_bitRuns, bitRuns_config16]
  · rw [nanoseconds_config16, nanoseconds_config8]

/-! ### The bit period and the schedule -/

/-- The tolerance over the rationals is the tolerance multiplied out (R107). -/
theorem abs_period_le_iff {f : Nat} (hf : 0 < f) (n p tol : Nat) :
    |(n : Rat) / (f : Rat) - (p : Rat)| ≤ (tol : Rat) ↔ n ≤ (p + tol) * f ∧ p * f ≤ n + tol * f := by
  have hpos : (0 : Rat) < f := Nat.cast_pos.2 hf
  have hupper : (n : Rat) / f ≤ tol + p ↔ n ≤ (p + tol) * f := by
    rw [div_le_iff₀ hpos, add_comm]
    exact_mod_cast Iff.rfl
  have hlower : -(tol : Rat) + p ≤ n / f ↔ p * f ≤ n + tol * f := by
    rw [le_div_iff₀ hpos, add_mul, neg_mul, neg_add_le_iff_le_add, add_comm]
    exact_mod_cast Iff.rfl
  rw [abs_le, le_sub_iff_add_le, sub_le_iff_le_add, hupper, hlower, and_comm]

theorem periodOk_iff {raw : RawConfig} (hf : 0 < raw.fClk) :
    raw.periodOk = true ↔
      |((raw.sched.tbit * 1000000000 : Nat) : Rat) / (raw.fClk : Rat) - (raw.periodNs : Rat)| ≤ (raw.tolNs : Rat) := by
  rw [abs_period_le_iff hf, RawConfig.periodOk, decide_eq_true_eq]

theorem fClk_pos (c : Config) : 0 < c.fClk := by
  rcases (clockSupported_iff c.toRawConfig).1 c.clockOk with h | h <;> rw [h] <;> decide

theorem config_period (c : Config) :
    |((c.sched.tbit * 1000000000 : Nat) : Rat) / (c.fClk : Rat) - (c.periodNs : Rat)| ≤ (c.tolNs : Rat) := by
  have h := c.scheduleOk
  rw [RawConfig.scheduleAdmitted, Bool.and_eq_true, Bool.and_eq_true] at h
  exact (periodOk_iff (fClk_pos c)).1 h.1.2

theorem default_period8_iff (tbit : Nat) :
    |((tbit * 1000000000 : Nat) : Rat) / 8000000 - 1250| ≤ 150 ↔ 9 ≤ tbit ∧ tbit ≤ 11 := by
  have h := abs_period_le_iff (f := 8000000) (by decide) (tbit * 1000000000) 1250 150
  rw [Nat.cast_ofNat, Nat.cast_ofNat, Nat.cast_ofNat] at h
  rw [h]
  omega

theorem default_period16_iff (tbit : Nat) :
    |((tbit * 1000000000 : Nat) : Rat) / 16000000 - 1250| ≤ 150 ↔ 18 ≤ tbit ∧ tbit ≤ 22 := by
  have h := abs_period_le_iff (f := 16000000) (by decide) (tbit * 1000000000) 1250 150
  rw [Nat.cast_ofNat, Nat.cast_ofNat, Nat.cast_ofNat] at h
  rw [h]
  omega

/-- Settles O50: every configuration passed the check of R107, and at the defaults it is a range of `TBIT`. -/
theorem bitPeriodWithinTolerance : Obligations.BitPeriodWithinTolerance := by
  unfold Obligations.BitPeriodWithinTolerance
  refine ⟨fun c => ⟨config_period c, fun hperiod htol => ⟨fun hf => ?_, fun hf => ?_⟩⟩, default_period8_iff,
    default_period16_iff⟩
  · have h := config_period c
    rw [hperiod, htol, hf] at h
    exact (default_period8_iff _).1 h
  · have h := config_period c
    rw [hperiod, htol, hf] at h
    exact (default_period16_iff _).1 h

/-- The conditions of R110 and R34, with the period over the rationals. -/
theorem scheduleAdmitted_iff {raw : RawConfig} (hf : 0 < raw.fClk) : raw.scheduleAdmitted = true ↔
    1 ≤ raw.sched.t0h ∧ raw.sched.t0h < raw.sched.t0l ∧ raw.sched.t1l < raw.sched.t1h ∧ 1 ≤ raw.sched.t1l ∧
      raw.sched.t0h + raw.sched.t0l = raw.sched.tbit ∧ raw.sched.t1h + raw.sched.t1l = raw.sched.tbit ∧
      raw.sched.tbit ≤ 32 ∧
      |((raw.sched.tbit * 1000000000 : Nat) : Rat) / (raw.fClk : Rat) - (raw.periodNs : Rat)| ≤ (raw.tolNs : Rat) ∧
      raw.gapCyc ≤ 255 := by
  simp only [RawConfig.scheduleAdmitted, Schedule.shapeOk, Bool.and_eq_true, decide_eq_true_eq, periodOk_iff hf, and_assoc]

theorem build_badSchedule {raw : RawConfig} (hclock : raw.clockSupported = true) (h : ¬ raw.scheduleAdmitted = true) :
    Config.build raw = .error .badSchedule := by
  rw [Config.build, dif_pos hclock, dif_neg h]

theorem build_badParameter {raw : RawConfig} (hclock : raw.clockSupported = true) (hsched : raw.scheduleAdmitted = true)
    (h : ¬ raw.parametersAdmitted = true) : Config.build raw = .error .badParameter := by
  rw [Config.build, dif_pos hclock, dif_pos hsched, dif_neg h]

/-- What is built is what was asked for, and it passed the check of its schedule. -/
theorem build_ok_iff {raw : RawConfig} (hclock : raw.clockSupported = true) (hparam : raw.parametersAdmitted = true) :
    (∃ c, Config.build raw = .ok c ∧ c.toRawConfig = raw) ↔ raw.scheduleAdmitted = true := by
  constructor
  · rintro ⟨c, _, rfl⟩
    exact c.scheduleOk
  · intro hsched
    exact ⟨⟨raw, hclock, hsched, hparam⟩, by rw [Config.build, dif_pos hclock, dif_pos hsched, dif_pos hparam], rfl⟩

/-- Settles O52: after the clock, `Config.build` checks the schedule of R110 and then the constants, each by its name
(R236; logs 15 and 19). -/
theorem illFormedScheduleFailsToBuild : Obligations.IllFormedScheduleFailsToBuild := by
  unfold Obligations.IllFormedScheduleFailsToBuild
  intro raw hf wellFormed
  have hclock := (clockSupported_iff raw).2 hf
  have hsched : raw.scheduleAdmitted = true ↔ wellFormed := scheduleAdmitted_iff (by omega)
  rw [← hsched]
  exact ⟨build_ok_iff hclock, build_badSchedule hclock,
    fun hok hparam => build_badParameter hclock hok (by rw [hparam]; exact Bool.false_ne_true)⟩

end Sys2Proof.Machine
end

section
/-! The frame on the line (45_cycle_machine.md section 4): the levels the engine shows inside the guard window, from the
first cycle of a bit, of a byte, of an LED and of a frame on. -/

namespace Sys2Proof.Machine

open Sys2Proof.Safety

/-! ### What the engine shows inside the guard window -/

/-- From the registers `e`, with no reset, the engine shows the levels `ls` in as many cycles, all inside the guard window
and whatever the clock, and then has the registers of the last argument. -/
inductive Emits (c : Config) : Engine → List Level → Engine → Prop where
  | done (e : Engine) : Emits c e [] e
  | cycle {e e1 e2 : Engine} {ls : List Level} (hin : irqInhibit e = true) (harm : ∀ us, phaseArm c us e = .ok e1)
      (hrest : Emits c e1 ls e2) : Emits c e (e.pinLevel :: ls) e2

theorem Emits.append {c : Config} {e e1 e2 : Engine} {ls ls' : List Level} (h : Emits c e ls e1)
    (h' : Emits c e1 ls' e2) : Emits c e (ls ++ ls') e2 := by
  induction h with
  | done e => exact h'
  | cycle hin harm _ ih => exact .cycle hin harm (ih h')

theorem Emits.single {c : Config} {e e1 : Engine} (hin : irqInhibit e = true) (harm : ∀ us, phaseArm c us e = .ok e1) :
    Emits c e [e.pinLevel] e1 := .cycle hin harm (.done e1)

/-- The engine shows its levels on the machine, a step each. -/
theorem Emits.runFor {e e' : Engine} {ls : List Level} {c : Config} (h : Emits c e ls e') {s : State} (hcfg : s.cfg = c)
    (heng : s.eng = e) (hquiet : NoReset ls.length s) :
    (∀ k level, ls[k]? = some level →
      ∃ t, runFor k s = .next t ∧ t.eng.pinLevel = level ∧ irqInhibit t.eng = true) ∧
    ∃ t, runFor ls.length s = .next t ∧ t.eng = e' := by
  induction h generalizing s with
  | done e => exact ⟨by simp, s, rfl, heng⟩
  | @cycle e e1 e2 ls hin harm _ ih =>
    subst hcfg heng
    have hbusy : s.eng.phase ≠ .idle := by
      rcases (irqInhibit_iff _).1 hin with h | h <;> simp [h]
    have hstep := step_busy_ok (hquiet 0 (Nat.succ_pos _)) hbusy (harm s.port.usNow)
    have hquiet' : NoReset ls.length (Ops.advance s e1) := fun k hk => by
      rw [inputAt_advance]
      exact hquiet (k + 1) (Nat.succ_lt_succ hk)
    obtain ⟨hlevels, t, hrun, ht⟩ := ih (s := Ops.advance s e1) rfl rfl hquiet'
    refine ⟨fun k level hk => ?_, t, by rw [List.length_cons, runFor_succ_of hstep, hrun], ht⟩
    cases k with
    | zero => exact ⟨s, rfl, by simpa using hk, hin⟩
    | succ k =>
      obtain ⟨u, hu, hlevel⟩ := hlevels k level (by simpa using hk)
      exact ⟨u, by rw [runFor_succ_of hstep, hu], hlevel⟩

/-! ### A symbol -/

/-- The first cycle of a bit of the byte `v` (R195, R197, R198). -/
structure FirstCycle (e : Engine) (v : Byte) : Prop where
  phase : e.phase = .tx
  cyc : e.cyc = 0
  pinLevel : e.pinLevel = .high
  read : Ops.memRead e.mem e.ptr = .ok v

/-- The levels of the first `n` cycles of a bit. -/
def symbolLevels (c : Config) (bit : Bool) (n : Nat) : List Level :=
  (List.range n).map fun j => if j < highCycles c bit then .high else .low

/-- Over a whole bit they are the symbol (R104, R105). -/
theorem symbolLevels_tbit (c : Config) (bit : Bool) : symbolLevels c bit c.sched.tbit = levels (sym c bit) := by
  obtain ⟨_, _, hsum⟩ := segments c bit
  rw [symbolLevels, ← hsum, List.range_add, List.map_append, List.map_map, sym, levels, levels, levels, List.append_nil]
  congr 1
  · refine List.eq_replicate_iff.2 ⟨by simp, fun l hl => ?_⟩
    obtain ⟨j, hj, rfl⟩ := List.mem_map.1 hl
    exact if_pos (List.mem_range.1 hj)
  · refine List.eq_replicate_iff.2 ⟨by simp, fun l hl => ?_⟩
    obtain ⟨j, _, rfl⟩ := List.mem_map.1 hl
    exact if_neg (Nat.not_lt.2 (Nat.le_add_right _ j))

/-- Up to the last cycle of a bit the engine goes through `symbolCycle`. -/
theorem emits_within_symbol (c : Config) {e : Engine} {v : Byte} (hfirst : FirstCycle e v) {n : Nat}
    (hn : n < c.sched.tbit) :
    Emits c e (symbolLevels c (bitOf v e.bitIdx) n) (symbolCycle c (bitOf v e.bitIdx) e n) := by
  induction n with
  | zero =>
    rw [symbolCycle_zero c _ hfirst.cyc hfirst.pinLevel]
    exact .done e
  | succ n ih =>
    rw [symbolLevels, List.range_succ, List.map_append, List.map_singleton, ← txBit_symbolCycle _ e hn]
    exact (ih (by omega)).append (.single ((irqInhibit_iff _).2 (.inl hfirst.phase))
      (phaseArm_tx (e := symbolCycle c (bitOf v e.bitIdx) e n) hfirst.phase hfirst.read))

/-- A bit is its symbol, and then whatever its last cycle leads to. -/
theorem emits_symbol (c : Config) {e : Engine} {v : Byte} (hfirst : FirstCycle e v) :
    Emits c e (levels (sym c (bitOf v e.bitIdx)))
      (txBit c (bitOf v e.bitIdx) (symbolCycle c (bitOf v e.bitIdx) e (c.sched.tbit - 1))) := by
  obtain ⟨hhigh, _, hsum⟩ := segments c (bitOf v e.bitIdx)
  obtain ⟨n, hn⟩ : ∃ n, c.sched.tbit = n + 1 := ⟨c.sched.tbit - 1, by omega⟩
  rw [← symbolLevels_tbit, hn, Nat.add_sub_cancel, symbolLevels, List.range_succ, List.map_append, List.map_singleton]
  exact (emits_within_symbol c hfirst (by omega)).append (.single ((irqInhibit_iff _).2 (.inl hfirst.phase))
    (phaseArm_tx (e := symbolCycle c (bitOf v e.bitIdx) e n) hfirst.phase hfirst.read))

theorem tbit_le_last_cycle (c : Config) (bit : Bool) (e : Engine) :
    c.sched.tbit ≤ (symbolCycle c bit e (c.sched.tbit - 1)).cyc.toNat + 1 := by
  obtain ⟨hhigh, _, hsum⟩ := segments c bit
  rw [symbolCycle_cyc_toNat bit e (by omega)]
  omega

/-! ### A byte -/

/-- The bits of a byte from bit `k` down. -/
def bitsFrom (v : Byte) : Nat → List Bool
  | 0 => [v.getLsbD 0]
  | k + 1 => v.getLsbD (k + 1) :: bitsFrom v k

theorem levels_bitRuns_cons (c : Config) (b : Bool) (bits : List Bool) :
    levels (bitRuns c (b :: bits)) = levels (sym c b) ++ levels (bitRuns c bits) := levels_append (sym c b) _

/-- A bit that is not the last of its byte leads to the first cycle of the next (R197). -/
theorem emits_next_bit (c : Config) {e : Engine} {v : Byte} (hfirst : FirstCycle e v) (hidx : e.bitIdx ≠ 0) :
    Emits c e (levels (sym c (bitOf v e.bitIdx))) { e with bitIdx := e.bitIdx - 1 } := by
  have hnext : txNextBit (symbolCycle c (bitOf v e.bitIdx) e (c.sched.tbit - 1)) = { e with bitIdx := e.bitIdx - 1 } := by
    rw [txNextBit, symbolCycle, ← hfirst.cyc, ← hfirst.pinLevel]
  have h := emits_symbol c hfirst
  rwa [txBit_nextBit _ (tbit_le_last_cycle c _ e) hidx, hnext] at h

/-- The bits of a byte from bit `k` down, and then whatever the last cycle of the byte leads to. -/
theorem emits_bits (c : Config) {v : Byte} {k : Nat} {e : Engine} (hfirst : FirstCycle e v) (hk : e.bitIdx.toNat = k) :
    Emits c e (levels (bitRuns c (bitsFrom v k)))
      (txBit c (v.getLsbD 0) (symbolCycle c (v.getLsbD 0) { e with bitIdx := 0 } (c.sched.tbit - 1))) := by
  induction k generalizing e with
  | zero =>
    have hidx : e.bitIdx = 0 := (toNat_eq_zero_iff _).1 hk
    have h := emits_symbol c hfirst
    rw [bitsFrom, levels_bitRuns_cons, ← hidx]
    rw [bitOf, hk] at h
    simpa [levels] using h
  | succ k ih =>
    have hidx : e.bitIdx ≠ 0 := fun h => by rw [h] at hk; exact absurd hk (Nat.succ_ne_zero k).symm
    have hpred : (e.bitIdx - 1).toNat = k := by
      have := toNat_pred hidx
      omega
    have hbit : bitOf v e.bitIdx = v.getLsbD (k + 1) := by rw [bitOf, hk]
    rw [bitsFrom, levels_bitRuns_cons, ← hbit]
    exact (emits_next_bit c hfirst hidx).append
      (ih (e := { e with bitIdx := e.bitIdx - 1 }) ⟨hfirst.phase, hfirst.cyc, hfirst.pinLevel, hfirst.read⟩ hpred)

/-- A byte that is not the last of its LED leads to the first cycle of the next (R198). -/
theorem emits_next_byte (c : Config) {v : Byte} {e : Engine} (hfirst : FirstCycle e v) (hidx : e.bitIdx = 7)
    (hcnt : 1 < e.cnt.toNat) :
    Emits c e (levels (bitRuns c (byteBits v))) { e with ptr := e.ptr + 1, cnt := e.cnt - 1 } := by
  have h := emits_bits c hfirst (k := 7) (by rw [hidx]; rfl)
  rw [txBit_nextByte _ (tbit_le_last_cycle c _ { e with bitIdx := 0 }) rfl hcnt, txNextByte_eq, symbolCycle, ← hidx, ← hfirst.cyc,
    ← hfirst.pinLevel] at h
  exact h

/-- `SEQ.NEXT` and what it leads to write the level (R195, R199). -/
theorem nextLed_withLevel (c : Config) (l : Level) (e : Engine) : nextLed c { e with pinLevel := l } = nextLed c e := by
  rcases nextLed_cases c e with ⟨hlead, h⟩ | ⟨hlead, hcol, h⟩ | ⟨hlead, hcol, htrail, h⟩ | ⟨hlead, hcol, htrail, h⟩ <;>
    rw [h]
  · exact nextLed_lead c (e := { e with pinLevel := l }) hlead
  · exact nextLed_colored c (e := { e with pinLevel := l }) hlead hcol
  · exact nextLed_trail c (e := { e with pinLevel := l }) hlead hcol htrail
  · exact nextLed_end c (e := { e with pinLevel := l }) hlead hcol htrail

/-- The end of an LED writes the cycle index and the level (R199). -/
theorem txEndLed_symbolCycle (c : Config) (bit : Bool) (e : Engine) (j : Nat) :
    txEndLed c (symbolCycle c bit e j) = txEndLed c e := by
  rcases txEndLed_cases c e with ⟨hlead, hcol, htrail, h⟩ | ⟨hsome, hgap, h⟩ | ⟨hsome, hgap, h⟩ <;> rw [h]
  · exact txEndLed_frameOver c (e := symbolCycle c bit e j) ⟨hlead, hcol, htrail⟩
  · rw [txEndLed_nextLed (e := symbolCycle c bit e j) hsome hgap]
    exact nextLed_withLevel c (symbolCycle c bit e j).pinLevel { e with cnt := 0, cyc := 0 }
  · exact txEndLed_gap (e := symbolCycle c bit e j) hsome hgap

/-- The last byte of an LED leads to the end of the LED (R199). -/
theorem emits_last_byte (c : Config) {v : Byte} {e : Engine} (hfirst : FirstCycle e v) (hidx : e.bitIdx = 7)
    (hcnt : e.cnt.toNat ≤ 1) :
    Emits c e (levels (bitRuns c (byteBits v))) (txEndLed c { e with bitIdx := 0 }) := by
  have h := emits_bits c hfirst (k := 7) (by rw [hidx]; rfl)
  rw [txBit_endLed _ (tbit_le_last_cycle c _ { e with bitIdx := 0 }) rfl hcnt, txEndLed_symbolCycle] at h
  exact h

/-! ### An LED -/

/-- The record of the LED that starts at the cursor (R61, R195). -/
def ledRecord (e : Engine) : List Byte :=
  if e.ptr = 0 then [0x00, 0x00, 0x00] else [Ops.color e.mem 0, Ops.color e.mem 1, Ops.color e.mem 2]

/-- The three bytes from the base of an LED are its record. -/
theorem memRead_ledRecord {e : Engine} (hbase : e.ptr = 0 ∨ e.ptr = 3) : ∃ v0 v1 v2, ledRecord e = [v0, v1, v2] ∧
    Ops.memRead e.mem e.ptr = .ok v0 ∧ Ops.memRead e.mem (e.ptr + 1) = .ok v1 ∧
    Ops.memRead e.mem (e.ptr + 1 + 1) = .ok v2 := by
  rcases hbase with h | h <;> rw [ledRecord, h]
  · exact ⟨_, _, _, rfl, rfl, rfl, rfl⟩
  · exact ⟨_, _, _, rfl, rfl, rfl, rfl⟩

/-- The registers at the end of an LED that started with the registers `e`, before R199. -/
def ledEnd (e : Engine) : Engine := { e with ptr := e.ptr + 1 + 1, cnt := 1, bitIdx := 0 }

/-- An LED is the waveform of its record, and then what its end leads to. -/
theorem emits_led (c : Config) {e : Engine} (hstart : StartsLed e) :
    Emits c e (levels (wave c (ledRecord e))) (txEndLed c (ledEnd e)) := by
  obtain ⟨hp, hbase, hcnt, hidx, hcyc, hlevel⟩ := hstart
  obtain ⟨v0, v1, v2, hrecord, hread0, hread1, hread2⟩ := memRead_ledRecord hbase
  have h0 := emits_next_byte c (e := e) ⟨hp, hcyc, hlevel, hread0⟩ hidx (by rw [hcnt]; decide)
  rw [hcnt] at h0
  have h1 := emits_next_byte c (e := { e with ptr := e.ptr + 1, cnt := 3 - 1 }) ⟨hp, hcyc, hlevel, hread1⟩ hidx
    (show 1 < (3 - 1 : BitVec 2).toNat by decide)
  have h2 := emits_last_byte c (e := { e with ptr := e.ptr + 1 + 1, cnt := 3 - 1 - 1 }) ⟨hp, hcyc, hlevel, hread2⟩ hidx
    (show (3 - 1 - 1 : BitVec 2).toNat ≤ 1 by decide)
  have hbits : levels (wave c (ledRecord e)) = levels (bitRuns c (byteBits v0)) ++
      (levels (bitRuns c (byteBits v1)) ++ levels (bitRuns c (byteBits v2))) := by
    rw [hrecord, wave_eq_bitRuns, List.flatMap_cons, List.flatMap_cons, List.flatMap_cons, List.flatMap_nil,
      List.append_nil, bitRuns_append, bitRuns_append, levels_append, levels_append]
  rw [hbits]
  exact h0.append (h1.append h2)

/-! ### A frame -/

/-- The records of the LEDs not yet started (R140, R146). -/
def recordsLeft (e : Engine) : List (List Byte) :=
  List.replicate e.nlead.toNat [0x00, 0x00, 0x00] ++
    List.replicate e.ncol.toNat [Ops.color e.mem 0, Ops.color e.mem 1, Ops.color e.mem 2] ++
    List.replicate e.ntrail [0x00, 0x00, 0x00]

/-- The base of the last LED of the frame. -/
def lastBase (e : Engine) : RecAddr :=
  if e.ntrail ≠ 0 then 0 else if e.ncol ≠ 0 then 3 else if e.nlead ≠ 0 then 0 else e.ptr

section LastBase

variable {e : Engine}

theorem lastBase_trail (ht : e.ntrail ≠ 0) : lastBase e = 0 := if_pos ht

theorem lastBase_colored (ht : e.ntrail = 0) (hc : e.ncol ≠ 0) : lastBase e = 3 := by
  rw [lastBase, if_neg (not_not.2 ht), if_pos hc]

theorem lastBase_lead (ht : e.ntrail = 0) (hc : e.ncol = 0) (hl : e.nlead ≠ 0) : lastBase e = 0 := by
  rw [lastBase, if_neg (not_not.2 ht), if_neg (not_not.2 hc), if_pos hl]

theorem lastBase_none (ht : e.ntrail = 0) (hc : e.ncol = 0) (hl : e.nlead = 0) : lastBase e = e.ptr := by
  rw [lastBase, if_neg (not_not.2 ht), if_neg (not_not.2 hc), if_neg (not_not.2 hl)]

end LastBase

/-- The LED that `SEQ.NEXT` starts is the first of those left (R146). -/
theorem recordsLeft_nextLed (c : Config) {e : Engine} (hsome : ledsLeft e ≠ 0) :
    recordsLeft e = ledRecord (nextLed c e) :: recordsLeft (nextLed c e) := by
  rcases nextLed_cases c e with ⟨hlead, h⟩ | ⟨hlead, hcol, h⟩ | ⟨hlead, hcol, htrail, h⟩ | ⟨hlead, hcol, htrail, _⟩
  · rw [h, recordsLeft, ← toNat_pred hlead, List.replicate_succ]
    rfl
  · rw [h, recordsLeft, ← toNat_pred hcol, List.replicate_succ, hlead]
    rfl
  · obtain ⟨n, hn⟩ := Nat.exists_eq_succ_of_ne_zero htrail
    rw [h, recordsLeft, hn, List.replicate_succ, hlead, hcol]
    simp [recordsLeft, ledRecord]
  · exact absurd ((ledsLeft_eq_zero_iff e).2 ⟨hlead, hcol, htrail⟩) hsome

theorem lastBase_nextLed (c : Config) {e : Engine} (hsome : ledsLeft e ≠ 0) : lastBase (nextLed c e) = lastBase e := by
  rcases nextLed_cases c e with ⟨hlead, h⟩ | ⟨hlead, hcol, h⟩ | ⟨hlead, hcol, htrail, h⟩ | ⟨hlead, hcol, htrail, _⟩
  · simp only [h, lastBase, startLed_ntrail, startLed_ncol, startLed_nlead, startLed_ptr]
    rw [ite_self, if_pos hlead]
  · simp only [h, lastBase, startLed_ntrail, startLed_ncol, startLed_nlead, startLed_ptr]
    rw [if_neg (not_not.2 hlead), ite_self, if_pos hcol]
  · simp only [h, lastBase, startLed_ntrail, startLed_ncol, startLed_nlead, startLed_ptr]
    rw [if_neg (not_not.2 hcol), if_neg (not_not.2 hlead), ite_self, if_pos htrail]
  · exact absurd ((ledsLeft_eq_zero_iff e).2 ⟨hlead, hcol, htrail⟩) hsome

/-- With an LED left, the last base is a matter of the counters. -/
theorem lastBase_congr {e e1 : Engine} (hsame : SameCounters e e1) (hsome : ledsLeft e ≠ 0) : lastBase e1 = lastBase e := by
  obtain ⟨hlead, hcol, htrail⟩ := hsame
  by_cases ht : e.ntrail = 0
  · by_cases hc : e.ncol = 0
    · have hl : e.nlead ≠ 0 := fun h => hsome ((ledsLeft_eq_zero_iff e).2 ⟨h, hc, ht⟩)
      rw [lastBase_lead ht hc hl, lastBase_lead (htrail.trans ht) (hcol.trans hc) (hlead.trans_ne hl)]
    · rw [lastBase_colored ht hc, lastBase_colored (htrail.trans ht) (hcol.trans_ne hc)]
  · rw [lastBase_trail ht, lastBase_trail (htrail.trans_ne ht)]

/-- Two states of one frame: nothing a frame does not write differs. -/
def SameSession (e e' : Engine) : Prop := e'.total = e.total ∧ e'.pinDir = e.pinDir ∧ e'.mem = e.mem

theorem SameSession.trans {e e1 e2 : Engine} (h : SameSession e e1) (h' : SameSession e1 e2) : SameSession e e2 := by
  obtain ⟨htotal, hdir, hmem⟩ := h
  obtain ⟨htotal', hdir', hmem'⟩ := h'
  exact ⟨htotal'.trans htotal, hdir'.trans hdir, hmem'.trans hmem⟩

theorem sameSession_nextLed (c : Config) (e : Engine) : SameSession e (nextLed c e) := by
  obtain ⟨hmem, htotal, hdir, _⟩ := nextLed_frame c e
  exact ⟨htotal, hdir, hmem⟩

/-- A gap is as many LOW cycles as `GAPCNT` says, and then the next LED (R200). -/
theorem emits_gap (c : Config) {n : Nat} {e : Engine} (hp : e.phase = .gap) (hlow : e.pinLevel = .low)
    (hn : e.gapCnt.toNat = n + 1) : Emits c e (List.replicate (n + 1) .low) (nextLed c { e with gapCnt := 0 }) := by
  have hin : irqInhibit e = true := (irqInhibit_iff e).2 (.inr hp)
  induction n generalizing e with
  | zero =>
    have hcycle := Emits.single hin (phaseArm_gap (c := c) hp)
    rwa [hlow, gapArm_over c hn.le] at hcycle
  | succ n ih =>
    have hpred : (e.gapCnt - 1).toNat = n + 1 := by bv_omega
    have harm := phaseArm_gap (c := c) hp
    rw [gapArm_counting c (by omega)] at harm
    rw [List.replicate_succ, ← hlow]
    exact .cycle hin harm (hlow ▸ ih (e := { e with gapCnt := e.gapCnt - 1 }) hp hlow hpred hin)

/-- Between two LEDs comes the gap, and then the first of the LEDs left starts (R113, R199, R200). -/
theorem emits_between (c : Config) {e : Engine} (hsome : ledsLeft e ≠ 0) :
    ∃ e1, Emits c (txEndLed c (ledEnd e)) (levels (gapRun c)) (nextLed c e1) ∧ SameSession e e1 ∧ SameCounters e e1 := by
  have hnot : ¬ ((ledEnd e).nlead = 0 ∧ (ledEnd e).ncol = 0 ∧ (ledEnd e).ntrail = 0) :=
    fun h => hsome ((ledsLeft_eq_zero_iff e).2 h)
  rw [levels_gapRun]
  by_cases hgap : c.gapCyc = 0
  · rw [txEndLed_nextLed hnot hgap, hgap]
    exact ⟨_, .done _, ⟨rfl, rfl, rfl⟩, rfl, rfl, rfl⟩
  · obtain ⟨n, hn⟩ := Nat.exists_eq_succ_of_ne_zero hgap
    rw [txEndLed_gap hnot hgap]
    have hcnt := (toNat_ofNat_gapCyc c).trans hn
    have hwait := emits_gap c (e := { ledEnd e with
      cnt := 0, cyc := 0, phase := .gap, gapCnt := BitVec.ofNat 8 c.gapCyc, pinLevel := .low }) rfl rfl hcnt
    rw [← Nat.succ_eq_add_one, ← hn] at hwait
    exact ⟨_, hwait, ⟨rfl, rfl, rfl⟩, rfl, rfl, rfl⟩

/-- The registers after the last LED of a frame whose last base is `base` (R36, R199). -/
structure FrameDone (base : RecAddr) (e : Engine) : Prop where
  phase : e.phase = .arm
  pinLevel : e.pinLevel = .low
  counters : e.nlead = 0 ∧ e.ncol = 0 ∧ e.ntrail = 0
  position : e.cnt = 0 ∧ e.bitIdx = 0 ∧ e.cyc = 0 ∧ e.ptr = base + 1 + 1

/-- From the first cycle of an LED: the LED, and all those left, with the gaps between them. -/
theorem emits_frame (c : Config) {n : Nat} {e : Engine} (hstart : StartsLed e) (hn : ledsLeft e = n) :
    ∃ e', Emits c e (levels (frameWave c (ledRecord e :: recordsLeft e))) e' ∧ SameSession e e' ∧
      FrameDone (lastBase e) e' := by
  have hled := emits_led c hstart
  induction n generalizing e with
  | zero =>
    obtain ⟨hlead, hcol, htrail⟩ := (ledsLeft_eq_zero_iff e).1 hn
    have hnone : recordsLeft e = [] := by simp [recordsLeft, hlead, hcol, htrail]
    rw [txEndLed_frameOver c (e := ledEnd e) ⟨hlead, hcol, htrail⟩] at hled
    rw [hnone, lastBase_none htrail hcol hlead]
    exact ⟨_, hled, ⟨rfl, rfl, rfl⟩, rfl, rfl, ⟨hlead, hcol, htrail⟩, rfl, rfl, rfl, rfl⟩
  | succ n ih =>
    obtain ⟨e1, hgap, hsession, hcounters⟩ := emits_between c (e := e) (by omega)
    have hbase := lastBase_congr hcounters (by omega)
    obtain ⟨hlead, hcol, htrail⟩ := hcounters
    have hleft : ledsLeft e1 = ledsLeft e := by simp only [ledsLeft, hlead, hcol, htrail]
    have hrecords : recordsLeft e1 = recordsLeft e := by simp only [recordsLeft, hlead, hcol, htrail, hsession.2.2]
    have hsome : ledsLeft e1 ≠ 0 := by omega
    have hnext := ledsLeft_nextLed c hsome
    have hstart' := startsLed_nextLed c (fun h => hsome ((ledsLeft_eq_zero_iff e1).2 h))
    obtain ⟨e', hrest, hsession', hdone⟩ := ih hstart' (by omega) (emits_led c hstart')
    rw [lastBase_nextLed c hsome, hbase] at hdone
    refine ⟨e', ?_, (hsession.trans (sameSession_nextLed c e1)).trans hsession', hdone⟩
    rw [← hrecords, recordsLeft_nextLed c hsome, frameWave_cons_cons, levels_append, levels_append]
    exact (hled.append hgap).append hrest

end Sys2Proof.Machine
end

section
/-! The render call (45_cycle_machine.md section 4): from its acceptance to the ARM cycle (R204), and through the wait to IDLE
(R179). -/

namespace Sys2Proof.Machine

open Sys2Proof.Safety

/-- The registers in the ARM cycle of a render call that was accepted with the registers `e` (R36, R199, R204). -/
structure RenderDone (lead count red green blue : Byte) (e e' : Engine) : Prop where
  phase : e'.phase = .arm
  total : e'.total = e.total
  pinDir : e'.pinDir = e.pinDir
  mem : e'.mem = loadColor e.mem red green blue
  counters : e'.nlead = 0 ∧ e'.ncol = 0 ∧ e'.ntrail = 0
  empty : frameLeds e.total lead count = 0 → e'.pinLevel = e.pinLevel
  sent : frameLeds e.total lead count ≠ 0 → e'.pinLevel = .low ∧ e'.cnt = 0 ∧ e'.bitIdx = 0 ∧ e'.cyc = 0 ∧
    e'.ptr = if trailCount e.total lead count = 0 ∧ count ≠ 0 then 5 else 2

theorem recordsLeft_seqLoad (lead count red green blue : Byte) (e : Engine) :
    recordsLeft (seqLoad lead count red green blue e) = frameRecords e.total lead count red green blue := by
  simp only [recordsLeft, frameRecords, seqLoad_mem, loadColor_green, loadColor_red, loadColor_blue, seqLoad_nlead,
    seqLoad_ncol, seqLoad_ntrail]

/-- With an LED to send, the first `SEQ.NEXT` of a call is like every later one (R194, R199). -/
theorem firstLed_eq_nextLed (c : Config) {e : Engine} (hsome : ledsLeft e ≠ 0) : firstLed c e = nextLed c e := by
  rcases nextLed_cases c e with ⟨hlead, h⟩ | ⟨hlead, hcol, h⟩ | ⟨hlead, hcol, htrail, h⟩ | ⟨hlead, hcol, htrail, _⟩
  · rw [h, firstLed_lead c hlead]
  · rw [h, firstLed_colored c hlead hcol]
  · rw [h, firstLed_trail c hlead hcol htrail]
  · exact absurd ((ledsLeft_eq_zero_iff e).2 ⟨hlead, hcol, htrail⟩) hsome

/-- The cursor at the end of the frame: past the colour record when the last LED is colored, past the zero record
otherwise (R204). -/
theorem lastBase_seqLoad {lead count : Byte} (red green blue : Byte) {e : Engine}
    (hsome : frameLeds e.total lead count ≠ 0) :
    lastBase (seqLoad lead count red green blue e) + 1 + 1 =
      if trailCount e.total lead count = 0 ∧ count ≠ 0 then 5 else 2 := by
  by_cases htrail : trailCount e.total lead count = 0
  · by_cases hcount : count = 0
    · have hlead : lead ≠ 0 := fun h => hsome ((frameLeds_eq_zero_iff ..).2 ⟨h, hcount, htrail⟩)
      rw [lastBase_lead (e := seqLoad lead count red green blue e) htrail hcount hlead, if_neg fun h => h.2 hcount]
      rfl
    · rw [lastBase_colored (e := seqLoad lead count red green blue e) htrail hcount, if_pos ⟨htrail, hcount⟩]
      rfl
  · rw [lastBase_trail (e := seqLoad lead count red green blue e) htrail, if_neg fun h => htrail h.1]
    rfl

/-- From its acceptance on, a RENDER shows the waveform of its frame, the empty one included (R149, R204). -/
theorem emits_render (c : Config) (lead count red green blue : Byte) (e : Engine) :
    ∃ e', Emits c (renderEffect c lead count red green blue e)
      (levels (frameWave c (frameRecords e.total lead count red green blue))) e' ∧
      RenderDone lead count red green blue e e' := by
  by_cases hempty : frameLeds e.total lead count = 0
  · have hnone : frameRecords e.total lead count red green blue = [] :=
      List.eq_nil_of_length_eq_zero ((length_frameRecords ..).trans hempty)
    have hcounters := (frameLeds_eq_zero_iff ..).1 hempty
    rw [renderEffect_empty c red green blue hempty, hnone]
    exact ⟨_, .done _, rfl, rfl, rfl, rfl, hcounters, fun _ => rfl, fun h => absurd hempty h⟩
  · have hsome : ledsLeft (seqLoad lead count red green blue e) ≠ 0 := hempty
    have hstart := startsLed_nextLed c (fun h => hsome ((ledsLeft_eq_zero_iff _).2 h))
    obtain ⟨e', hframe, hsession, hdone⟩ := emits_frame c hstart rfl
    obtain ⟨htotal, hdir, hmem⟩ := (sameSession_nextLed c _).trans hsession
    obtain ⟨hcnt, hidx, hcyc, hptr⟩ := hdone.position
    rw [← recordsLeft_nextLed c hsome, recordsLeft_seqLoad] at hframe
    rw [lastBase_nextLed c hsome, lastBase_seqLoad red green blue hempty] at hptr
    rw [renderEffect, firstLed_eq_nextLed c hsome]
    exact ⟨e', hframe, hdone.phase, htotal, hdir, hmem, hdone.counters, fun h => absurd h hempty,
      fun _ => ⟨hdone.pinLevel, hcnt, hidx, hcyc, hptr⟩⟩

theorem length_levels_frame (c : Config) (total : Nat) (lead count red green blue : Byte) :
    (levels (frameWave c (frameRecords total lead count red green blue))).length =
      windowCycles c (frameLeds total lead count) :=
  (length_levels _).trans (runCycles_frame c total lead count red green blue)

section RenderCall

variable {s : State} {lead count red green blue : Byte} (hp : s.eng.phase = .idle) (hv : s.port.cmdValid = true)
  (hdec : decode s.port.cmd = .ok (.render lead count red green blue))

include hp hv hdec

/-- The machine from an accepted RENDER to its ARM cycle. -/
theorem runFor_render (hquiet : NoReset (windowCycles s.cfg (frameLeds s.eng.total lead count) + 1) s) :
    (∀ k level, (levels (frameWave s.cfg (frameRecords s.eng.total lead count red green blue)))[k]? = some level →
      ∃ t, runFor (k + 1) s = .next t ∧ t.eng.pinLevel = level ∧ irqInhibit t.eng = true) ∧
    ∃ t, runFor (windowCycles s.cfg (frameLeds s.eng.total lead count) + 1) s = .next t ∧
      RenderDone lead count red green blue s.eng t.eng := by
  have hr : s.port.rst = false := hquiet 0 (Nat.succ_pos _)
  have hstep := (step_accepted (accepted_of hr hv hp) hdec).trans (exec_idle _ hr hp)
  obtain ⟨e', hemits, hdone⟩ := emits_render s.cfg lead count red green blue s.eng
  have hlength := length_levels_frame s.cfg s.eng.total lead count red green blue
  obtain ⟨hlevels, t, hrun, rfl⟩ := hemits.runFor (s := Ops.advance s _) rfl rfl (fun k hk => by
    rw [inputAt_advance]
    exact hquiet (k + 1) (by omega))
  rw [hlength] at hrun
  refine ⟨fun k level hk => ?_, t, (runFor_succ_of hstep).trans hrun, hdone⟩
  obtain ⟨u, hu, hlevel⟩ := hlevels k level hk
  exact ⟨u, (runFor_succ_of hstep).trans hu, hlevel⟩

/-- The cycle after the ARM cycle is the first of phase WAIT (R201). -/
theorem runFor_render_wait (hquiet : NoReset (windowCycles s.cfg (frameLeds s.eng.total lead count) + 2) s) :
    ∃ t u, runFor (windowCycles s.cfg (frameLeds s.eng.total lead count) + 1) s = .next t ∧
      RenderDone lead count red green blue s.eng t.eng ∧
      runFor (windowCycles s.cfg (frameLeds s.eng.total lead count) + 2) s = .next u ∧
      u.eng = { t.eng with
        t0 := clockValue s.cfg
          (Ops.inputAt s (windowCycles s.cfg (frameLeds s.eng.total lead count) + 1)).usNow, phase := .wait } := by
  obtain ⟨_, t, hrun, hdone⟩ := runFor_render hp hv hdec (noReset_mono hquiet (Nat.le_succ _))
  have hr := runFor_noReset hquiet (Nat.lt_succ_self _) hrun
  refine ⟨t, _, hrun, hdone, (runFor_succ_end hrun).trans (step_arm hr hdone.phase), ?_⟩
  rw [advance_eng, armArm, runFor_cfg hrun, runFor_port hrun]

end RenderCall

/-- Settles O45: the engine emits the waveform of the frame from the acceptance on, and the ARM cycle follows it (R204). -/
theorem frameWaveformOnTheLine : Obligations.FrameWaveformOnTheLine := by
  unfold Obligations.FrameWaveformOnTheLine
  intro s lead count red green blue runs leds w hp hv hdec hquiet
  have hlevels := (runFor_render hp hv hdec (noReset_mono hquiet (Nat.le_succ _))).1
  obtain ⟨t, u, hrun, hdone, hrun', hwait⟩ := runFor_render_wait hp hv hdec hquiet
  refine ⟨length_levels_frame .., fun k level hk => ?_, ⟨t, hrun, hdone.phase, ?_, hdone.total, hdone.pinDir,
    hdone.counters.1, hdone.counters.2.1, hdone.counters.2.2, ?_, ?_, ?_, hdone.empty, hdone.sent⟩, u, hrun', ?_⟩
  · obtain ⟨v, hv, hlevel, hin⟩ := hlevels k level hk
    exact ⟨v, hv, hlevel, (irqInhibit_iff _).1 hin, hin⟩
  · simp [irqInhibit, hdone.phase]
  · rw [hdone.mem, loadColor_green]
  · rw [hdone.mem, loadColor_red]
  · rw [hdone.mem, loadColor_blue]
  · rw [hwait]
    exact ⟨rfl, rfl⟩

/-- A wait whose clock gets there ends in the first cycle in which it has (R163). -/
theorem runFor_wait_ends {s : State} {m : Nat} (hp : s.eng.phase = .wait) (hquiet : NoReset (m + 1) s)
    (hdone : s.cfg.latchUs ≤ elapsed s.cfg (Ops.inputAt s m).usNow s.eng.t0) :
    ∃ n, n ≤ m ∧ (∀ k, k ≤ n → ∃ t, runFor k s = .next t ∧ t.eng = s.eng) ∧
      ∃ t, runFor (n + 1) s = .next t ∧ t.eng = { s.eng with phase := .idle } := by
  have hex : ∃ n, s.cfg.latchUs ≤ elapsed s.cfg (Ops.inputAt s n).usNow s.eng.t0 := ⟨m, hdone⟩
  have hle : Nat.find hex ≤ m := Nat.find_min' hex hdone
  have hstalled : LatchClockStalled (Nat.find hex) s := ⟨hp, fun j hj => Nat.not_le.1 (Nat.find_min hex hj)⟩
  refine ⟨Nat.find hex, hle, fun k hk => ?_, ?_⟩
  · exact runFor_stalled ⟨hp, fun j hj => hstalled.2 j (hj.trans_le hk)⟩ (noReset_mono hquiet (by omega))
  · exact (waitEndsWhenTheClockSaysSo s _ hstalled).2 (noReset_mono hquiet (by omega)) (Nat.find_spec hex)

theorem busy_of_phase_ne {e : Engine} (h : e.phase ≠ .idle) : busy e = true ∧ cmdReady e = false :=
  ⟨(busy_iff e).2 h, decide_eq_false h⟩

theorem busy_of_irqInhibit {e : Engine} (h : irqInhibit e = true) : busy e = true ∧ cmdReady e = false := by
  refine busy_of_phase_ne fun hidle => ?_
  rw [irqInhibit_iff, hidle] at h
  exact h.elim nofun nofun

/-- A render call returns: busy inside the window, in the ARM cycle and through the wait, which ends by cycle `m`. -/
theorem render_returns {s : State} {lead count red green blue : Byte} {m w : Nat} (hp : s.eng.phase = .idle)
    (hv : s.port.cmdValid = true) (hdec : decode s.port.cmd = .ok (.render lead count red green blue))
    (hw : windowCycles s.cfg (frameLeds s.eng.total lead count) = w) (hclock : ClockAdvances s (w + 1) m)
    (hquiet : NoReset (m + 1) s) :
    ∃ n t, w + 3 ≤ n ∧ n ≤ m + 1 ∧
      (∀ k, 1 ≤ k → k < n → ∃ u, runFor k s = .next u ∧ busy u.eng = true ∧ cmdReady u.eng = false) ∧
      runFor n s = .next t ∧ cmdReady t.eng = true ∧ busy t.eng = false ∧ t.eng.total = s.eng.total ∧
      t.eng.pinDir = s.eng.pinDir ∧ (frameLeds s.eng.total lead count ≠ 0 → t.eng.pinLevel = .low) := by
  obtain ⟨hlt, hlatch⟩ := hclock
  obtain ⟨t, u, hrun, hdone, hrun', hwait⟩ := runFor_render_wait hp hv hdec (noReset_mono hquiet (by omega))
  have hlevels := (runFor_render hp hv hdec (noReset_mono hquiet (by omega))).1
  have hlength := length_levels_frame s.cfg s.eng.total lead count red green blue
  rw [hw] at hrun hrun' hwait hlength
  have hend : u.cfg.latchUs ≤ elapsed u.cfg (Ops.inputAt u (m - (w + 2))).usNow u.eng.t0 := by
    rw [runFor_cfg hrun', runFor_inputAt hrun', hwait, elapsed_clockValue, Nat.sub_add_cancel hlt]
    exact of_decide_eq_true hlatch
  have hquiet' : NoReset (m - (w + 2) + 1) u := fun k hk => by
    rw [runFor_inputAt hrun']
    exact hquiet _ (by omega)
  obtain ⟨n, hn, hstalled, v, hv, hidle⟩ := runFor_wait_ends (by rw [hwait]) hquiet' hend
  refine ⟨w + 2 + (n + 1), v, by omega, by omega, fun k hpos hk => ?_, (runFor_add hrun').trans hv, ?_⟩
  · by_cases hwindow : k ≤ w
    · obtain ⟨x, hx, _, hin⟩ := hlevels (k - 1) _ (List.getElem?_eq_getElem (by omega))
      rw [Nat.sub_add_cancel hpos] at hx
      exact ⟨x, hx, busy_of_irqInhibit hin⟩
    · by_cases harm : k = w + 1
      · exact ⟨t, harm ▸ hrun, busy_of_phase_ne (by simp [hdone.phase])⟩
      · obtain ⟨x, hx, heng⟩ := hstalled (k - (w + 2)) (by omega)
        have hk' := (runFor_add (n := k - (w + 2)) hrun').trans hx
        rw [Nat.add_sub_cancel' (by omega)] at hk'
        exact ⟨x, hk', busy_of_phase_ne (by simp [heng, hwait])⟩
  · rw [hidle, hwait]
    exact ⟨rfl, rfl, hdone.total, hdone.pinDir, fun hsent => (hdone.sent hsent).1⟩

/-- Settles O55: the window, the ARM cycle and the wait follow each other, all busy, and the wait ends as soon as the clock
has advanced (R179, R204). -/
theorem renderReturnsWhenTheClockAdvances : Obligations.RenderReturnsWhenTheClockAdvances := by
  unfold Obligations.RenderReturnsWhenTheClockAdvances
  intro s lead count red green blue m leds w hp hv hdec hclock hquiet
  exact render_returns hp hv hdec rfl hclock hquiet

end Sys2Proof.Machine
end
